-- ==== Sys2Proof/Word.lean ====
section
/-! DEFINITION. The word types of the block: bytes, register addresses, command words, calibration
patterns, ADC counts, binary64 patterns, and the list form of the device register space. -/

namespace Sys2Proof

/-- One device register, `W_REG` = 8 bits (R6, R40). -/
abbrev Byte := BitVec 8

/-- A register address, `W_ADDR` = 8 bits (R6, R40). -/
abbrev Addr := BitVec 8

/-- A command word: opcode in bits 23:16, operand field in bits 15:0 (R80). -/
abbrev Word := BitVec 24

/-- A calibration register's pattern, `W_CAL` = 16 bits (R6, R11). -/
abbrev Pattern := BitVec 16

/-- A raw count, `W_ADC` = 20 bits (R6, R15). -/
abbrev Count := BitVec 20

/-- The 64-bit interchange pattern of an IEEE 754 binary64 value, sign in bit 63 (R16, R17, R88). -/
abbrev F64 := BitVec 64

end Sys2Proof
end

