-- ==== Sys2Proof/Config.lean ====
section
/-! DEFINITION. What an implementation fixes (the parameters of R6, as plain data) and the free values:
constants without a body, of which nothing can be proved. -/

namespace Sys2Proof

/-- `CODE_OSRS`: the 3-bit code of each oversampling member (R76). -/
structure OsrsCodes where
  skip : BitVec 3
  x1   : BitVec 3
  x2   : BitVec 3
  x4   : BitVec 3
  x8   : BitVec 3
  x16  : BitVec 3
  deriving DecidableEq, Repr

/-- `CODE_MODE`: the 2-bit code of each power mode (R76). -/
structure ModeCodes where
  sleep  : BitVec 2
  forced : BitVec 2
  normal : BitVec 2
  deriving DecidableEq, Repr

/-- `CODE_FILTER`: the 3-bit code of each filter coefficient (R76). -/
structure FilterCodes where
  off : BitVec 3
  c2  : BitVec 3
  c4  : BitVec 3
  c8  : BitVec 3
  c16 : BitVec 3
  deriving DecidableEq, Repr

/-- `CODE_TSB`: the 3-bit code of each standby member (R76). -/
structure TsbCodes where
  sb0 : BitVec 3
  sb1 : BitVec 3
  sb2 : BitVec 3
  sb3 : BitVec 3
  sb4 : BitVec 3
  sb5 : BitVec 3
  sb6 : BitVec 3
  sb7 : BitVec 3
  deriving DecidableEq, Repr

/-- `CONFIGURE_ORDER`: which half of `CONFIG` comes first (R6, R117). -/
inductive ConfigureOrder where
  | controlFirst
  | filterFirst
  deriving DecidableEq, Repr

/-- The implementation parameters of R6 that the spec leaves open, each `parameter` row a field. -/
structure Params where
  calBase    : Addr
  ctrlAddr   : Addr
  configAddr : Addr
  dataBase   : Addr
  osrs       : OsrsCodes
  mode       : ModeCodes
  filter     : FilterCodes
  tsb        : TsbCodes
  order      : ConfigureOrder
  deriving DecidableEq, Repr

/-- The default values of R6, R41 and R76.
PRESUMED (the spec marks `ADDR_CTRL`, `ADDR_CONFIG` and the code tables so): log entry 1. -/
def Params.default : Params where
  calBase := 0x88
  ctrlAddr := 0xF4
  configAddr := 0xF5
  dataBase := 0xF7
  osrs := { skip := 0b000, x1 := 0b001, x2 := 0b010, x4 := 0b011, x8 := 0b100, x16 := 0b101 }
  mode := { sleep := 0b00, forced := 0b01, normal := 0b11 }
  filter := { off := 0b000, c2 := 0b001, c4 := 0b010, c8 := 0b011, c16 := 0b100 }
  tsb := { sb0 := 0b000, sb1 := 0b001, sb2 := 0b010, sb3 := 0b011,
           sb4 := 0b100, sb5 := 0b101, sb6 := 0b110, sb7 := 0b111 }
  order := .controlFirst

/-- One answer of the Bus Transport to one request (R44 to R46, R52).
`device`: the request is carried out on the device image (a read returns its bytes, a write is stored).
`ok bs`: the transport answers `Ok`; a read returns exactly `bs`, whatever the image holds; a write is
reported done and the image keeps its old byte (the silent write failure of R212).
`err landed`: the transport answers `Err`, a time-out included (R47); `landed` says whether a write had
reached the device all the same. DESIGN CHOICE of representation: log entries 2 and 3. -/
inductive Answer where
  | device
  | ok (bytes : List Byte)
  | err (landed : Bool)
  deriving DecidableEq, Repr, Inhabited

/-- FREE VALUE (R52, A3 to A5). The transport's answer to the n-th request where `State.answers`
prescribes none: log entry 2. -/
opaque Config.freeAnswer : Nat → Answer

/-- FREE VALUE (R52, A3, A17). What the n-th request reads at a device address whose content the
image does not know: log entry 3. -/
opaque Config.freeByte : Nat → Nat → Byte

/-- FREE VALUE (R141 names no NaN payload). The sign and payload bits of a NaN result, by its
operands: log entry 11. -/
opaque Config.freeNaN : F64 → F64 → F64

end Sys2Proof
end

