-- ==== Sys2Proof/Machine/Float64.lean ====
section
/-! DEFINITION. The binary64 arithmetic of R141, bit exact: the four operations correctly rounded with
roundTiesToEven, integer conversion, IEEE equality.

Every finite binary64 is an integer multiple of the smallest subnormal, 2^-1074: its *units*. An operation
computes its exact result as a ratio of naturals in those units and rounds it once. -/

namespace Sys2Proof.Machine

/-- The sign bit, bit 63. -/
def fSign (x : F64) : Bool := x.msb

/-- The exponent field, bits 62:52. -/
def fExp (x : F64) : Nat := x.toNat / 2 ^ 52 % 2048

/-- The fraction field, bits 51:0. -/
def fFrac (x : F64) : Nat := x.toNat % 2 ^ 52

/-- A NaN: exponent field all ones, fraction not zero. -/
def isNaN (x : F64) : Bool := fExp x == 2047 && fFrac x != 0

/-- An infinity: exponent field all ones, fraction zero. -/
def isInf (x : F64) : Bool := fExp x == 2047 && fFrac x == 0

/-- A finite number: neither a NaN nor an infinity. -/
def isFinite (x : F64) : Bool := fExp x != 2047

/-- A zero of either sign. -/
def isZero (x : F64) : Bool := x.toNat % 2 ^ 63 == 0

/-- The magnitude of a finite number in units of 2^-1074; subnormals included (R141: underflow is gradual). -/
def fMag (x : F64) : Nat :=
  if fExp x = 0 then fFrac x else (2 ^ 52 + fFrac x) * 2 ^ (fExp x - 1)

/-- The value of a finite number in units of 2^-1074. -/
def fUnits (x : F64) : Int := if fSign x then -(fMag x : Int) else fMag x

/-- How many units make 1. -/
def unitsPerOne : Nat := 2 ^ 1074

/-- The pattern of plus infinity. -/
def infPattern : Nat := 0x7FF0000000000000

/-- `num / den` rounded to the nearest natural, ties to even. -/
def roundHalfEven (num den : Nat) : Nat :=
  let m := num / den
  let r := num % den
  if 2 * r < den ∨ (2 * r = den ∧ m % 2 = 0) then m else m + 1

/-- The pattern, sign bit 0, of the binary64 nearest to `num / den` units, ties to even; an infinity where
the rounded significand leaves the format. With `k` discarded bits the pattern of significand `m` is
`k * 2^52 + m`, also where the rounding carries into the next binade and for subnormals (`k` = 0). -/
def roundMag (num den : Nat) : Nat :=
  let k := Nat.log2 (num / den) - 52
  min (k * 2 ^ 52 + roundHalfEven num (den * 2 ^ k)) infPattern

/-- A sign bit and a 63-bit pattern. -/
def fPack (neg : Bool) (m : Nat) : F64 := BitVec.ofNat 64 (if neg then 2 ^ 63 + m else m)

/-- The exact result `num / den` units with a sign, rounded once. -/
def roundUnits (neg : Bool) (num den : Nat) : F64 := fPack neg (roundMag num den)

/-- The quiet NaN an invalid operation yields; sign and payload are free (log entry 11). -/
def fNaN (a b : F64) : F64 := 0x7FF8000000000000 ||| (Config.freeNaN a b &&& 0x8007FFFFFFFFFFFF)

/-- The negation: the sign bit flipped. -/
def fneg (x : F64) : F64 := fPack (!fSign x) (x.toNat % 2 ^ 63)

/-- Addition (R141). An exact sum of zero is `+0.0` unless both operands are negative. -/
def fadd (a b : F64) : F64 :=
  if isNaN a || isNaN b then fNaN a b
  else if isInf a then (if isInf b && fSign a != fSign b then fNaN a b else a)
  else if isInf b then b
  else
    let s := fUnits a + fUnits b
    if s = 0 then fPack (fSign a && fSign b) 0
    else roundUnits (s < 0) s.natAbs 1

/-- Subtraction (R141): `a - b` is `a + (-b)`. -/
def fsub (a b : F64) : F64 := fadd a (fneg b)

/-- Multiplication (R141). -/
def fmul (a b : F64) : F64 :=
  let neg := fSign a != fSign b
  if isNaN a || isNaN b then fNaN a b
  else if isInf a || isInf b then (if isZero a || isZero b then fNaN a b else fPack neg infPattern)
  else roundUnits neg (fMag a * fMag b) unitsPerOne

/-- Division (R141). The pipeline's guard (R147) keeps a zero divisor away. -/
def fdiv (a b : F64) : F64 :=
  let neg := fSign a != fSign b
  if isNaN a || isNaN b then fNaN a b
  else if isInf a then (if isInf b then fNaN a b else fPack neg infPattern)
  else if isInf b then fPack neg 0
  else if isZero b then (if isZero a then fNaN a b else fPack neg infPattern)
  else roundUnits neg (fMag a * unitsPerOne) (fMag b)

/-- IEEE equality (R141): a NaN equals nothing, the two zeros are equal. -/
def feq (a b : F64) : Bool := !isNaN a && !isNaN b && (a == b || (isZero a && isZero b))

/-- The binary64 nearest to the ratio `num / den`. -/
def ofRatio (num : Int) (den : Nat) : F64 := roundUnits (num < 0) (num.natAbs * unitsPerOne) den

/-- `i2f`: integer to binary64, exact for every integer the block converts (R8, R141). -/
def i2f (n : Int) : F64 := ofRatio n 1

end Sys2Proof.Machine
end

