-- ==== Sys2Proof/Syntax.lean ====
section
/-! DEFINITION. The fourteen commands of R85 with their operands as named members (R20, R91). -/

namespace Sys2Proof

/-- The oversampling enumeration (R20). -/
inductive Osrs where
  | skip | x1 | x2 | x4 | x8 | x16
  deriving DecidableEq, Repr

/-- The power-mode enumeration (R20). -/
inductive Mode where
  | sleep | forced | normal
  deriving DecidableEq, Repr

/-- The filter-coefficient enumeration (R20). -/
inductive Filter where
  | off | c2 | c4 | c8 | c16
  deriving DecidableEq, Repr

/-- The standby-time enumeration, members `SB0` to `SB7` (R20). -/
inductive Standby where
  | sb0 | sb1 | sb2 | sb3 | sb4 | sb5 | sb6 | sb7
  deriving DecidableEq, Repr

/-- One constructor per row of opcode_table.json, operands in the assembler order of R91. -/
inductive Instr where
  /-- `LDCAL` (R100) -/
  | ldcal
  /-- `APCTL ot, op, m` (R115) -/
  | apctl (ot op : Osrs) (m : Mode)
  /-- `APFLT sb, f, s` (R116) -/
  | apflt (sb : Standby) (f : Filter) (w : Bool)
  /-- `CONFIG ot, op, m, sb, f, s` (R117) -/
  | config (ot op : Osrs) (m : Mode) (sb : Standby) (f : Filter) (w : Bool)
  /-- `RDRAW` (R130) -/
  | rdraw
  /-- `CMPT` (R142) -/
  | cmpt
  /-- `CMPP` (R145) -/
  | cmpp
  /-- `ACQ` (R160) -/
  | acq
  /-- `ENCCTL ot, op, m` (R111) -/
  | encctl (ot op : Osrs) (m : Mode)
  /-- `ENCFLT sb, f, s` (R112) -/
  | encflt (sb : Standby) (f : Filter) (w : Bool)
  /-- `DECCTL b` (R113) -/
  | decctl (b : Byte)
  /-- `DECFLT b` (R114) -/
  | decflt (b : Byte)
  /-- `RDCTL` (R119) -/
  | rdctl
  /-- `RDFLT` (R120) -/
  | rdflt
  deriving DecidableEq, Repr

end Sys2Proof
end

