-- ==== Sys2Proof/Machine/State.lean ====
section
/-! DEFINITION. The state of the block and of what stands around it, as plain data, and the state after
reset (R10, R26, R30, R31). -/

namespace Sys2Proof.Machine

/-- `CAL[0..11]` as patterns, each under its own name (R11). -/
structure Cal where
  t1 : Pattern
  t2 : Pattern
  t3 : Pattern
  p1 : Pattern
  p2 : Pattern
  p3 : Pattern
  p4 : Pattern
  p5 : Pattern
  p6 : Pattern
  p7 : Pattern
  p8 : Pattern
  p9 : Pattern
  deriving DecidableEq, Repr

/-- `ADC_P` and `ADC_T`, written together (R15). -/
structure RawSample where
  adcP : Count
  adcT : Count
  deriving DecidableEq, Repr

/-- The error statuses of R170 (code 0, `OK`, is not an error). -/
inductive Err where
  | transportError
  | verificationFailed
  | arithmeticError
  | calibrationMissing
  | operandMissing
  | illegalCommand
  | reservedCode
  deriving DecidableEq, Repr

/-- The payload of a response (R88); `none` where the response carries none. -/
inductive Payload where
  | none
  | coefficients (c : Cal)
  | sample (adcP adcT : Count)
  | temperature (celsius fine : F64)
  | pressure (hpa : F64)
  | reading (hpa celsius : F64)
  | byte (b : Byte)
  | control (ot op : Osrs) (m : Mode)
  | filter (sb : Standby) (f : Filter) (w : Bool)
  deriving DecidableEq, Repr

/-- The block's registers as the host may read them (R10, R32). -/
inductive BlockReg where
  | cal (k : Fin 12)
  | adcP
  | adcT
  | tFine
  | tempC
  | pressHpa
  | status
  | calValid
  | rawValid
  | fineValid
  | tempValid
  | pressValid
  deriving DecidableEq, Repr

/-- What the block gives the host: a response when a command ends (R88, R176), the bits of a register it read,
zero-extended to 64 (R32; log entry 10), or no value but the record that the host read a register whose valid flag
is 0, which R32 makes "a fault of the host's, not a value" (log entry 26). -/
inductive Output where
  | response (status : BitVec 4) (payload : Payload)
  | value (r : BlockReg) (bits : BitVec 64)
  | hostFault (r : BlockReg)
  deriving DecidableEq, Repr

/-- A request of the block to the transport (R44 to R46). -/
inductive Request where
  | readByte (a : Addr)
  | readBlock (a : Addr) (n : Nat)
  | writeByte (a : Addr) (v : Byte)
  deriving DecidableEq, Repr

/-- The transport's answer as the block receives it: `Err`, or `Ok` with the bytes read (none for a
write) (R44 to R46). -/
inductive Reply where
  | err
  | ok (bytes : List Byte)
  deriving DecidableEq, Repr

/-- One entry of the bus trace (R64). -/
structure BusEntry where
  request : Request
  reply   : Reply
  deriving DecidableEq, Repr

/-- `SEQ` (R30): `Idle`, or `Busy(cmd, i)` with the index of the next micro-step and the command's
temporaries, the bytes read so far (`raw` of R100, `B` of R130; log entry 6). -/
inductive Seq where
  | idle
  | busy (cmd : Instr) (i : Nat) (tmp : List Byte)
  deriving DecidableEq, Repr

/-- What the outside world does to the block (R189, R200; log entries 7 and 16). -/
inductive Event where
  /-- The host issues a word and waits for the response: one step runs the command to its end. -/
  | command (w : Word)
  /-- The host issues a word; each micro-step of the command is then a step of its own. -/
  | issue (w : Word)
  /-- Nothing from outside for one step. -/
  | tick
  /-- The host reads a block register (R32). -/
  | read (r : BlockReg)
  /-- The reset event (R200, R201). -/
  | reset
  /-- The sensor changes one of its registers by itself (R24, R60). -/
  | sensor (a : Addr) (v : Byte)
  deriving DecidableEq, Repr

/-- The device register space (R40): the bytes whose value is known, by address, in the canonical form
`Memory.wf` of Machine/Ops.lean. An address that is not listed has no known value (log entry 3). -/
abbrev Memory := List Host.Cell

/-- The state. `params`, `events`, `answers` are the parameters and inputs of a run (R26); `draws`, `trace`
and `outputs` are the model's records (R64, R88; log entries 15 and 23). A valid flag of R18 is the tag of
its register's option: `some` where the flag is 1; where it is 0 the register holds no value (R8, R12). -/
structure State where
  /-- The implementation parameters of R6. -/
  params  : Params
  /-- `CAL` with `CAL_VALID` (R11, R13). -/
  cal     : Option Cal
  /-- `ADC_P`, `ADC_T` with `RAW_VALID` (R15). -/
  raw     : Option RawSample
  /-- `T_FINE` with `FINE_VALID` (R16). -/
  tFine   : Option F64
  /-- `TEMP_C` with `TEMP_VALID` (R17). -/
  tempC   : Option F64
  /-- `PRESS_HPA` with `PRESS_VALID` (R17). -/
  press   : Option F64
  /-- `STATUS` (R19). -/
  status  : BitVec 4
  /-- `SEQ` (R30). -/
  seq     : Seq
  /-- The device behind the transport (R10, R21, R22, R24, R40). -/
  device  : Memory
  /-- What the outside world is going to do, oldest first. -/
  events  : List Event
  /-- What the transport is going to answer, oldest first; where the list has ended, a free value. -/
  answers : List Answer
  /-- How many requests were made: the index of the next free value. -/
  draws   : Nat
  /-- The bus trace, newest first (R64). -/
  trace   : List BusEntry
  /-- Responses, register values and host faults, newest first. -/
  outputs : List Output
  deriving DecidableEq, Repr

/-- Why the machine stops. -/
inductive Fault where
  /-- Raised by a step in a busy state that names no micro-step of its command, which R30 does not allow.
  Safe, and unreachable (log entry 14). -/
  | noMicroStep
  deriving DecidableEq, Repr

/-- Why an instruction has no meaning. -/
inductive Refusal where
  /-- Raised by an arm of `exec` whose instruction is not modelled yet; no arm is left in that form. Safe. -/
  | notModelled (mnemonic : String)
  deriving DecidableEq, Repr

/-- The state after reset (R31, R200): all flags 0, no register holds a value, `STATUS` = 0, `SEQ` = `Idle`;
the default parameters (R6). The inputs are empty and nothing is known of the device: DESIGN CHOICE, log
entries 2, 3, 8, 15 and 23. -/
def State.reset : State where
  params := Params.default
  cal := none
  raw := none
  tFine := none
  tempC := none
  press := none
  status := 0
  seq := .idle
  device := []
  events := []
  answers := []
  draws := 0
  trace := []
  outputs := []

end Sys2Proof.Machine
end

