-- ==== Sys2Proof/Machine/Flags.lean ====
section
/-! DEFINITION. The valid flags and their derivation chain (R12, R13, R18), and the status codes (R19, R170). -/

namespace Sys2Proof.Machine

/-- `CAL_VALID` (R13). -/
def calValid (s : State) : Bool := s.cal.isSome
/-- `RAW_VALID` (R15). -/
def rawValid (s : State) : Bool := s.raw.isSome
/-- `FINE_VALID` (R16). -/
def fineValid (s : State) : Bool := s.tFine.isSome
/-- `TEMP_VALID` (R17). -/
def tempValid (s : State) : Bool := s.tempC.isSome
/-- `PRESS_VALID` (R17). -/
def pressValid (s : State) : Bool := s.press.isSome

/-- The code of `OK` (R170). -/
def codeOk : BitVec 4 := 0

/-- The code of each error status (R170). -/
def errCode : Err → BitVec 4
  | .transportError => 1
  | .verificationFailed => 2
  | .arithmeticError => 3
  | .calibrationMissing => 4
  | .operandMissing => 5
  | .illegalCommand => 6
  | .reservedCode => 7

/-- R18, row "`LDCAL` ends OK": the set replaced whole (R101), everything computed from the old one dropped. -/
def commitCal (c : Cal) (s : State) : State :=
  { s with cal := some c, tFine := none, tempC := none, press := none }

/-- R18, row "`RDRAW` (or the `RDRAW` step of `ACQ`) ends OK". -/
def commitRaw (r : RawSample) (s : State) : State :=
  { s with raw := some r, tFine := none, tempC := none, press := none }

/-- R18, row "`CMPT` (or the `CMPT` step of `ACQ`) ends OK". -/
def commitTemp (celsius fine : F64) (s : State) : State :=
  { s with tFine := some fine, tempC := some celsius, press := none }

/-- R18, row "`CMPP` (or the `CMPP` step of `ACQ`) ends OK". -/
def commitPress (hpa : F64) (s : State) : State := { s with press := some hpa }

/-- R18, row "`CMPP` ends with `ArithmeticError`". -/
def dropPress (s : State) : State := { s with press := none }

end Sys2Proof.Machine
end

