-- ==== Sys2Proof/WellFormed.lean ====
section
/-! DEFINITION. Well-formedness of the parameters (R42, R110) and of instructions.
Operands are members of enumerations or bytes, so no instruction term is ill-formed: R89 says that "a
model that takes commands as an inductive type has no illegal commands". The checks that can fail are those
on the parameters. -/

namespace Sys2Proof

/-- Every operand of every command is legal by its type (R89). -/
def Instr.wf : Instr → Bool
  | .ldcal => true
  | .apctl _ _ _ => true
  | .apflt _ _ _ => true
  | .config _ _ _ _ _ _ => true
  | .rdraw => true
  | .cmpt => true
  | .cmpp => true
  | .acq => true
  | .encctl _ _ _ => true
  | .encflt _ _ _ => true
  | .decctl _ => true
  | .decflt _ => true
  | .rdctl => true
  | .rdflt => true

/-- The codes of a table in listing order. -/
def OsrsCodes.codes (t : OsrsCodes) : List (BitVec 3) := [t.skip, t.x1, t.x2, t.x4, t.x8, t.x16]
/-- The codes of a table in listing order. -/
def ModeCodes.codes (t : ModeCodes) : List (BitVec 2) := [t.sleep, t.forced, t.normal]
/-- The codes of a table in listing order. -/
def FilterCodes.codes (t : FilterCodes) : List (BitVec 3) := [t.off, t.c2, t.c4, t.c8, t.c16]
/-- The codes of a table in listing order. -/
def TsbCodes.codes (t : TsbCodes) : List (BitVec 3) :=
  [t.sb0, t.sb1, t.sb2, t.sb3, t.sb4, t.sb5, t.sb6, t.sb7]

/-- Two address ranges of the given lengths share no address. -/
def rangesApart (a : Addr) (m : Nat) (b : Addr) (n : Nat) : Bool :=
  a.toNat + m ≤ b.toNat || b.toNat + n ≤ a.toNat

/-- The address constraints of R42: nothing wraps, the four regions do not overlap. -/
def Params.addressesWf (p : Params) : Bool :=
  p.calBase.toNat + 23 ≤ 0xFF && p.dataBase.toNat + 5 ≤ 0xFF &&
  rangesApart p.calBase 24 p.ctrlAddr 1 && rangesApart p.calBase 24 p.configAddr 1 &&
  rangesApart p.calBase 24 p.dataBase 6 && rangesApart p.ctrlAddr 1 p.configAddr 1 &&
  rangesApart p.ctrlAddr 1 p.dataBase 6 && rangesApart p.configAddr 1 p.dataBase 6

/-- The code tables are injective (R110); that each code fits its field is their type. -/
def Params.codesWf (p : Params) : Bool :=
  decide p.osrs.codes.Nodup && decide p.mode.codes.Nodup &&
  decide p.filter.codes.Nodup && decide p.tsb.codes.Nodup

/-- What R42 and R110 require of the parameters. -/
def Params.wf (p : Params) : Bool := p.addressesWf && p.codesWf

end Sys2Proof
end

