-- ==== Sys2Proof/Decode.lean ====
section
/-! DEFINITION. The command decoder, total on 24-bit words, and the encoder (R80 to R90). -/

namespace Sys2Proof

/-- Why a word is illegal: the three causes of R89. -/
inductive Illegal where
  /-- opcode 0x00 or 0x0F to 0xFF -/
  | reservedOpcode
  /-- a bit the format requires to be 0 is 1 -/
  | reservedBit
  /-- an ordinal field is out of its legal range -/
  | ordinalOutOfRange
  deriving DecidableEq, Repr

/-- `ord` of the oversampling enumeration (R87). -/
def Osrs.ord : Osrs → BitVec 3
  | .skip => 0 | .x1 => 1 | .x2 => 2 | .x4 => 3 | .x8 => 4 | .x16 => 5

/-- `ord` of the power-mode enumeration (R87). -/
def Mode.ord : Mode → BitVec 2
  | .sleep => 0 | .forced => 1 | .normal => 2

/-- `ord` of the filter enumeration (R87). -/
def Filter.ord : Filter → BitVec 3
  | .off => 0 | .c2 => 1 | .c4 => 2 | .c8 => 3 | .c16 => 4

/-- `ord` of the standby enumeration (R87). -/
def Standby.ord : Standby → BitVec 3
  | .sb0 => 0 | .sb1 => 1 | .sb2 => 2 | .sb3 => 3 | .sb4 => 4 | .sb5 => 5 | .sb6 => 6 | .sb7 => 7

/-- The member with a given ordinal; ordinals 6 and 7 are illegal (R82, R89). -/
def osrsOfOrd (c : BitVec 3) : Except Illegal Osrs :=
  match c.toNat with
  | 0 => .ok .skip | 1 => .ok .x1 | 2 => .ok .x2 | 3 => .ok .x4 | 4 => .ok .x8 | 5 => .ok .x16
  | _ => .error .ordinalOutOfRange

/-- The member with a given ordinal; ordinal 3 is illegal (R82, R89). -/
def modeOfOrd (c : BitVec 2) : Except Illegal Mode :=
  match c.toNat with
  | 0 => .ok .sleep | 1 => .ok .forced | 2 => .ok .normal
  | _ => .error .ordinalOutOfRange

/-- The member with a given ordinal; ordinals 5 to 7 are illegal (R83, R89). -/
def filterOfOrd (c : BitVec 3) : Except Illegal Filter :=
  match c.toNat with
  | 0 => .ok .off | 1 => .ok .c2 | 2 => .ok .c4 | 3 => .ok .c8 | 4 => .ok .c16
  | _ => .error .ordinalOutOfRange

/-- The member with a given ordinal; all eight are legal (R83). -/
def standbyOfOrd (c : BitVec 3) : Standby :=
  match c.toNat with
  | 0 => .sb0 | 1 => .sb1 | 2 => .sb2 | 3 => .sb3 | 4 => .sb4 | 5 => .sb5 | 6 => .sb6 | _ => .sb7

/-- The boolean operand in one bit (R83). -/
def boolOfBit (c : BitVec 1) : Bool := c == 1

/-- One bit for the boolean operand (R83). -/
def bitOfBool (w : Bool) : BitVec 1 := if w then 1 else 0

/-- Format `N`: every bit of `arg` is 0 (R81). -/
def decodeN (arg : BitVec 16) (i : Instr) : Except Illegal Instr :=
  if arg = 0 then .ok i else .error .reservedBit

/-- Format `C`: `arg[7:5]`, `arg[4:2]`, `arg[1:0]` are ordinals, `arg[15:8] = 0` (R82). -/
def decodeC (arg : BitVec 16) (mk : Osrs → Osrs → Mode → Instr) : Except Illegal Instr :=
  if arg.extractLsb' 8 8 ≠ 0 then .error .reservedBit
  else do
    let ot ← osrsOfOrd (arg.extractLsb' 5 3)
    let op ← osrsOfOrd (arg.extractLsb' 2 3)
    let m ← modeOfOrd (arg.extractLsb' 0 2)
    return mk ot op m

/-- Format `F`: `arg[7:5]`, `arg[4:2]` are ordinals, `arg[0]` the boolean, the rest 0 (R83). -/
def decodeF (arg : BitVec 16) (mk : Standby → Filter → Bool → Instr) : Except Illegal Instr :=
  if arg.extractLsb' 8 8 ≠ 0 ∨ arg.extractLsb' 1 1 ≠ 0 then .error .reservedBit
  else do
    let f ← filterOfOrd (arg.extractLsb' 2 3)
    return mk (standbyOfOrd (arg.extractLsb' 5 3)) f (boolOfBit (arg.extractLsb' 0 1))

/-- Format `S`: a whole SensorConfig, `arg[15] = 0` (R84). -/
def decodeS (arg : BitVec 16) (mk : Osrs → Osrs → Mode → Standby → Filter → Bool → Instr) :
    Except Illegal Instr :=
  if arg.extractLsb' 15 1 ≠ 0 then .error .reservedBit
  else do
    let ot ← osrsOfOrd (arg.extractLsb' 12 3)
    let op ← osrsOfOrd (arg.extractLsb' 9 3)
    let m ← modeOfOrd (arg.extractLsb' 7 2)
    let f ← filterOfOrd (arg.extractLsb' 1 3)
    return mk ot op m (standbyOfOrd (arg.extractLsb' 4 3)) f (boolOfBit (arg.extractLsb' 0 1))

/-- Format `B`: `arg[7:0]` is a byte, `arg[15:8] = 0` (R86). -/
def decodeB (arg : BitVec 16) (mk : Byte → Instr) : Except Illegal Instr :=
  if arg.extractLsb' 8 8 ≠ 0 then .error .reservedBit else .ok (mk (arg.extractLsb' 0 8))

/-- The decoder by the opcode map of R85; total, its refusals are the illegal words of R89. -/
def decode (w : Word) : Except Illegal Instr :=
  let arg := w.extractLsb' 0 16
  match (w.extractLsb' 16 8).toNat with
  | 0x01 => decodeN arg .ldcal
  | 0x02 => decodeC arg .apctl
  | 0x03 => decodeF arg .apflt
  | 0x04 => decodeS arg .config
  | 0x05 => decodeN arg .rdraw
  | 0x06 => decodeN arg .cmpt
  | 0x07 => decodeN arg .cmpp
  | 0x08 => decodeN arg .acq
  | 0x09 => decodeC arg .encctl
  | 0x0A => decodeF arg .encflt
  | 0x0B => decodeB arg .decctl
  | 0x0C => decodeB arg .decflt
  | 0x0D => decodeN arg .rdctl
  | 0x0E => decodeN arg .rdflt
  | _ => .error .reservedOpcode

/-- The opcode of each command (R85). -/
def Instr.opcode : Instr → BitVec 8
  | .ldcal => 0x01
  | .apctl _ _ _ => 0x02
  | .apflt _ _ _ => 0x03
  | .config _ _ _ _ _ _ => 0x04
  | .rdraw => 0x05
  | .cmpt => 0x06
  | .cmpp => 0x07
  | .acq => 0x08
  | .encctl _ _ _ => 0x09
  | .encflt _ _ _ => 0x0A
  | .decctl _ => 0x0B
  | .decflt _ => 0x0C
  | .rdctl => 0x0D
  | .rdflt => 0x0E

/-- The operand field of format `C` (R82). -/
def encodeC (ot op : Osrs) (m : Mode) : BitVec 16 := 0#8 ++ ot.ord ++ op.ord ++ m.ord

/-- The operand field of format `F` (R83). -/
def encodeF (sb : Standby) (f : Filter) (w : Bool) : BitVec 16 :=
  0#8 ++ sb.ord ++ f.ord ++ 0#1 ++ bitOfBool w

/-- The operand field of format `S` (R84). -/
def encodeS (ot op : Osrs) (m : Mode) (sb : Standby) (f : Filter) (w : Bool) : BitVec 16 :=
  0#1 ++ ot.ord ++ op.ord ++ m.ord ++ sb.ord ++ f.ord ++ bitOfBool w

/-- The operand field of each command (R81 to R84, R86). -/
def Instr.arg : Instr → BitVec 16
  | .ldcal => 0
  | .apctl ot op m => encodeC ot op m
  | .apflt sb f w => encodeF sb f w
  | .config ot op m sb f w => encodeS ot op m sb f w
  | .rdraw => 0
  | .cmpt => 0
  | .cmpp => 0
  | .acq => 0
  | .encctl ot op m => encodeC ot op m
  | .encflt sb f w => encodeF sb f w
  | .decctl b => 0#8 ++ b
  | .decflt b => 0#8 ++ b
  | .rdctl => 0
  | .rdflt => 0

/-- The word of a command: `{op, arg}` (R80). -/
def encode (i : Instr) : Word := i.opcode ++ i.arg

/-- The host's question: the command the decoder reads from the word whose low `nbits` bits are those
of `w`, every higher bit 0 (R80: a command is one 24-bit word). -/
def decodeTableWord (nbits w : Nat) : Option Instr := (decode (BitVec.ofNat 24 (w % 2 ^ nbits))).toOption

end Sys2Proof
end

