-- ==== Sys2Proof/Machine/Operands.lean ====
section
/-! DEFINITION. Operand forms: coefficient assembly and sign (R70, R71), `extract20` (R131), the code tables
and the control bytes (R74 to R79, R110 to R114). -/

namespace Sys2Proof.Machine

/-- `s16`: the signed reading of a 16-bit pattern (R8, R71). -/
def s16 (r : Pattern) : Int := if r.toNat ≤ 32767 then (r.toNat : Int) else (r.toNat : Int) - 65536

/-- The unsigned reading of a 16-bit pattern: `T1` and `P1` (R11, R71). -/
def u16 (r : Pattern) : Int := r.toNat

/-- The pattern of a register pair, low byte first: `B[0] | (B[1] << 8)` (R49, R71). -/
def pattern16 (lo hi : Byte) : Pattern := lo.setWidth 16 ||| (hi.setWidth 16 <<< 8)

/-- The calibration frame of R70: 24 bytes, coefficient `k` at offsets `2k` and `2k + 1`. -/
def calOfBytes : List Byte → Option Cal
  | [a0, a1, b0, b1, c0, c1, d0, d1, e0, e1, f0, f1, g0, g1, h0, h1, i0, i1, j0, j1, k0, k1, l0, l1] =>
    some { t1 := pattern16 a0 a1, t2 := pattern16 b0 b1, t3 := pattern16 c0 c1,
           p1 := pattern16 d0 d1, p2 := pattern16 e0 e1, p3 := pattern16 f0 f1,
           p4 := pattern16 g0 g1, p5 := pattern16 h0 h1, p6 := pattern16 i0 i1,
           p7 := pattern16 j0 j1, p8 := pattern16 k0 k1, p9 := pattern16 l0 l1 }
  | _ => none

/-- `CAL[k]`: the register of index `k` (R11: index and name are aliases). -/
def calReg (c : Cal) (k : Fin 12) : Pattern :=
  match k.val with
  | 0 => c.t1 | 1 => c.t2 | 2 => c.t3 | 3 => c.p1 | 4 => c.p2 | 5 => c.p3
  | 6 => c.p4 | 7 => c.p5 | 8 => c.p6 | 9 => c.p7 | 10 => c.p8 | _ => c.p9

/-- `extract20`: the source's formula, on 24 bits (R131). -/
def extract20 (msb lsb xlsb : Byte) : Count :=
  (((msb.setWidth 24 <<< 16) ||| (lsb.setWidth 24 <<< 8) ||| (xlsb &&& 0xF0#8).setWidth 24) >>> 4).setWidth 20

/-- The ADC frame of R72: pressure from the first three bytes, temperature from the last three (R130). -/
def sampleOfBytes : List Byte → Option RawSample
  | [p0, p1, p2, t0, t1, t2] => some { adcP := extract20 p0 p1 p2, adcT := extract20 t0 t1 t2 }
  | _ => none

/-- `CODE_OSRS` (R76, R110). -/
def codeOsrs (p : Params) : Osrs → BitVec 3
  | .skip => p.osrs.skip | .x1 => p.osrs.x1 | .x2 => p.osrs.x2
  | .x4 => p.osrs.x4 | .x8 => p.osrs.x8 | .x16 => p.osrs.x16

/-- `CODE_MODE` (R76, R110). -/
def codeMode (p : Params) : Mode → BitVec 2
  | .sleep => p.mode.sleep | .forced => p.mode.forced | .normal => p.mode.normal

/-- `CODE_FILTER` (R76, R110). -/
def codeFilter (p : Params) : Filter → BitVec 3
  | .off => p.filter.off | .c2 => p.filter.c2 | .c4 => p.filter.c4
  | .c8 => p.filter.c8 | .c16 => p.filter.c16

/-- `CODE_TSB` (R76, R110). -/
def codeTsb (p : Params) : Standby → BitVec 3
  | .sb0 => p.tsb.sb0 | .sb1 => p.tsb.sb1 | .sb2 => p.tsb.sb2 | .sb3 => p.tsb.sb3
  | .sb4 => p.tsb.sb4 | .sb5 => p.tsb.sb5 | .sb6 => p.tsb.sb6 | .sb7 => p.tsb.sb7

/-- `CODE_SPI3W`: false is 0b00, true is 0b01 (R77). -/
def codeSpi3w (w : Bool) : BitVec 2 := if w then 0b01 else 0b00

/-- `DEC_OSRS`: the member with this code, if any (R110). -/
def decOsrs (p : Params) (c : BitVec 3) : Option Osrs :=
  if c = p.osrs.skip then some .skip else if c = p.osrs.x1 then some .x1
  else if c = p.osrs.x2 then some .x2 else if c = p.osrs.x4 then some .x4
  else if c = p.osrs.x8 then some .x8 else if c = p.osrs.x16 then some .x16 else none

/-- `DEC_MODE`: the member with this code, if any (R110). -/
def decMode (p : Params) (c : BitVec 2) : Option Mode :=
  if c = p.mode.sleep then some .sleep else if c = p.mode.forced then some .forced
  else if c = p.mode.normal then some .normal else none

/-- `DEC_FILTER`: the member with this code, if any (R110). -/
def decFilter (p : Params) (c : BitVec 3) : Option Filter :=
  if c = p.filter.off then some .off else if c = p.filter.c2 then some .c2
  else if c = p.filter.c4 then some .c4 else if c = p.filter.c8 then some .c8
  else if c = p.filter.c16 then some .c16 else none

/-- `DEC_TSB`: the member with this code, if any (R110). -/
def decTsb (p : Params) (c : BitVec 3) : Option Standby :=
  if c = p.tsb.sb0 then some .sb0 else if c = p.tsb.sb1 then some .sb1
  else if c = p.tsb.sb2 then some .sb2 else if c = p.tsb.sb3 then some .sb3
  else if c = p.tsb.sb4 then some .sb4 else if c = p.tsb.sb5 then some .sb5
  else if c = p.tsb.sb6 then some .sb6 else if c = p.tsb.sb7 then some .sb7 else none

/-- `DEC_SPI3W`: 0b10 and 0b11 are reserved (R77, R110). -/
def decSpi3w (c : BitVec 2) : Option Bool :=
  if c = 0b00 then some false else if c = 0b01 then some true else none

/-- A byte from three field codes, most significant first: `(a << 5) | (b << 2) | c` (R74, R75, R78). -/
def packFields (a b : BitVec 3) (c : BitVec 2) : Byte :=
  (a.setWidth 8 <<< 5) ||| (b.setWidth 8 <<< 2) ||| c.setWidth 8

/-- `pack_ctrl` (R111). -/
def packCtrl (p : Params) (ot op : Osrs) (m : Mode) : Byte :=
  packFields (codeOsrs p ot) (codeOsrs p op) (codeMode p m)

/-- `pack_cfg` (R112). -/
def packCfg (p : Params) (sb : Standby) (f : Filter) (w : Bool) : Byte :=
  packFields (codeTsb p sb) (codeFilter p f) (codeSpi3w w)

/-- `unpack_ctrl` by slicing (R78, R113). -/
def unpackCtrl (p : Params) (b : Byte) : Option Osrs × Option Osrs × Option Mode :=
  (decOsrs p (b.extractLsb' 5 3), decOsrs p (b.extractLsb' 2 3), decMode p (b.extractLsb' 0 2))

/-- `unpack_cfg` by slicing (R78, R114). -/
def unpackCfg (p : Params) (b : Byte) : Option Standby × Option Filter × Option Bool :=
  (decTsb p (b.extractLsb' 5 3), decFilter p (b.extractLsb' 2 3), decSpi3w (b.extractLsb' 0 2))

end Sys2Proof.Machine
end

