-- ==== Sys2Proof/Machine/Ops.lean ====
section
/-! DEFINITION. The shared operations: the device register space, the transport primitives (R44 to R46), the
end of a command with a response or an error (R30, R88, R176), running a command's micro-steps (R30), the
reset event (R200 to R202) and the host's register read (R32). -/

namespace Sys2Proof.Machine

/-! ### The device register space -/

/-- The byte known at an address. -/
def Memory.byteAt : Memory → Nat → Option Byte
  | [], _ => none
  | (x, v) :: m, a => if x = a then some v else Memory.byteAt m a

/-- Store one byte, keeping the addresses strictly rising. -/
def Memory.store : Memory → Nat → Byte → Memory
  | [], a, v => [(a, v)]
  | (x, w) :: m, a, v =>
    if a < x then (a, v) :: (x, w) :: m
    else if a = x then (a, v) :: m
    else (x, w) :: Memory.store m a v

/-- The canonical form: addresses strictly rising and inside the 8-bit space (R40). An address that is not
listed has no known value, which no byte equals, so every list of known bytes has one such form. -/
def Memory.wf (m : Memory) : Bool :=
  decide ((m.map Prod.fst).Pairwise (· < ·)) && m.all (fun c => c.1 < 256)

/-! ### The transport -/

/-- The answer the transport gives the next request: the prescribed one, else a free value (R52). -/
def nextAnswer (s : State) : Answer :=
  match s.answers with
  | a :: _ => a
  | [] => Config.freeAnswer s.draws

/-- What the device image holds at an address; a free value where nothing is known (R52, A3). -/
def deviceByte (s : State) (a : Nat) : Byte :=
  match s.device.byteAt a with
  | some b => b
  | none => Config.freeByte s.draws a

/-- The answer as the block receives it. A burst from the device image is in ascending address order (R45). -/
def replyTo (s : State) (r : Request) (a : Answer) : Reply :=
  match a, r with
  | .err _, _ => .err
  | _, .writeByte _ _ => .ok []
  | .ok bs, _ => .ok bs
  | .device, .readByte ad => .ok [deviceByte s ad.toNat]
  | .device, .readBlock ad n => .ok ((List.range n).map fun i => deviceByte s (ad.toNat + i))

/-- The device image after a request: a write is stored where the answer says so (A5). A read leaves the image as it
was, and a write changes no byte but the one it addresses: DESIGN CHOICE, log entry 25 (R53 and A6 leave side effects
open). -/
def deviceAfter (m : Memory) (r : Request) (a : Answer) : Memory :=
  match r, a with
  | .writeByte ad v, .device => m.store ad.toNat v
  | .writeByte ad v, .err true => m.store ad.toNat v
  | _, _ => m

/-- One bus transaction: one request, one answer (R47: every request is answered, log entry 12), recorded in
the bus trace (R64). Never retried (R48). -/
def transport (r : Request) (s : State) : Reply × State :=
  (replyTo s r (nextAnswer s),
   { s with
      device := deviceAfter s.device r (nextAnswer s)
      answers := s.answers.tail
      draws := s.draws + 1
      trace := { request := r, reply := replyTo s r (nextAnswer s) } :: s.trace })

/-- How a micro-step ends: it completes and hands on the temporaries, it raises an error status (R176), or it
completes as the last one and the command responds `OK` (R30, R88). -/
inductive Micro where
  | next (tmp : List Byte) (s : State)
  | raise (e : Err) (s : State)
  | respond (p : Payload) (s : State)
  deriving DecidableEq, Repr

/-- A micro-step: from the temporaries and the state (R30). -/
abbrev MicroStep := List Byte → State → Micro

/-- `MemRead(addr, n)`, then the rest of the micro-step: `Err` and every wrong length raise `TransportError`
(R45). -/
def memRead (a : Addr) (n : Nat) (k : List Byte → State → Micro) (s : State) : Micro :=
  match transport (.readBlock a n) s with
  | (.ok bs, s') => if bs.length = n then k bs s' else .raise .transportError s'
  | (.err, s') => .raise .transportError s'

/-- `MemReadByte(addr)`, then the rest of the micro-step (R44). R44's `Ok` carries exactly one byte; an answer
with another number of bytes is "the wrong number of bytes" of R170. DEDUCED: log entry 4. -/
def memReadByte (a : Addr) (k : Byte → State → Micro) (s : State) : Micro :=
  match transport (.readByte a) s with
  | (.ok [b], s') => k b s'
  | (.ok _, s') => .raise .transportError s'
  | (.err, s') => .raise .transportError s'

/-- `MemWrite(addr, 1, v)`, then the rest of the micro-step (R46). -/
def memWrite (a : Addr) (v : Byte) (k : State → Micro) (s : State) : Micro :=
  match transport (.writeByte a v) s with
  | (.ok _, s') => k s'
  | (.err, s') => .raise .transportError s'

/-! ### The end of a command -/

/-- `raise X` (R176): no later micro-step, `STATUS` takes the code, `SEQ` becomes `Idle`, the response
`(code, empty)` goes to the host; nothing else changes. This is the block's whole exception entry: no handler,
no vector, nothing saved. There is no return from it (R184): the block is idle and takes the next command. -/
def raiseError (e : Err) (s : State) : State :=
  { s with
      status := errCode e
      seq := .idle
      outputs := .response (errCode e) .none :: s.outputs }

/-- `respond OK(payload)` (R8, R30, R88). -/
def respondOk (p : Payload) (s : State) : State :=
  { s with
      status := codeOk
      seq := .idle
      outputs := .response codeOk p :: s.outputs }

/-! ### Running a command -/

/-- The state after micro-step `i` of `cmd` (R30): the index increases by one, or the command ends. -/
def settle (cmd : Instr) (i : Nat) : Micro → State
  | .next tmp s => { s with seq := .busy cmd (i + 1) tmp }
  | .raise e s => raiseError e s
  | .respond p s => respondOk p s

/-- The micro-steps of a command from index `i` on, up to the one that ends it. -/
def runFrom (cmd : Instr) : List MicroStep → Nat → List Byte → State → State
  | [], _, _, s => s
  | m :: ms, i, tmp, s =>
    match m tmp s with
    | .next tmp' s' => runFrom cmd ms (i + 1) tmp' { s' with seq := .busy cmd (i + 1) tmp' }
    | .raise e s' => raiseError e s'
    | .respond p s' => respondOk p s'

/-- The host issues `cmd` in `Idle`: `Idle -> Busy(cmd, 0)` (R30). -/
def accept (cmd : Instr) (s : State) : State := { s with seq := .busy cmd 0 [] }

/-- A whole command. Only an idle block accepts one; while it is busy the host's attempt has no effect and no
response (R186). -/
def runCommand (cmd : Instr) (steps : List MicroStep) (s : State) : State :=
  match s.seq with
  | .idle => runFrom cmd steps 0 [] (accept cmd s)
  | .busy _ _ _ => s

/-! ### Reset and register reads -/

/-- The reset event (R200, R201): the block's state as R31 says, a command in flight is lost without a
response. The sensor is not reset (R202); the parameters, the inputs and the records are no state of the
block and stay. -/
def resetEvent (s : State) : State :=
  { State.reset with
      params := s.params
      device := s.device
      events := s.events
      answers := s.answers
      draws := s.draws
      trace := s.trace
      outputs := s.outputs }

/-- One bit as a 64-bit value. -/
def bit64 (b : Bool) : BitVec 64 := if b then 1 else 0

/-- The bits of a block register, zero-extended to 64; `none` where its valid flag is 0 (R12, R32). -/
def regBits (s : State) : BlockReg → Option (BitVec 64)
  | .cal k => s.cal.map fun c => (calReg c k).setWidth 64
  | .adcP => s.raw.map fun r => r.adcP.setWidth 64
  | .adcT => s.raw.map fun r => r.adcT.setWidth 64
  | .tFine => s.tFine
  | .tempC => s.tempC
  | .pressHpa => s.press
  | .status => some (s.status.setWidth 64)
  | .calValid => some (bit64 (calValid s))
  | .rawValid => some (bit64 (rawValid s))
  | .fineValid => some (bit64 (fineValid s))
  | .tempValid => some (bit64 (tempValid s))
  | .pressValid => some (bit64 (pressValid s))

/-- The host reads a register while the block is idle (R32); a read writes no register. One whose valid flag is 0 gives
no value (R12) and is recorded as a fault of the host's (R32, A8); the block itself goes on: log entry 26. -/
def hostRead (r : BlockReg) (s : State) : State :=
  match regBits s r with
  | some b => { s with outputs := .value r b :: s.outputs }
  | none => { s with outputs := .hostFault r :: s.outputs }

/-- The sensor changes one of its registers by itself (R24, R60). -/
def sensorChange (a : Addr) (v : Byte) (s : State) : State :=
  { s with device := s.device.store a.toNat v }

end Sys2Proof.Machine
end

