-- ==== Sys2Proof/Machine/Compensation.lean ====
section
/-! DEFINITION. The Compensation Engine: `comp_T`, `comp_P`, `CMPT`, `CMPP` (43_compensation.md). Every line of
the two functions is one rounding, in the order R143 and R146 list them. -/

namespace Sys2Proof.Machine

/-- `comp_T` (R143): the temperature in degrees Celsius and the fine temperature. -/
def compT (adcT : Count) (T1 T2 T3 : Pattern) : F64 × F64 :=
  let a := i2f adcT.toNat
  let t1 := i2f (u16 T1)
  let t2 := i2f (s16 T2)
  let t3 := i2f (s16 T3)
  let q1 := fdiv a (i2f 16384)
  let q2 := fdiv t1 (i2f 1024)
  let d1 := fsub q1 q2
  let var1 := fmul d1 t2
  let q3 := fdiv a (i2f 131072)
  let q4 := fdiv t1 (i2f 8192)
  let d2 := fsub q3 q4
  let sq := fmul d2 d2
  let var2 := fmul sq t3
  let fine := fadd var1 var2
  let celsius := fdiv fine (i2f 5120)
  (celsius, fine)

/-- Lines 1 to 3 of `comp_P` (R146): `v1` and `v2b`. -/
def compPLines1to3 (tf : F64) (c : Cal) : F64 × F64 :=
  let p4 := i2f (s16 c.p4)
  let p5 := i2f (s16 c.p5)
  let p6 := i2f (s16 c.p6)
  let h := fdiv tf (i2f 2)
  let v1 := fsub h (i2f 64000)
  let m1 := fmul v1 v1
  let m2 := fmul m1 p6
  let m3 := fdiv m2 (i2f 32768)
  let m4 := fmul v1 p5
  let m5 := fmul m4 (i2f 2)
  let v2 := fadd m3 m5
  let m6 := fdiv v2 (i2f 4)
  let m7 := fmul p4 (i2f 65536)
  let v2b := fadd m6 m7
  (v1, v2b)

/-- Line 4 of `comp_P` (R146): `v1b`. -/
def compPLine4 (v1 : F64) (c : Cal) : F64 :=
  let p2 := i2f (s16 c.p2)
  let p3 := i2f (s16 c.p3)
  let n1 := fmul p3 v1
  let n2 := fmul n1 v1
  let n3 := fdiv n2 (i2f 524288)
  let n4 := fmul p2 v1
  let n5 := fadd n3 n4
  fdiv n5 (i2f 524288)

/-- Line 5 of `comp_P` (R146): the divisor `v1c`. -/
def compPLine5 (v1b : F64) (c : Cal) : F64 :=
  let p1 := i2f (u16 c.p1)
  let r1 := fdiv v1b (i2f 32768)
  let r2 := fadd (i2f 1) r1
  fmul r2 p1

/-- Lines 6 to 10 of `comp_P` (R146): the pressure, from a divisor that is no zero. -/
def compPLines6to10 (adcP : Count) (v2b v1c : F64) (c : Cal) : F64 :=
  let p7 := i2f (s16 c.p7)
  let p8 := i2f (s16 c.p8)
  let p9 := i2f (s16 c.p9)
  let pa := fsub (i2f 1048576) (i2f adcP.toNat)
  let k1 := fdiv v2b (i2f 4096)
  let k2 := fsub pa k1
  let k3 := fmul k2 (i2f 6250)
  let p := fdiv k3 v1c
  let w1 := fmul p9 p
  let w2 := fmul w1 p
  let v1d := fdiv w2 (i2f 2147483648)
  let w3 := fmul p p8
  let v2c := fdiv w3 (i2f 32768)
  let s1 := fadd v1d v2c
  let s2 := fadd s1 p7
  let s3 := fdiv s2 (i2f 16)
  let s4 := fadd p s3
  fdiv s4 (i2f 100)

/-- `v1b` of `comp_P`, from the fine temperature. -/
def compPV1b (tf : F64) (c : Cal) : F64 := compPLine4 (compPLines1to3 tf c).1 c

/-- The divisor `v1c` of `comp_P`, as the guard of R147 sees it. -/
def compPDivisor (tf : F64) (c : Cal) : F64 := compPLine5 (compPV1b tf c) c

/-- `comp_P` (R146) with the guard of R147: `none` is `ArithmeticError`. -/
def compP (adcP : Count) (tf : F64) (c : Cal) : Option F64 :=
  if feq (compPDivisor tf c) (i2f 0) then none
  else some (compPLines6to10 adcP (compPLines1to3 tf c).2 (compPDivisor tf c) c)

/-- The temperature step of `CMPT` and `ACQ`, checks in the order of R142; `k` is what follows. -/
def tempStep (k : F64 → F64 → State → Micro) (s : State) : Micro :=
  match s.cal with
  | none => .raise .calibrationMissing s
  | some c =>
    match s.raw with
    | none => .raise .operandMissing s
    | some r =>
      let out := compT r.adcT c.t1 c.t2 c.t3
      k out.1 out.2 (commitTemp out.1 out.2 s)

/-- The pressure step of `CMPP` and `ACQ`, checks in the order of R145; `k` is what follows. -/
def pressStep (k : F64 → State → Micro) (s : State) : Micro :=
  match s.cal with
  | none => .raise .calibrationMissing s
  | some c =>
    match s.raw, s.tFine with
    | some r, some tf =>
      match compP r.adcP tf c with
      | none => .raise .arithmeticError (dropPress s)
      | some x => k x (commitPress x s)
    | _, _ => .raise .operandMissing s

/-- The micro-step of `CMPT` (R142; log entry 6). -/
def cmptSteps : List MicroStep :=
  [fun _ s => tempStep (fun tc tf s' => .respond (.temperature tc tf) s') s]

/-- `CMPT` (R142). -/
def execCmpt (s : State) : Host.Outcome State Fault Refusal :=
  .next (runCommand .cmpt cmptSteps s)

/-- The micro-step of `CMPP` (R145; log entry 6). -/
def cmppSteps : List MicroStep :=
  [fun _ s => pressStep (fun x s' => .respond (.pressure x) s') s]

/-- `CMPP` (R145). -/
def execCmpp (s : State) : Host.Outcome State Fault Refusal :=
  .next (runCommand .cmpp cmppSteps s)

end Sys2Proof.Machine
end

