-- ==== Sys2Proof/Machine/Sample.lean ====
section
/-! DEFINITION. The Raw Sample Reader: `RDRAW` (42_raw_sample_reader.md). -/

namespace Sys2Proof.Machine

/-- The burst: one `read_block` of 6 bytes at `ADDR_DATA_BASE` (R55, R130, R132). -/
def burstStep (p : Params) : MicroStep := fun _ s =>
  memRead p.dataBase 6 (fun bs s' => .next bs s') s

/-- Decode and commit of the raw sample (R130); `k` is what follows. The temporaries are always the six bytes
of the burst; any other list is in no reachable state (log entry 14). -/
def sampleStep (k : RawSample → State → Micro) : MicroStep := fun tmp s =>
  match sampleOfBytes tmp with
  | some r => k r (commitRaw r s)
  | none => .raise .transportError s

/-- The two micro-steps of `RDRAW` (R130). -/
def rdrawSteps (p : Params) : List MicroStep :=
  [burstStep p, sampleStep fun r s => .respond (.sample r.adcP r.adcT) s]

/-- `RDRAW` (R130). -/
def execRdraw (s : State) : Host.Outcome State Fault Refusal :=
  .next (runCommand .rdraw (rdrawSteps s.params) s)

end Sys2Proof.Machine
end

