-- ==== Sys2Proof/Machine/Acquire.lean ====
section
/-! DEFINITION. `ACQ`: the calibration check, the burst, and the steps of `RDRAW`, `CMPT`, `CMPP` composed
(44_acquire.md). -/

namespace Sys2Proof.Machine

/-- Micro-step 0 of `ACQ`: the calibration check, before any bus traffic (R160, R161). -/
def acqCheck : MicroStep := fun _ s =>
  match s.cal with
  | none => .raise .calibrationMissing s
  | some _ => .next [] s

/-- The end of `ACQ`: the payload is `(PRESS_HPA, TEMP_C)` (R160). `TEMP_C` was written by the micro-step
before, so the last line is in no reachable state (log entry 14). -/
def acqRespond (x : F64) (s : State) : Micro :=
  match s.tempC with
  | some tc => .respond (.reading x tc) s
  | none => .raise .operandMissing s

/-- The five micro-steps of `ACQ` (R160). -/
def acqSteps (p : Params) : List MicroStep :=
  [acqCheck, burstStep p, sampleStep fun _ s => .next [] s,
   fun _ s => tempStep (fun _ _ s' => .next [] s') s,
   fun _ s => pressStep acqRespond s]

/-- `ACQ` (R160). -/
def execAcq (s : State) : Host.Outcome State Fault Refusal :=
  .next (runCommand .acq (acqSteps s.params) s)

end Sys2Proof.Machine
end

