-- ==== Sys2Proof/Machine/Calibration.lean ====
section
/-! DEFINITION. The Calibration Store: `LDCAL` (40_calibration_load.md). -/

namespace Sys2Proof.Machine

/-- Micro-step `k` of `LDCAL`, `k` = 0 to 11: one 2-byte read at `ADDR_CAL_BASE + 2k` (R100, R102). -/
def ldcalRead (p : Params) (k : Nat) : MicroStep := fun tmp s =>
  memRead (p.calBase + BitVec.ofNat 8 (2 * k)) 2 (fun bs s' => .next (tmp ++ bs) s') s

/-- Micro-step 12 of `LDCAL`: all twelve registers at once (R100, R101). The temporaries are always the 24
bytes of the twelve reads; any other list is in no reachable state (log entry 14). -/
def ldcalCommit : MicroStep := fun tmp s =>
  match calOfBytes tmp with
  | some c => .respond (.coefficients c) (commitCal c s)
  | none => .raise .transportError s

/-- The thirteen micro-steps of `LDCAL` (R100, R102). -/
def ldcalSteps (p : Params) : List MicroStep :=
  [ldcalRead p 0, ldcalRead p 1, ldcalRead p 2, ldcalRead p 3, ldcalRead p 4, ldcalRead p 5,
   ldcalRead p 6, ldcalRead p 7, ldcalRead p 8, ldcalRead p 9, ldcalRead p 10, ldcalRead p 11,
   ldcalCommit]

/-- `LDCAL` (R100). -/
def execLdcal (s : State) : Host.Outcome State Fault Refusal :=
  .next (runCommand .ldcal (ldcalSteps s.params) s)

end Sys2Proof.Machine
end

