-- ==== Sys2Proof/Machine/Codec.lean ====
section
/-! DEFINITION. The Register Configuration Manager: `ENCCTL`, `ENCFLT`, `DECCTL`, `DECFLT`, `APCTL`, `APFLT`,
`CONFIG`, `RDCTL`, `RDFLT` (41_config_codec.md). -/

namespace Sys2Proof.Machine

/-! ### The pure encoder and decoder -/

/-- Respond with the settings of a control byte, or raise `ReservedCode` (R113). -/
def decodeCtrl (b : Byte) (s : State) : Micro :=
  match unpackCtrl s.params b with
  | (some ot, some op, some m) => .respond (.control ot op m) s
  | _ => .raise .reservedCode s

/-- Respond with the settings of a filter byte, or raise `ReservedCode` (R114). -/
def decodeCfg (b : Byte) (s : State) : Micro :=
  match unpackCfg s.params b with
  | (some sb, some f, some w) => .respond (.filter sb f w) s
  | _ => .raise .reservedCode s

/-- The micro-steps of `ENCCTL` (R111). -/
def encctlSteps (ot op : Osrs) (m : Mode) : List MicroStep :=
  [fun _ s => .respond (.byte (packCtrl s.params ot op m)) s]

/-- `ENCCTL ot, op, m` (R111). -/
def execEncctl (ot op : Osrs) (m : Mode) (s : State) : Host.Outcome State Fault Refusal :=
  .next (runCommand (.encctl ot op m) (encctlSteps ot op m) s)

/-- The micro-steps of `ENCFLT` (R112). -/
def encfltSteps (sb : Standby) (f : Filter) (w : Bool) : List MicroStep :=
  [fun _ s => .respond (.byte (packCfg s.params sb f w)) s]

/-- `ENCFLT sb, f, s` (R112). -/
def execEncflt (sb : Standby) (f : Filter) (w : Bool) (s : State) : Host.Outcome State Fault Refusal :=
  .next (runCommand (.encflt sb f w) (encfltSteps sb f w) s)

/-- The micro-steps of `DECCTL` (R113). -/
def decctlSteps (b : Byte) : List MicroStep := [fun _ s => decodeCtrl b s]

/-- `DECCTL b` (R113). -/
def execDecctl (b : Byte) (s : State) : Host.Outcome State Fault Refusal :=
  .next (runCommand (.decctl b) (decctlSteps b) s)

/-- The micro-steps of `DECFLT` (R114). -/
def decfltSteps (b : Byte) : List MicroStep := [fun _ s => decodeCfg b s]

/-- `DECFLT b` (R114). -/
def execDecflt (b : Byte) (s : State) : Host.Outcome State Fault Refusal :=
  .next (runCommand (.decflt b) (decfltSteps b) s)

/-! ### The verified writes -/

/-- `WriteVerify(addr, b)` (R118): the write, then the read-back with the comparison of all eight bits, two
micro-steps; `k` is what follows when the bytes are equal. -/
def writeVerify (a : Addr) (b : Byte) (k : State → Micro) : List MicroStep :=
  [fun _ s => memWrite a b (fun s' => .next [] s') s,
   fun _ s => memReadByte a (fun r s' => if r = b then k s' else .raise .verificationFailed s') s]

/-- The micro-steps of `APCTL` (R115). -/
def apctlSteps (p : Params) (ot op : Osrs) (m : Mode) : List MicroStep :=
  writeVerify p.ctrlAddr (packCtrl p ot op m) (fun s => .respond .none s)

/-- `APCTL ot, op, m` (R115). -/
def execApctl (ot op : Osrs) (m : Mode) (s : State) : Host.Outcome State Fault Refusal :=
  .next (runCommand (.apctl ot op m) (apctlSteps s.params ot op m) s)

/-- The micro-steps of `APFLT` (R116). -/
def apfltSteps (p : Params) (sb : Standby) (f : Filter) (w : Bool) : List MicroStep :=
  writeVerify p.configAddr (packCfg p sb f w) (fun s => .respond .none s)

/-- `APFLT sb, f, s` (R116). -/
def execApflt (sb : Standby) (f : Filter) (w : Bool) (s : State) : Host.Outcome State Fault Refusal :=
  .next (runCommand (.apflt sb f w) (apfltSteps s.params sb f w) s)

/-- The micro-steps of `CONFIG`: both verified writes, in `CONFIGURE_ORDER` (R117). -/
def configSteps (p : Params) (ot op : Osrs) (m : Mode) (sb : Standby) (f : Filter) (w : Bool) :
    List MicroStep :=
  match p.order with
  | .controlFirst =>
    writeVerify p.ctrlAddr (packCtrl p ot op m) (fun s => .next [] s) ++
    writeVerify p.configAddr (packCfg p sb f w) (fun s => .respond .none s)
  | .filterFirst =>
    writeVerify p.configAddr (packCfg p sb f w) (fun s => .next [] s) ++
    writeVerify p.ctrlAddr (packCtrl p ot op m) (fun s => .respond .none s)

/-- `CONFIG ot, op, m, sb, f, s` (R117). -/
def execConfig (ot op : Osrs) (m : Mode) (sb : Standby) (f : Filter) (w : Bool) (s : State) :
    Host.Outcome State Fault Refusal :=
  .next (runCommand (.config ot op m sb f w) (configSteps s.params ot op m sb f w) s)

/-! ### The decoded reads -/

/-- The micro-steps of `RDCTL`: the read, then the decoding (R119; log entry 6). -/
def rdctlSteps (p : Params) : List MicroStep :=
  [fun _ s => memReadByte p.ctrlAddr (fun b s' => .next [b] s') s,
   fun tmp s =>
    match tmp with
    | [b] => decodeCtrl b s
    | _ => .raise .transportError s]

/-- `RDCTL` (R119). -/
def execRdctl (s : State) : Host.Outcome State Fault Refusal :=
  .next (runCommand .rdctl (rdctlSteps s.params) s)

/-- The micro-steps of `RDFLT`: the read, then the decoding (R120; log entry 6). -/
def rdfltSteps (p : Params) : List MicroStep :=
  [fun _ s => memReadByte p.configAddr (fun b s' => .next [b] s') s,
   fun tmp s =>
    match tmp with
    | [b] => decodeCfg b s
    | _ => .raise .transportError s]

/-- `RDFLT` (R120). -/
def execRdflt (s : State) : Host.Outcome State Fault Refusal :=
  .next (runCommand .rdflt (rdfltSteps s.params) s)

end Sys2Proof.Machine
end

