-- ==== Sys2Proof/Machine/Dispatch.lean ====
section
/-! DEFINITION. One arm per command (R85): a whole command, from the idle block to its response. -/

namespace Sys2Proof.Machine

def exec (i : Instr) (s : State) : Host.Outcome State Fault Refusal :=
  match i with
  | .ldcal => Sys2Proof.Machine.execLdcal s
  | .apctl ot op m => Sys2Proof.Machine.execApctl ot op m s
  | .apflt sb f w => Sys2Proof.Machine.execApflt sb f w s
  | .config ot op m sb f w => Sys2Proof.Machine.execConfig ot op m sb f w s
  | .rdraw => Sys2Proof.Machine.execRdraw s
  | .cmpt => Sys2Proof.Machine.execCmpt s
  | .cmpp => Sys2Proof.Machine.execCmpp s
  | .acq => Sys2Proof.Machine.execAcq s
  | .encctl ot op m => Sys2Proof.Machine.execEncctl ot op m s
  | .encflt sb f w => Sys2Proof.Machine.execEncflt sb f w s
  | .decctl b => Sys2Proof.Machine.execDecctl b s
  | .decflt b => Sys2Proof.Machine.execDecflt b s
  | .rdctl => Sys2Proof.Machine.execRdctl s
  | .rdflt => Sys2Proof.Machine.execRdflt s

end Sys2Proof.Machine
end

