-- ==== Sys2Proof/Machine/HostPort.lean ====
section
/-! DEFINITION. What a step does: the micro-steps of a busy block (R30), the events an idle block takes from
outside (R32, R186, R189, R200), illegal words (R89). Machine/Step.lean only chooses between the two. -/

namespace Sys2Proof.Machine

/-- The list of micro-steps of each command (R30: "the list the command's rule gives"). -/
def microSteps (p : Params) : Instr → List MicroStep
  | .ldcal => ldcalSteps p
  | .apctl ot op m => apctlSteps p ot op m
  | .apflt sb f w => apfltSteps p sb f w
  | .config ot op m sb f w => configSteps p ot op m sb f w
  | .rdraw => rdrawSteps p
  | .cmpt => cmptSteps
  | .cmpp => cmppSteps
  | .acq => acqSteps p
  | .encctl ot op m => encctlSteps ot op m
  | .encflt sb f w => encfltSteps sb f w
  | .decctl b => decctlSteps b
  | .decflt b => decfltSteps b
  | .rdctl => rdctlSteps p
  | .rdflt => rdfltSteps p

/-- One micro-step of a busy block (R30); `none` where the sequencer names none (an idle block, or an index
past the command's list). -/
def microStep (s : State) : Option State :=
  match s.seq with
  | .idle => none
  | .busy cmd i tmp =>
    match (microSteps s.params cmd)[i]? with
    | some m => some (settle cmd i (m tmp s))
    | none => none

/-- A micro-step as a step of the machine (log entry 14). -/
def microOutcome (s : State) : Host.Outcome State Fault Refusal :=
  match microStep s with
  | some t => .next t
  | none => .fault .noMicroStep

/-- A step of a busy block: the reset event (R201) or a change of the sensor comes between two micro-steps;
otherwise the next micro-step runs. A word or a register read of the host waits: while the block is busy the
port accepts no word and the host does not read (R32, R186). -/
def busyStep (s : State) : Host.Outcome State Fault Refusal :=
  match s.events with
  | .reset :: es => .next (resetEvent { s with events := es })
  | .sensor a v :: es => .next (sensorChange a v { s with events := es })
  | .tick :: es => microOutcome { s with events := es }
  | _ => microOutcome s

/-- A word the host issues and waits for: a legal one runs as its command, an illegal one ends
`IllegalCommand` and does nothing else (R89, R177). -/
def runWord (w : Word) (s : State) : Host.Outcome State Fault Refusal :=
  match decode w with
  | .ok i => exec i s
  | .error _ => .next (raiseError .illegalCommand s)

/-- A word the host issues, its micro-steps to follow one by one; an illegal one ends at once (R30, R89). -/
def issueWord (w : Word) (s : State) : State :=
  match decode w with
  | .ok i => accept i s
  | .error _ => raiseError .illegalCommand s

/-- A step of an idle block: the next event from outside; without one, the block stays as it is. -/
def idleStep (s : State) : Host.Outcome State Fault Refusal :=
  match s.events with
  | [] => .next s
  | .command w :: es => runWord w { s with events := es }
  | .issue w :: es => .next (issueWord w { s with events := es })
  | .tick :: es => .next { s with events := es }
  | .read r :: es => .next (hostRead r { s with events := es })
  | .reset :: es => .next (resetEvent { s with events := es })
  | .sensor a v :: es => .next (sensorChange a v { s with events := es })

end Sys2Proof.Machine
end

