-- ==== Sys2Proof/Machine/Step.lean ====
section
/-! DEFINITION. The step, and a state whose next step runs a given command word. -/

namespace Sys2Proof.Machine

/-- One step: a busy block takes a micro-step, an idle block the next event from outside. -/
def step (s : State) : Host.Outcome State Fault Refusal :=
  match s.seq with
  | .busy _ _ _ => busyStep s
  | .idle => idleStep s

/-- `s` with the host about to issue the word whose low `nbits` bits are those of `w` to an idle block: the
next step runs exactly that command (R186; log entry 8). -/
def State.withFetchWord (s : State) (nbits w : Nat) : State :=
  { s with seq := .idle, events := .command (BitVec.ofNat 24 (w % 2 ^ nbits)) :: s.events }

end Sys2Proof.Machine
end

