-- ==== Sys2Proof/Safety.lean ====
section
/-! DEFINITION. The words the statements use: the invariant of R33, what a run may stop on, and the spec's own
tables, written from its text (R18, R54, R89, R179). -/

namespace Sys2Proof.Machine

/-! ### The invariant -/

/-- A finite binary64 of magnitude at most `2^n`. -/
abbrev magAtMost (x : F64) (n : Nat) : Prop := isFinite x = true ∧ fMag x ≤ 2 ^ n * unitsPerOne

/-- R33: where the flags are 1, those of the inputs are 1. -/
abbrev ChainOk (s : State) : Prop :=
  (fineValid s = true → tempValid s = true ∧ rawValid s = true ∧ calValid s = true) ∧
  (tempValid s = true → fineValid s = true) ∧
  (pressValid s = true → fineValid s = true)

/-- R33: no register ever holds a NaN or an infinity, and `|T_FINE| <= 2^22`. -/
abbrev FloatsOk (s : State) : Prop :=
  (∀ x ∈ s.tFine, magAtMost x 22) ∧ (∀ x ∈ s.tempC, isFinite x = true) ∧ (∀ x ∈ s.press, isFinite x = true)

/-- How many bytes a command has read before micro-step `i`: `raw` of R100, `B` of R130 and R160, `r` of R119
and R120. -/
def tmpLength : Instr → Nat → Nat
  | .ldcal, i => 2 * i
  | .rdraw, i => if i = 1 then 6 else 0
  | .acq, i => if i = 2 then 6 else 0
  | .rdctl, i => if i = 1 then 1 else 0
  | .rdflt, i => if i = 1 then 1 else 0
  | _, _ => 0

/-- R30: a busy sequencer names a micro-step of its command, with the bytes read so far. -/
def SeqOk (s : State) : Prop :=
  match s.seq with
  | .idle => True
  | .busy cmd i tmp => i < (microSteps s.params cmd).length ∧ tmp.length = tmpLength cmd i

/-- R33, of the registers: the chain of the flags, no NaN and no infinity, the bound of `T_FINE`. -/
structure RegistersOk (s : State) : Prop where
  chain  : ChainOk s
  floats : FloatsOk s

/-- The machine around the registers: the sequencer of R30, codes 8 to 15 of `STATUS` never produced (R170), the
canonical form of the device register space (the model's own, log entry 3). -/
structure MachineOk (s : State) : Prop where
  seq    : SeqOk s
  status : s.status.toNat ≤ 7
  device : s.device.wf = true

/-- The host's next move is the one that R32 makes a fault of the host's: reading a register that holds no value,
while the block is idle. -/
def ReadsNoValue (s : State) : Prop :=
  s.seq = .idle ∧ ∃ r es, s.events = .read r :: es ∧ regBits s r = none

/-! ### The spec's tables -/

/-- R89, from the words of R80 to R86: the opcode is one of the map of R85, every bit its format does not
assign is 0, and every ordinal is in its legal range. -/
def LegalWord (w : Word) : Prop :=
  let op := w.toNat / 65536
  let arg := w.toNat % 65536
  (op ∈ [0x01, 0x05, 0x06, 0x07, 0x08, 0x0D, 0x0E] ∧ arg = 0) ∨
  (op ∈ [0x02, 0x09] ∧ arg / 256 = 0 ∧ arg / 32 % 8 ≤ 5 ∧ arg / 4 % 8 ≤ 5 ∧ arg % 4 ≤ 2) ∨
  (op ∈ [0x03, 0x0A] ∧ arg / 256 = 0 ∧ arg / 2 % 2 = 0 ∧ arg / 4 % 8 ≤ 4) ∨
  (op = 0x04 ∧ arg / 32768 = 0 ∧ arg / 4096 % 8 ≤ 5 ∧ arg / 512 % 8 ≤ 5 ∧ arg / 128 % 4 ≤ 2 ∧
    arg / 2 % 8 ≤ 4) ∨
  (op ∈ [0x0B, 0x0C] ∧ arg / 256 = 0)

/-- R179: the statuses a command can end with. -/
def statusesOf : Instr → List (BitVec 4)
  | .ldcal => [0, 1]
  | .apctl _ _ _ => [0, 1, 2]
  | .apflt _ _ _ => [0, 1, 2]
  | .config _ _ _ _ _ _ => [0, 1, 2]
  | .rdraw => [0, 1]
  | .cmpt => [0, 4, 5]
  | .cmpp => [0, 3, 4, 5]
  | .acq => [0, 1, 3, 4]
  | .encctl _ _ _ => [0]
  | .encflt _ _ _ => [0]
  | .decctl _ => [0, 7]
  | .decflt _ => [0, 7]
  | .rdctl => [0, 1, 7]
  | .rdflt => [0, 1, 7]

/-- R54: the transport requests of a command, in order. -/
def requestsOf (p : Params) : Instr → List Request
  | .ldcal => (List.range 12).map fun k => .readBlock (p.calBase + BitVec.ofNat 8 (2 * k)) 2
  | .apctl ot op m => [.writeByte p.ctrlAddr (packCtrl p ot op m), .readByte p.ctrlAddr]
  | .apflt sb f w => [.writeByte p.configAddr (packCfg p sb f w), .readByte p.configAddr]
  | .config ot op m sb f w =>
    let control : List Request := [.writeByte p.ctrlAddr (packCtrl p ot op m), .readByte p.ctrlAddr]
    let filter : List Request := [.writeByte p.configAddr (packCfg p sb f w), .readByte p.configAddr]
    match p.order with
    | .controlFirst => control ++ filter
    | .filterFirst => filter ++ control
  | .rdraw => [.readBlock p.dataBase 6]
  | .acq => [.readBlock p.dataBase 6]
  | .rdctl => [.readByte p.ctrlAddr]
  | .rdflt => [.readByte p.configAddr]
  | .cmpt => []
  | .cmpp => []
  | .encctl _ _ _ => []
  | .encflt _ _ _ => []
  | .decctl _ => []
  | .decflt _ => []

/-- The device address a command writes, if any (R27, R54). -/
def writesAddr (p : Params) (i : Instr) (a : Nat) : Prop :=
  ∃ r ∈ requestsOf p i, ∃ ad v, r = .writeByte ad v ∧ ad.toNat = a

/-- The five flags of R18, in the order of its table: `CAL`, `RAW`, `FINE`, `TEMP`, `PRESS`. -/
def flags (s : State) : List Bool := [calValid s, rawValid s, fineValid s, tempValid s, pressValid s]

/-- R18: the flags after a command, by the status it ended with and the flags before. -/
def flagsAfter (i : Instr) (status : BitVec 4) (s : State) : List Bool :=
  match i, status.toNat with
  | .ldcal, 0 => [true, rawValid s, false, false, false]
  | .rdraw, 0 => [calValid s, true, false, false, false]
  | .cmpt, 0 => [calValid s, rawValid s, true, true, false]
  | .cmpp, 0 => [calValid s, rawValid s, fineValid s, tempValid s, true]
  | .cmpp, 3 => [calValid s, rawValid s, fineValid s, tempValid s, false]
  | .acq, 0 => [calValid s, true, true, true, true]
  | .acq, 3 => [calValid s, true, true, true, false]
  | _, _ => flags s

/-! ### Correct rounding -/

/-- `r` is the exact magnitude `num / den` units, rounded to binary64 with roundTiesToEven (R141): among all finite
numbers none is nearer, and of two equally near ones `r` is the one whose last fraction bit is 0. From half a
unit above the largest finite number on, the result is an infinity. -/
def CorrectlyRounded (num den : Nat) (r : F64) : Prop :=
  if num < (2 ^ 54 - 1) * 2 ^ 2044 * den then
    isFinite r = true ∧
    ∀ q : F64, isFinite q = true →
      |(fMag r * den : Int) - num| ≤ |(fMag q * den : Int) - num| ∧
      (|(fMag r * den : Int) - num| = |(fMag q * den : Int) - num| → fMag q ≠ fMag r → fFrac r % 2 = 0)
  else isInf r = true

/-- `r` is the IEEE 754 sum of two finite numbers (R141): rounded once, with the sign of the exact sum; a sum of zero
is `+0.0` unless both are negative (log entry 18). -/
def IsSum (a b r : F64) : Prop :=
  let x := fUnits a + fUnits b
  CorrectlyRounded x.natAbs 1 r ∧ fSign r = if x = 0 then fSign a && fSign b else decide (x < 0)

/-- `r` is the IEEE 754 difference of two finite numbers (R141); a difference of zero is `+0.0` unless it is
`-0.0 - +0.0`. -/
def IsDifference (a b r : F64) : Prop :=
  let x := fUnits a - fUnits b
  CorrectlyRounded x.natAbs 1 r ∧ fSign r = if x = 0 then fSign a && !fSign b else decide (x < 0)

/-- `r` is the IEEE 754 product of two finite numbers (R141); the sign is that of the operands' signs, also of a zero. -/
def IsProduct (a b r : F64) : Prop :=
  CorrectlyRounded (fMag a * fMag b) unitsPerOne r ∧ fSign r = (fSign a != fSign b)

/-- `r` is the IEEE 754 quotient of a finite number by a finite number that is no zero (R141). -/
def IsQuotient (a b r : F64) : Prop :=
  CorrectlyRounded (fMag a * unitsPerOne) (fMag b) r ∧ fSign r = (fSign a != fSign b)

end Sys2Proof.Machine
end

