-- ==== Sys2Proof/Certificates/Slice0/Obligations.lean ====
section
/-! DEFINITION. The statements about the block, for the provers. Each docstring names the rule of spec/ it
formalises, or says what of the model it is about. Where one gives a whole next state, or says that a device byte
reads as before, that a read changes nothing of the device image is the model's choice: log entry 25. -/

open Sys2Proof Sys2Proof.Machine

/-! ### Encoding -/

/-- R80 to R87: the decoder reads back every command from its word, with every operand. -/
def Obligations.DecodeInvertsEncode : Prop :=
  ∀ i : Instr, i.wf = true → decode (encode i) = .ok i

/-- R90: all commands have one length and one decoding. A legal word is the encoding of the command it decodes
to, so no bit of it is ignored. -/
def Obligations.LegalWordIsTheEncodingOfItsCommand : Prop :=
  ∀ (w : Word) (i : Instr), decode w = .ok i → encode i = w

/-- R89: a word is illegal exactly when its opcode is reserved, a bit its format requires to be 0 is 1, or an
ordinal is out of range. -/
def Obligations.DecoderAcceptsExactlyTheLegalWords : Prop :=
  ∀ w : Word, (∃ i, decode w = .ok i) ↔ LegalWord w

/-- Sanity: words written out from the encodings of R80 to R87 decode to the commands they stand for (the
examples of R111 to R117). -/
def Obligations.WordsOfTheSpecDecode : Prop :=
  decode 0x010000 = .ok .ldcal ∧
  decode 0x020056 = .ok (.apctl .x2 .x16 .normal) ∧
  decode 0x030090 = .ok (.apflt .sb4 .c16 false) ∧
  decode 0x042B48 = .ok (.config .x2 .x16 .normal .sb4 .c16 false) ∧
  decode 0x080000 = .ok .acq ∧
  decode 0x0A002D = .ok (.encflt .sb1 .c8 true) ∧
  decode 0x0B0057 = .ok (.decctl 0x57) ∧
  decode 0x0E0000 = .ok .rdflt ∧
  decode 0x000000 = .error .reservedOpcode ∧
  decode 0x0F0000 = .error .reservedOpcode

/-! ### Steps -/

/-- When the block is idle and the host's next move is a word that decodes to `i`, the step is `exec` of `i`
with the word taken from the host's list; where the host issues the word to see its micro-steps, the step is
`Idle -> Busy(i, 0)` of R30 (the two ways are the model's, log entry 7). -/
def Obligations.StepRunsTheDecodedCommand : Prop :=
  ∀ (s : State) (w : Word) (i : Instr) (es : List Event), s.seq = .idle → decode w = .ok i →
    (s.events = .command w :: es → step s = exec i { s with events := es }) ∧
    (s.events = .issue w :: es → step s = .next { s with events := es, seq := .busy i 0 [] })

/-- R89, R177: a word that is not legal is accepted like any other, changes no register but `STATUS`, issues no
transport request, and ends with `IllegalCommand` and an empty payload. That it ends within the very step that
takes it, in both ways of issuing a word, is the model's: log entries 17 and 7. -/
def Obligations.IllegalWordChangesOnlyStatus : Prop :=
  ∀ (s : State) (w : Word) (es : List Event),
    s.seq = .idle → ¬ LegalWord w → (s.events = .command w :: es ∨ s.events = .issue w :: es) →
    step s = .next { s with
      events := es
      status := 6
      outputs := .response 6 .none :: s.outputs }

/-- R30, R186: in `Busy(cmd, i)` the step is micro-step `i` of the command, whether the outside world does nothing,
lets one step pass, or the host has a word or a register read ready. That these then wait in its list is the
model's: log entry 13. -/
def Obligations.BusyStepIsOneMicroStep : Prop :=
  ∀ (s : State) (cmd : Instr) (i : Nat) (tmp : List Byte) (m : MicroStep) (w : Word) (r : BlockReg)
    (es : List Event),
    s.seq = .busy cmd i tmp → (microSteps s.params cmd)[i]? = some m →
    (s.events = [] ∨ s.events = .command w :: es ∨ s.events = .issue w :: es ∨ s.events = .read r :: es →
      step s = .next (settle cmd i (m tmp s))) ∧
    (s.events = .tick :: es → step s = .next (settle cmd i (m tmp { s with events := es })))

/-- R30: a command issued in `Idle` is the sequence of its micro-steps: from `Busy(cmd, 0)` there is a
number `n` of micro-steps, at least one and at most 13, after which the block is idle for the first time, in
exactly the state `exec` answers; before that, after `k` micro-steps, the sequencer is `Busy(cmd, k)`. The bound is
R221, which the spec derives; whole commands beside micro-steps, and where the rules number no micro-steps their
number, are the model's: log entries 7 and 6. -/
def Obligations.CommandIsItsSequenceOfMicroSteps : Prop :=
  ∀ (i : Instr) (s : State), s.seq = .idle →
    ∃ (n : Nat) (run : Nat → State),
      1 ≤ n ∧ n ≤ 13 ∧ run 0 = accept i s ∧
      (∀ k < n, microStep (run k) = some (run (k + 1)) ∧ ∃ tmp, (run k).seq = .busy i k tmp) ∧
      (run n).seq = .idle ∧ exec i s = .next (run n)

/-- While the block is busy a command has no effect and no response (R186). R186 gives a model no such step of the
host; that `exec` answers it with the unchanged state is the model's choice: log entry 24. -/
def Obligations.BusyBlockAcceptsNoCommand : Prop :=
  ∀ (i : Instr) (s : State) (cmd : Instr) (k : Nat) (tmp : List Byte),
    s.seq = .busy cmd k tmp → exec i s = .next s

/-- R88, R170, R176: every command an idle block takes ends: the block is idle again, exactly one response
is added to the outputs, its status is in `STATUS`, its payload is empty unless the status is `OK`, and at most
12 requests were made. That every command ends is R221, which the spec derives from R47; it rests on the
assumption that the transport answers every request (D17): log entry 12. -/
def Obligations.EveryCommandEndsWithOneResponse : Prop :=
  ∀ (i : Instr) (s : State), s.seq = .idle →
    ∃ t, exec i s = .next t ∧ t.seq = .idle ∧
      (∃ p, t.outputs = .response t.status p :: s.outputs ∧ (t.status ≠ 0 → p = .none)) ∧
      s.draws ≤ t.draws ∧ t.draws ≤ s.draws + 12

/-- R179 (which the spec derives from the command rules): which status each command can end with, complete: no other one, and every listed one in some state
for some operands of the same opcode. -/
def Obligations.StatusTableIsComplete : Prop :=
  ∀ i : Instr,
    (∀ (s t : State), s.seq = .idle → exec i s = .next t → t.status ∈ statusesOf i) ∧
    (∀ c ∈ statusesOf i, ∃ (j : Instr) (s t : State),
      j.opcode = i.opcode ∧ s.seq = .idle ∧ exec j s = .next t ∧ t.status = c)

/-- R54, R58: the requests of a command are a prefix of the list of R54, in its order, each recorded once in
the bus trace; all of the list where the command ends `OK`. -/
def Obligations.RequestsFollowTheTable : Prop :=
  ∀ (i : Instr) (s t : State), s.seq = .idle → exec i s = .next t →
    ∃ es : List BusEntry,
      t.trace = es.reverse ++ s.trace ∧
      t.draws = s.draws + es.length ∧
      es.map (·.request) <+: requestsOf s.params i ∧
      (t.status = 0 → es.map (·.request) = requestsOf s.params i)

/-- R220 (which the spec derives from R54): the number of transport requests per command, when it ends `OK` and when it ends with an error. -/
def Obligations.RequestCounts : Prop :=
  ∀ (i : Instr) (s t : State), s.seq = .idle → exec i s = .next t →
    let n := t.draws - s.draws
    match i with
    | .ldcal => if t.status = 0 then n = 12 else 1 ≤ n ∧ n ≤ 12
    | .apctl _ _ _ => if t.status = 0 then n = 2 else n = 1 ∨ n = 2
    | .apflt _ _ _ => if t.status = 0 then n = 2 else n = 1 ∨ n = 2
    | .config _ _ _ _ _ _ => if t.status = 0 then n = 4 else 1 ≤ n ∧ n ≤ 4
    | .rdraw => n = 1
    | .acq => if t.status = 0 then n = 1 else if t.status = 4 then n = 0 else n = 1
    | .rdctl => n = 1
    | .rdflt => n = 1
    | _ => n = 0

/-- R44, R45, R46: the three transport primitives. `Err` raises `TransportError`; so does a block read whose list
has another length; else the micro-step goes on, with the bytes answered, or with those the device holds from the
address upwards, in ascending order. Each request is recorded in the bus trace (R64). The model's choices: what the
device image holds after a write answered `ok` or `err` (log entry 2), and that a read leaves it as it was (log entry
25). -/
def Obligations.TransportPrimitivesDeliverOrRaise : Prop :=
  ∀ (s : State) (a : Addr) (v : Byte) (n : Nat) (x : Answer) (rest : List Answer) (kRead : List Byte → State → Micro)
    (kByte : Byte → State → Micro) (kWrite : State → Micro), s.answers = x :: rest →
    let after (q : Request) (reply : Reply) (m : Memory) : State := { s with
      device := m, answers := rest, draws := s.draws + 1, trace := { request := q, reply := reply } :: s.trace }
    let block : Request := .readBlock a n
    let byte : Request := .readByte a
    let write : Request := .writeByte a v
    (∀ l, x = .err l →
      memRead a n kRead s = .raise .transportError (after block .err s.device) ∧
      memReadByte a kByte s = .raise .transportError (after byte .err s.device) ∧
      memWrite a v kWrite s =
        .raise .transportError (after write .err (if l then s.device.store a.toNat v else s.device))) ∧
    (∀ bs, x = .ok bs →
      (bs.length = n → memRead a n kRead s = kRead bs (after block (.ok bs) s.device)) ∧
      (bs.length ≠ n → memRead a n kRead s = .raise .transportError (after block (.ok bs) s.device)) ∧
      (∀ b, bs = [b] → memReadByte a kByte s = kByte b (after byte (.ok [b]) s.device)) ∧
      memWrite a v kWrite s = kWrite (after write (.ok []) s.device)) ∧
    (x = .device →
      (∀ bs : Fin n → Byte, (∀ i : Fin n, s.device.byteAt (a.toNat + i) = some (bs i)) →
        memRead a n kRead s = kRead (List.ofFn bs) (after block (.ok (List.ofFn bs)) s.device)) ∧
      (∀ b, s.device.byteAt a.toNat = some b →
        memReadByte a kByte s = kByte b (after byte (.ok [b]) s.device)) ∧
      memWrite a v kWrite s = kWrite (after write (.ok []) (s.device.store a.toNat v)))

/-! ### Frames and flags -/

/-- R27 (which the spec derives from the command rules): what a command leaves unchanged. The parameters and the host's list always; `CAL` but for `LDCAL`; the
raw sample but for `RDRAW`, `ACQ`; the fine temperature and the temperature but for `CMPT`, `ACQ` and for `LDCAL`,
`RDRAW`, which only clear their flags (R18); the pressure but for `CMPP`, `ACQ` and for `LDCAL`, `RDRAW`, `CMPT`,
which only clear its flag. -/
def Obligations.CommandsWriteOnlyTheirRegisters : Prop :=
  ∀ (i : Instr) (s t : State), s.seq = .idle → exec i s = .next t →
    t.params = s.params ∧ t.events = s.events ∧
    (i ≠ .ldcal → t.cal = s.cal) ∧
    (i ≠ .rdraw → i ≠ .acq → t.raw = s.raw) ∧
    (i ≠ .cmpt → i ≠ .acq →
      (t.tFine = s.tFine ∨ t.tFine = none ∧ (i = .ldcal ∨ i = .rdraw)) ∧
      (t.tempC = s.tempC ∨ t.tempC = none ∧ (i = .ldcal ∨ i = .rdraw))) ∧
    (i ≠ .cmpp → i ≠ .acq →
      (t.press = s.press ∨ t.press = none ∧ (i = .ldcal ∨ i = .rdraw ∨ i = .cmpt)))

/-- Every byte of the device register space reads as before, except the addresses the command's own writes
of R54 name; a command that writes none leaves all of it as it was. The spec leaves open whether a read of the
device has a side effect (R53, A6); that it has none on the image is the model's choice: log entry 25. -/
def Obligations.CommandsStoreOnlyWhereTheyWrite : Prop :=
  ∀ (i : Instr) (s t : State), s.seq = .idle → exec i s = .next t →
    ∀ a : Nat, ¬ writesAddr s.params i a → t.device.byteAt a = s.device.byteAt a

/-- R19: no command reads `STATUS`, and every command overwrites it. -/
def Obligations.NoCommandReadsStatus : Prop :=
  ∀ (i : Instr) (s : State) (c : BitVec 4), s.seq = .idle → exec i { s with status := c } = exec i s

/-- R18: the flags after every command and outcome, after reset, and what needs which flag. -/
def Obligations.FlagTable : Prop :=
  (∀ (i : Instr) (s t : State), s.seq = .idle → exec i s = .next t →
    flags t = flagsAfter i t.status s ∧
    (i = .cmpt → (t.status = 4 ↔ calValid s = false) ∧
      (t.status = 5 ↔ calValid s = true ∧ rawValid s = false)) ∧
    (i = .cmpp → (t.status = 4 ↔ calValid s = false) ∧
      (t.status = 5 ↔ calValid s = true ∧ (rawValid s = false ∨ fineValid s = false))) ∧
    (i = .acq → (t.status = 4 ↔ calValid s = false) ∧ (t.status = 4 → t.trace = s.trace))) ∧
  (∀ s : State, flags (resetEvent s) = [false, false, false, false, false]) ∧
  flags State.reset = [false, false, false, false, false]

/-! ### The encoder, the decoder and the control registers -/

/-- R111: `ENCCTL` answers the packed control byte, 3 + 3 + 2 bits with `osrs_t` on top, and changes nothing
but `STATUS`. -/
def Obligations.EncctlAnswersThePackedByte : Prop :=
  ∀ (s : State) (ot op : Osrs) (m : Mode), s.seq = .idle →
    (encode (.encctl ot op m)).extractLsb' 16 8 = 0x09 ∧
    ∃ b : Byte,
      exec (.encctl ot op m) s = .next { s with status := 0, outputs := .response 0 (.byte b) :: s.outputs } ∧
      b.toNat = (codeOsrs s.params ot).toNat * 32 + (codeOsrs s.params op).toNat * 4 +
        (codeMode s.params m).toNat

/-- R112: `ENCFLT` answers the packed filter byte; its bit 1 is 0. -/
def Obligations.EncfltAnswersThePackedByte : Prop :=
  ∀ (s : State) (sb : Standby) (f : Filter) (w : Bool), s.seq = .idle →
    (encode (.encflt sb f w)).extractLsb' 16 8 = 0x0A ∧
    ∃ b : Byte,
      exec (.encflt sb f w) s = .next { s with status := 0, outputs := .response 0 (.byte b) :: s.outputs } ∧
      b.toNat = (codeTsb s.params sb).toNat * 32 + (codeFilter s.params f).toNat * 4 + w.toNat ∧
      b.getLsbD 1 = false

/-- R113, R79: `DECCTL` answers the three members whose codes the fields hold, and ends `ReservedCode` where a
field holds the code of no member; injective code tables as R110 requires. -/
def Obligations.DecctlAnswersTheMembersOrReservedCode : Prop :=
  ∀ (s : State) (b : Byte), s.seq = .idle → s.params.codesWf = true →
    encode (.decctl b) = 0x0B#8 ++ 0#8 ++ b ∧
    (∀ ot op m, (codeOsrs s.params ot).toNat = b.toNat / 32 → (codeOsrs s.params op).toNat = b.toNat / 4 % 8 →
      (codeMode s.params m).toNat = b.toNat % 4 →
      exec (.decctl b) s =
        .next { s with status := 0, outputs := .response 0 (.control ot op m) :: s.outputs }) ∧
    ((∀ ot, (codeOsrs s.params ot).toNat ≠ b.toNat / 32) ∨ (∀ op, (codeOsrs s.params op).toNat ≠ b.toNat / 4 % 8) ∨
      (∀ m, (codeMode s.params m).toNat ≠ b.toNat % 4) →
      exec (.decctl b) s = .next { s with status := 7, outputs := .response 7 .none :: s.outputs })

/-- R114, R79: `DECFLT` answers the members whose codes the fields hold, and ends `ReservedCode` where `filter` or
`spi3w` holds the code of no member. (An injective `CODE_TSB` uses all eight codes, so `t_sb` has no reserved one.) -/
def Obligations.DecfltAnswersTheMembersOrReservedCode : Prop :=
  ∀ (s : State) (b : Byte), s.seq = .idle → s.params.codesWf = true →
    encode (.decflt b) = 0x0C#8 ++ 0#8 ++ b ∧
    (∀ sb f w, (codeTsb s.params sb).toNat = b.toNat / 32 → (codeFilter s.params f).toNat = b.toNat / 4 % 8 →
      (codeSpi3w w).toNat = b.toNat % 4 →
      exec (.decflt b) s =
        .next { s with status := 0, outputs := .response 0 (.filter sb f w) :: s.outputs }) ∧
    ((∀ f, (codeFilter s.params f).toNat ≠ b.toNat / 4 % 8) ∨ 2 ≤ b.toNat % 4 →
      exec (.decflt b) s = .next { s with status := 7, outputs := .response 7 .none :: s.outputs })

/-- R121: the round-trip laws of the codec, both directions, for injective code tables (R110). -/
def Obligations.CodecRoundTrips : Prop :=
  ∀ p : Params, p.codesWf = true →
    (∀ ot op m, unpackCtrl p (packCtrl p ot op m) = (some ot, some op, some m)) ∧
    (∀ sb f w, unpackCfg p (packCfg p sb f w) = (some sb, some f, some w)) ∧
    (∀ b ot op m, unpackCtrl p b = (some ot, some op, some m) → packCtrl p ot op m = b) ∧
    (∀ b sb f w, unpackCfg p b = (some sb, some f, some w) → packCfg p sb f w = b)

/-- R115, R118: `APCTL` writes the packed byte, then reads the register back. It ends `OK` if the byte read is
the byte written, `VerificationFailed` if it is another, `TransportError` if the read or the write fails; after a
failed write the read is not issued. `x` is the answer to the write; the byte read back is the transport's, or the one
the device holds. R115 and R118 leave open what the register then holds. The model's: what the device image holds after
the write, by its answer (log entry 2), that the read-back leaves it as it was (log entry 25), and that a read-back
answered with a number of bytes other than one is a `TransportError` (log entry 4). -/
def Obligations.ApctlWritesAndVerifies : Prop :=
  ∀ (s : State) (ot op : Osrs) (m : Mode) (x : Answer) (rest : List Answer), s.seq = .idle →
    let a := s.params.ctrlAddr
    let b := packCtrl s.params ot op m
    let wrote : BusEntry := { request := .writeByte a b, reply := .ok [] }
    let after : Memory := if x = .device then s.device.store a.toNat b else s.device
    (encode (.apctl ot op m)).extractLsb' 16 8 = 0x02 ∧
    (∀ r, (∀ l, x ≠ .err l) →
      (s.answers = x :: .ok [r] :: rest ∨ s.answers = x :: .device :: rest ∧ after.byteAt a.toNat = some r) →
      exec (.apctl ot op m) s = .next { s with
        status := if r = b then 0 else 2
        device := after
        answers := rest
        draws := s.draws + 2
        trace := { request := .readByte a, reply := .ok [r] } :: wrote :: s.trace
        outputs := .response (if r = b then 0 else 2) .none :: s.outputs }) ∧
    (∀ bs, bs.length ≠ 1 → (∀ l, x ≠ .err l) → s.answers = x :: .ok bs :: rest →
      exec (.apctl ot op m) s = .next { s with
        status := 1
        device := after
        answers := rest
        draws := s.draws + 2
        trace := { request := .readByte a, reply := .ok bs } :: wrote :: s.trace
        outputs := .response 1 .none :: s.outputs }) ∧
    (∀ l, (∀ l', x ≠ .err l') → s.answers = x :: .err l :: rest →
      exec (.apctl ot op m) s = .next { s with
        status := 1
        device := after
        answers := rest
        draws := s.draws + 2
        trace := { request := .readByte a, reply := .err } :: wrote :: s.trace
        outputs := .response 1 .none :: s.outputs }) ∧
    (∀ l, s.answers = .err l :: rest →
      exec (.apctl ot op m) s = .next { s with
        status := 1
        device := if l then s.device.store a.toNat b else s.device
        answers := rest
        draws := s.draws + 1
        trace := { request := .writeByte a b, reply := .err } :: s.trace
        outputs := .response 1 .none :: s.outputs })

/-- R116, R118: `APFLT` writes and verifies the filter register identically; the model's are the same clauses, log
entries 2, 25 and 4. -/
def Obligations.ApfltWritesAndVerifies : Prop :=
  ∀ (s : State) (sb : Standby) (f : Filter) (w : Bool) (x : Answer) (rest : List Answer), s.seq = .idle →
    let a := s.params.configAddr
    let b := packCfg s.params sb f w
    let wrote : BusEntry := { request := .writeByte a b, reply := .ok [] }
    let after : Memory := if x = .device then s.device.store a.toNat b else s.device
    (encode (.apflt sb f w)).extractLsb' 16 8 = 0x03 ∧
    (∀ r, (∀ l, x ≠ .err l) →
      (s.answers = x :: .ok [r] :: rest ∨ s.answers = x :: .device :: rest ∧ after.byteAt a.toNat = some r) →
      exec (.apflt sb f w) s = .next { s with
        status := if r = b then 0 else 2
        device := after
        answers := rest
        draws := s.draws + 2
        trace := { request := .readByte a, reply := .ok [r] } :: wrote :: s.trace
        outputs := .response (if r = b then 0 else 2) .none :: s.outputs }) ∧
    (∀ bs, bs.length ≠ 1 → (∀ l, x ≠ .err l) → s.answers = x :: .ok bs :: rest →
      exec (.apflt sb f w) s = .next { s with
        status := 1
        device := after
        answers := rest
        draws := s.draws + 2
        trace := { request := .readByte a, reply := .ok bs } :: wrote :: s.trace
        outputs := .response 1 .none :: s.outputs }) ∧
    (∀ l, (∀ l', x ≠ .err l') → s.answers = x :: .err l :: rest →
      exec (.apflt sb f w) s = .next { s with
        status := 1
        device := after
        answers := rest
        draws := s.draws + 2
        trace := { request := .readByte a, reply := .err } :: wrote :: s.trace
        outputs := .response 1 .none :: s.outputs }) ∧
    (∀ l, s.answers = .err l :: rest →
      exec (.apflt sb f w) s = .next { s with
        status := 1
        device := if l then s.device.store a.toNat b else s.device
        answers := rest
        draws := s.draws + 1
        trace := { request := .writeByte a b, reply := .err } :: s.trace
        outputs := .response 1 .none :: s.outputs })

/-- R117: `CONFIG` with `control_first` is `APCTL` and, if that ended `OK`, `APFLT`, with one response instead
of two, the status of the last of the two that ran. With `filter_first` the two are exchanged. -/
def Obligations.ConfigIsTheTwoVerifiedWrites : Prop :=
  ∀ (s t₁ t₂ : State) (ot op : Osrs) (m : Mode) (sb : Standby) (f : Filter) (w : Bool), s.seq = .idle →
    let first : Instr := match s.params.order with
      | .controlFirst => .apctl ot op m
      | .filterFirst => .apflt sb f w
    let second : Instr := match s.params.order with
      | .controlFirst => .apflt sb f w
      | .filterFirst => .apctl ot op m
    (encode (.config ot op m sb f w)).extractLsb' 15 9 = 0x04#8 ++ 0#1 ∧
    (exec first s = .next t₁ → exec second t₁ = .next t₂ →
    exec (.config ot op m sb f w) s =
      .next (if t₁.status = 0 then { t₂ with outputs := .response t₂.status .none :: s.outputs } else t₁))

/-- R117 with `control_first`: both registers are written and verified; where the first read-back differs the
second half is not attempted, and the command ends with the status of the half that ran last. Here the transport
answers the writes `ok`; that such a write is reported done and leaves the device image as it was (the silent write
failure of R212), so that only the requests and their answers show it, is the model's choice: log entry 2. Writes the
device carries out are in the statements about `APCTL` and `APFLT`, to which the one above reduces `CONFIG`. -/
def Obligations.ConfigWritesBothRegisters : Prop :=
  ∀ (s : State) (ot op : Osrs) (m : Mode) (sb : Standby) (f : Filter) (w : Bool) (rest : List Answer),
    s.seq = .idle → s.params.order = .controlFirst →
    let a := s.params.ctrlAddr
    let b := packCtrl s.params ot op m
    let a' := s.params.configAddr
    let b' := packCfg s.params sb f w
    let write (ad : Addr) (v : Byte) : BusEntry := { request := .writeByte ad v, reply := .ok [] }
    let read (ad : Addr) (v : Byte) : BusEntry := { request := .readByte ad, reply := .ok [v] }
    (∀ bs bs' r', s.answers = .ok bs :: .ok [b] :: .ok bs' :: .ok [r'] :: rest →
      exec (.config ot op m sb f w) s = .next { s with
        status := if r' = b' then 0 else 2
        answers := rest
        draws := s.draws + 4
        trace := read a' r' :: write a' b' :: read a b :: write a b :: s.trace
        outputs := .response (if r' = b' then 0 else 2) .none :: s.outputs }) ∧
    (∀ bs r, r ≠ b → s.answers = .ok bs :: .ok [r] :: rest →
      exec (.config ot op m sb f w) s = .next { s with
        status := 2
        answers := rest
        draws := s.draws + 2
        trace := read a r :: write a b :: s.trace
        outputs := .response 2 .none :: s.outputs })

/-- R122 (which the spec derives from R117 to R121): with a device that stores what is written and returns what is stored, after `CONFIG` ends `OK`,
`RDCTL` answers its three control settings and `RDFLT` its three filter settings. -/
def Obligations.ConfigurationReadsBackFromAStoringDevice : Prop :=
  ∀ (s : State) (ot op : Osrs) (m : Mode) (sb : Standby) (f : Filter) (w : Bool) (rest : List Answer),
    s.seq = .idle → s.params.wf = true → s.answers = List.replicate 6 .device ++ rest →
    ∃ t₁ t₂ t₃,
      exec (.config ot op m sb f w) s = .next t₁ ∧ t₁.status = 0 ∧
      exec .rdctl t₁ = .next t₂ ∧ t₂.outputs = .response 0 (.control ot op m) :: t₁.outputs ∧
      exec .rdflt t₂ = .next t₃ ∧ t₃.outputs = .response 0 (.filter sb f w) :: t₂.outputs

/-- R119: `RDCTL` reads `CTRL` and answers its settings, or ends `ReservedCode`, or `TransportError`; it changes
nothing in the device. The byte read is the transport's, or the one the device holds. -/
def Obligations.RdctlReadsAndDecodes : Prop :=
  ∀ (s : State) (r : Byte) (l : Bool) (rest : List Answer), s.seq = .idle →
    let read (reply : Reply) : BusEntry := { request := .readByte s.params.ctrlAddr, reply := reply }
    let answered : Prop := s.answers = .ok [r] :: rest ∨
      s.answers = .device :: rest ∧ s.device.byteAt s.params.ctrlAddr.toNat = some r
    encode .rdctl = 0x0D0000 ∧
    (∀ ot op m, answered → unpackCtrl s.params r = (some ot, some op, some m) →
      exec .rdctl s = .next { s with
        status := 0, answers := rest, draws := s.draws + 1, trace := read (.ok [r]) :: s.trace
        outputs := .response 0 (.control ot op m) :: s.outputs }) ∧
    (answered → (∀ ot op m, unpackCtrl s.params r ≠ (some ot, some op, some m)) →
      exec .rdctl s = .next { s with
        status := 7, answers := rest, draws := s.draws + 1, trace := read (.ok [r]) :: s.trace
        outputs := .response 7 .none :: s.outputs }) ∧
    (s.answers = .err l :: rest →
      exec .rdctl s = .next { s with
        status := 1, answers := rest, draws := s.draws + 1, trace := read .err :: s.trace
        outputs := .response 1 .none :: s.outputs })

/-- R120: `RDFLT` reads `CONFIG` and answers its settings, or ends `ReservedCode`, or `TransportError`. -/
def Obligations.RdfltReadsAndDecodes : Prop :=
  ∀ (s : State) (r : Byte) (l : Bool) (rest : List Answer), s.seq = .idle →
    let read (reply : Reply) : BusEntry := { request := .readByte s.params.configAddr, reply := reply }
    let answered : Prop := s.answers = .ok [r] :: rest ∨
      s.answers = .device :: rest ∧ s.device.byteAt s.params.configAddr.toNat = some r
    encode .rdflt = 0x0E0000 ∧
    (∀ sb f w, answered → unpackCfg s.params r = (some sb, some f, some w) →
      exec .rdflt s = .next { s with
        status := 0, answers := rest, draws := s.draws + 1, trace := read (.ok [r]) :: s.trace
        outputs := .response 0 (.filter sb f w) :: s.outputs }) ∧
    (answered → (∀ sb f w, unpackCfg s.params r ≠ (some sb, some f, some w)) →
      exec .rdflt s = .next { s with
        status := 7, answers := rest, draws := s.draws + 1, trace := read (.ok [r]) :: s.trace
        outputs := .response 7 .none :: s.outputs }) ∧
    (s.answers = .err l :: rest →
      exec .rdflt s = .next { s with
        status := 1, answers := rest, draws := s.draws + 1, trace := read .err :: s.trace
        outputs := .response 1 .none :: s.outputs })

/-! ### Calibration -/

/-- R71, R104: `s16` is the two's-complement reading of a pattern, and taking it back to 16 bits returns the
pattern; it is injective, and a pattern determines the two bytes it was read from. -/
def Obligations.SignedMappingReencodes : Prop :=
  ∀ r : Pattern,
    (r.toNat ≤ 32767 → s16 r = r.toNat) ∧ (32767 < r.toNat → s16 r = (r.toNat : Int) - 65536) ∧
    s16 r % 65536 = r.toNat ∧ (∀ r' : Pattern, s16 r = s16 r' → r = r') ∧
    ∀ lo hi lo' hi' : Byte, pattern16 lo hi = pattern16 lo' hi' → lo = lo' ∧ hi = hi'

/-- R102, R103, R100: with twelve good answers, whatever the registers held before, `LDCAL` ends `OK`: the twelve little-endian patterns are in `CAL`, the
flags of everything computed from an old set are cleared, the twelve reads were made in ascending order. -/
def Obligations.LdcalLoadsTwelveCoefficients : Prop :=
  ∀ (s : State) (lo hi : Fin 12 → Byte) (rest : List Answer), s.seq = .idle →
    s.answers = (List.ofFn fun k => Answer.ok [lo k, hi k]) ++ rest →
    ∃ c : Cal,
      exec .ldcal s = .next { s with
        cal := some c, tFine := none, tempC := none, press := none
        status := 0
        answers := rest
        draws := s.draws + 12
        trace := (List.ofFn fun k : Fin 12 => ({
          request := .readBlock (s.params.calBase + BitVec.ofNat 8 (2 * k)) 2
          reply := .ok [lo k, hi k] } : BusEntry)).reverse ++ s.trace
        outputs := .response 0 (.coefficients c) :: s.outputs } ∧
      ∀ k : Fin 12, (calReg c k).toNat = (lo k).toNat + 256 * (hi k).toNat

/-- R101, R14: `LDCAL` is all or nothing: it ends `OK` after twelve reads with a whole new set, or `TransportError`
with every register and flag but `STATUS` as before. Micro-step by micro-step: a read, micro-steps 0 to 11, leaves
`CAL`, every other register and every flag as they were and only gathers its two bytes as temporaries, or ends the
command; micro-step 12 writes the whole set in one step. -/
def Obligations.LdcalIsAllOrNothing : Prop :=
  (∀ (s t : State), s.seq = .idle → exec .ldcal s = .next t →
    (t.status = 0 ∧ t.draws = s.draws + 12 ∧
      (∃ c, t.cal = some c ∧ t.outputs = .response 0 (.coefficients c) :: s.outputs) ∧
      t.raw = s.raw ∧ t.tFine = none ∧ t.tempC = none ∧ t.press = none) ∨
    (t.status = 1 ∧ t.outputs = .response 1 .none :: s.outputs ∧ t.cal = s.cal ∧ t.raw = s.raw ∧
      t.tFine = s.tFine ∧ t.tempC = s.tempC ∧ t.press = s.press)) ∧
  (∀ (s t : State) (k : Nat) (tmp : List Byte), s.seq = .busy .ldcal k tmp → k < 12 → microStep s = some t →
    t.cal = s.cal ∧ t.raw = s.raw ∧ t.tFine = s.tFine ∧ t.tempC = s.tempC ∧ t.press = s.press ∧
    ((∃ lo hi, t.seq = .busy .ldcal (k + 1) (tmp ++ [lo, hi]) ∧ t.status = s.status ∧ t.outputs = s.outputs) ∨
      (t.seq = .idle ∧ t.status = 1 ∧ t.outputs = .response 1 .none :: s.outputs))) ∧
  (∀ (s : State) (lo hi : Fin 12 → Byte),
    s.seq = .busy .ldcal 12 (List.ofFn fun k => [lo k, hi k]).flatten →
    ∃ c : Cal, (∀ k : Fin 12, (calReg c k).toNat = (lo k).toNat + 256 * (hi k).toNat) ∧
      microStep s = some { s with
        cal := some c, tFine := none, tempC := none, press := none
        status := 0, seq := .idle, outputs := .response 0 (.coefficients c) :: s.outputs })

/-- R100, R45: the first read that fails or returns a list whose length is not 2 ends `LDCAL`; here read `j`,
after `j` good ones. The remaining reads are not issued, and nothing of the good ones is kept (R101). -/
def Obligations.LdcalStopsAtTheFirstBadRead : Prop :=
  ∀ (s : State) (j : Fin 12) (lo hi : Fin j → Byte) (bad : Answer) (rest : List Answer),
    s.seq = .idle →
    s.answers = (List.ofFn fun k => Answer.ok [lo k, hi k]) ++ bad :: rest →
    (∃ l, bad = .err l) ∨ (∃ bs, bad = .ok bs ∧ bs.length ≠ 2) →
    ∃ t, exec .ldcal s = .next t ∧ t.status = 1 ∧ t.draws = s.draws + j + 1 ∧ t.answers = rest ∧
      t.cal = s.cal ∧ t.raw = s.raw ∧ t.tFine = s.tFine ∧ t.tempC = s.tempC ∧ t.press = s.press ∧
      t.device = s.device

/-- R42: with the constraints on the parameters no address the block computes wraps: the reads of `LDCAL` are
at `ADDR_CAL_BASE + 2k` as numbers, and the last byte of every request is inside the space. -/
def Obligations.AddressesDoNotWrap : Prop :=
  ∀ (p : Params) (i : Instr), p.wf = true →
    (∀ k < 12, (p.calBase + BitVec.ofNat 8 (2 * k)).toNat = p.calBase.toNat + 2 * k) ∧
    ∀ a n, .readBlock a n ∈ requestsOf p i → a.toNat + n ≤ 256

/-! ### The raw sample -/

/-- R131: the 20-bit extraction: MSB in bits 19:12, LSB in bits 11:4, the top nibble of XLSB in bits 3:0, its low
nibble ignored; injective on the rest. -/
def Obligations.Extract20AlignsTheBytes : Prop :=
  ∀ msb lsb xlsb : Byte,
    (extract20 msb lsb xlsb).toNat = msb.toNat * 4096 + lsb.toNat * 16 + xlsb.toNat / 16 ∧
    ∀ msb' lsb' xlsb' : Byte, extract20 msb lsb xlsb = extract20 msb' lsb' xlsb' ↔
      msb = msb' ∧ lsb = lsb' ∧ xlsb.toNat / 16 = xlsb'.toNat / 16

/-- R130, R132: `RDRAW` makes one 6-byte burst; with six bytes it commits pressure from the first three and
temperature from the last three and clears the flags of everything derived; with an `Err` or another length it
ends `TransportError` and changes no register but `STATUS`. -/
def Obligations.RdrawReadsOneBurst : Prop :=
  ∀ (s : State) (rest : List Answer), s.seq = .idle →
    let burst (reply : Reply) : BusEntry := { request := .readBlock s.params.dataBase 6, reply := reply }
    encode .rdraw = 0x050000 ∧
    (∀ b0 b1 b2 b3 b4 b5 : Byte, s.answers = .ok [b0, b1, b2, b3, b4, b5] :: rest →
      exec .rdraw s = .next { s with
        raw := some { adcP := extract20 b0 b1 b2, adcT := extract20 b3 b4 b5 }
        tFine := none, tempC := none, press := none
        status := 0, answers := rest, draws := s.draws + 1
        trace := burst (.ok [b0, b1, b2, b3, b4, b5]) :: s.trace
        outputs := .response 0 (.sample (extract20 b0 b1 b2) (extract20 b3 b4 b5)) :: s.outputs }) ∧
    (∀ bs, bs.length ≠ 6 → s.answers = .ok bs :: rest →
      exec .rdraw s = .next { s with
        status := 1, answers := rest, draws := s.draws + 1
        trace := burst (.ok bs) :: s.trace
        outputs := .response 1 .none :: s.outputs }) ∧
    (∀ l, s.answers = .err l :: rest →
      exec .rdraw s = .next { s with
        status := 1, answers := rest, draws := s.draws + 1
        trace := burst .err :: s.trace
        outputs := .response 1 .none :: s.outputs })

/-! ### The compensation engine -/

/-- R141: the four operations on finite operands are the IEEE 754 ones: correctly rounded with roundTiesToEven, one
rounding each, with the sign of the exact result; an exact sum or difference of zero is `+0.0`, but `-0.0` where both
addends are negative zeros (R142: `+0.0 + -0.0 = +0.0`; log entry 18). -/
def Obligations.OperationsAreCorrectlyRounded : Prop :=
  ∀ a b : F64, isFinite a = true → isFinite b = true →
    IsSum a b (fadd a b) ∧ IsDifference a b (fsub a b) ∧ IsProduct a b (fmul a b) ∧
    (isZero b = false → IsQuotient a b (fdiv a b))

/-- R8, R141: integer conversion is exact for every integer the block converts. -/
def Obligations.IntegerConversionIsExact : Prop :=
  ∀ n : Int, n.natAbs < 2 ^ 32 → isFinite (i2f n) = true ∧ fUnits (i2f n) = n * unitsPerOne

/-- R141: `==` is IEEE equality: the two zeros are equal, a NaN equals nothing, and finite numbers are equal
exactly when their values are. -/
def Obligations.EqualityIsIeeeEquality : Prop :=
  feq 0x0000000000000000 0x8000000000000000 = true ∧
  ∀ a b : F64, (isNaN a = true ∨ isNaN b = true → feq a b = false) ∧
    (isFinite a = true → isFinite b = true → (feq a b = true ↔ fUnits a = fUnits b))

/-- R144 (which the spec derives from R141, R143): with `n = adc_t - 16*T1`, everything before `var2` is exact, so
`fine_temperature = fl(n*T2/2^14 + fl(n^2*T3/2^34))` and `temperature_celsius = fl(fine_temperature/5120)`; where
`n = 0` the fine temperature is a zero, of the sign IEEE 754 gives it (R142): `-0.0` where `T2` and `T3` are both
negative, else `+0.0`. -/
def Obligations.FineTemperatureIsTwoRoundings : Prop :=
  ∀ (adcT : Count) (T1 T2 T3 : Pattern),
    let n : Int := (adcT.toNat : Int) - 16 * T1.toNat
    let var2 := ofRatio (n ^ 2 * s16 T3) (2 ^ 34)
    let fine := (compT adcT T1 T2 T3).2
    (n ≠ 0 → fine = ofRatio (n * s16 T2 * 2 ^ 1060 + fUnits var2) unitsPerOne) ∧
    (n = 0 → fine = if s16 T2 < 0 ∧ s16 T3 < 0 then 0x8000000000000000 else 0x0000000000000000) ∧
    (compT adcT T1 T2 T3).1 = fdiv fine (i2f 5120)

/-- R144, the bounds (which the spec derives from R141, R143): for every count and every coefficient, `|fine_temperature| <= 2^22` and
`|temperature_celsius| < 820`, both finite. -/
def Obligations.TemperatureIsBounded : Prop :=
  ∀ (adcT : Count) (T1 T2 T3 : Pattern),
    magAtMost (compT adcT T1 T2 T3).2 22 ∧
    isFinite (compT adcT T1 T2 T3).1 = true ∧ fMag (compT adcT T1 T2 T3).1 < 820 * unitsPerOne

/-- R142: with a calibration and a sample `CMPT` ends `OK`, with both results of `comp_T` in the registers and
the payload and the pressure's flag cleared; without a calibration it ends `CalibrationMissing`, with one and
without a sample `OperandMissing`, and nothing but `STATUS` changes. -/
def Obligations.CmptComputesTheTemperature : Prop :=
  ∀ (s : State) (c : Cal) (r : RawSample), s.seq = .idle →
    let tc := (compT r.adcT c.t1 c.t2 c.t3).1
    let tf := (compT r.adcT c.t1 c.t2 c.t3).2
    encode .cmpt = 0x060000 ∧
    (s.cal = some c → s.raw = some r →
      exec .cmpt s = .next { s with
        tFine := some tf, tempC := some tc, press := none
        status := 0, outputs := .response 0 (.temperature tc tf) :: s.outputs }) ∧
    (s.cal = none →
      exec .cmpt s = .next { s with status := 4, outputs := .response 4 .none :: s.outputs }) ∧
    (s.cal = some c → s.raw = none →
      exec .cmpt s = .next { s with status := 5, outputs := .response 5 .none :: s.outputs })

/-- R145: with a calibration, a sample and a fine temperature `CMPP` ends `OK` with the pressure in the register
and the payload, or `ArithmeticError` with the pressure's flag cleared, the temperature untouched; without a
calibration it ends `CalibrationMissing`, with one and without a sample or a fine temperature `OperandMissing`,
and nothing but `STATUS` changes. -/
def Obligations.CmppComputesThePressure : Prop :=
  ∀ (s : State) (c : Cal) (r : RawSample) (tf : F64), s.seq = .idle →
    encode .cmpp = 0x070000 ∧
    (∀ x, s.cal = some c → s.raw = some r → s.tFine = some tf → compP r.adcP tf c = some x →
      exec .cmpp s = .next { s with
        press := some x, status := 0, outputs := .response 0 (.pressure x) :: s.outputs }) ∧
    (s.cal = some c → s.raw = some r → s.tFine = some tf → compP r.adcP tf c = none →
      exec .cmpp s = .next { s with
        press := none, status := 3, outputs := .response 3 .none :: s.outputs }) ∧
    (s.cal = none →
      exec .cmpp s = .next { s with status := 4, outputs := .response 4 .none :: s.outputs }) ∧
    (s.cal = some c → (s.raw = none ∨ s.tFine = none) →
      exec .cmpp s = .next { s with status := 5, outputs := .response 5 .none :: s.outputs })

/-- R147 (the spec derives "exactly" from R148): for a fine temperature in the domain `comp_P` reports `ArithmeticError` exactly when `P1 = 0` or
`v1b = -32768.0`, whatever the count; the divisor it tests is then a zero, of either sign. -/
def Obligations.ArithmeticErrorExactlyOnZeroDivisor : Prop :=
  ∀ (adcP : Count) (tf : F64) (c : Cal), magAtMost tf 22 →
    (compP adcP tf c = none ↔ isZero (compPDivisor tf c) = true) ∧
    (compP adcP tf c = none ↔ c.p1 = 0 ∨ fUnits (compPV1b tf c) = -32768 * unitsPerOne)

/-- R148 (which the spec derives from R141 to R147): whenever `comp_P` returns `Ok(x)`, `x` is finite, for every fine temperature of magnitude at most 2^22
and every coefficient and count. -/
def Obligations.PressureIsFinite : Prop :=
  ∀ (adcP : Count) (tf : F64) (c : Cal) (x : F64),
    magAtMost tf 22 → compP adcP tf c = some x → isFinite x = true

/-! ### Acquire -/

/-- R160: when `CAL_VALID = 1`, `ACQ` is `RDRAW`, `CMPT`, `CMPP` run in that order, stopping after the first that
does not end `OK`: the same request, registers, flags and status, and one response, with the payload
`(pressure_hpa, temperature_celsius)` when all three end `OK`. -/
def Obligations.AcqIsTheThreeCommandsComposed : Prop :=
  ∀ (s t₁ t₂ t₃ : State), s.seq = .idle → calValid s = true →
    exec .rdraw s = .next t₁ → exec .cmpt t₁ = .next t₂ → exec .cmpp t₂ = .next t₃ →
    (t₁.status ≠ 0 → exec .acq s = .next t₁) ∧
    (t₁.status = 0 → t₂.status = 0) ∧
    (t₁.status = 0 → t₃.status ≠ 0 →
      exec .acq s = .next { t₃ with outputs := .response t₃.status .none :: s.outputs }) ∧
    (t₁.status = 0 → t₃.status = 0 → ∃ x tc, t₃.press = some x ∧ t₃.tempC = some tc ∧
      exec .acq s = .next { t₃ with outputs := .response 0 (.reading x tc) :: s.outputs })

/-- R160: with a calibration and a good burst `ACQ` makes exactly one request, commits the new sample and the new
temperature, and ends `OK` with the pressure and the reading `(PRESS_HPA, TEMP_C)`, or `ArithmeticError` with the
pressure's flag 0 and no payload; with a failed burst it ends `TransportError` and nothing but `STATUS` changed;
without a calibration `CalibrationMissing`, with no request (R161). -/
def Obligations.AcqAnswersTheReading : Prop :=
  ∀ (s : State) (c : Cal) (b0 b1 b2 b3 b4 b5 : Byte) (rest : List Answer), s.seq = .idle →
    let p := extract20 b0 b1 b2
    let t := extract20 b3 b4 b5
    let tc := (compT t c.t1 c.t2 c.t3).1
    let tf := (compT t c.t1 c.t2 c.t3).2
    let burst (reply : Reply) : BusEntry := { request := .readBlock s.params.dataBase 6, reply := reply }
    encode .acq = 0x080000 ∧
    (∀ x, s.cal = some c → s.answers = .ok [b0, b1, b2, b3, b4, b5] :: rest → compP p tf c = some x →
      exec .acq s = .next { s with
        raw := some { adcP := p, adcT := t }, tFine := some tf, tempC := some tc, press := some x
        status := 0, answers := rest, draws := s.draws + 1
        trace := burst (.ok [b0, b1, b2, b3, b4, b5]) :: s.trace
        outputs := .response 0 (.reading x tc) :: s.outputs }) ∧
    (s.cal = some c → s.answers = .ok [b0, b1, b2, b3, b4, b5] :: rest → compP p tf c = none →
      exec .acq s = .next { s with
        raw := some { adcP := p, adcT := t }, tFine := some tf, tempC := some tc, press := none
        status := 3, answers := rest, draws := s.draws + 1
        trace := burst (.ok [b0, b1, b2, b3, b4, b5]) :: s.trace
        outputs := .response 3 .none :: s.outputs }) ∧
    (∀ bs, bs.length ≠ 6 → s.cal = some c → s.answers = .ok bs :: rest →
      exec .acq s = .next { s with
        status := 1, answers := rest, draws := s.draws + 1, trace := burst (.ok bs) :: s.trace
        outputs := .response 1 .none :: s.outputs }) ∧
    (∀ l, s.cal = some c → s.answers = .err l :: rest →
      exec .acq s = .next { s with
        status := 1, answers := rest, draws := s.draws + 1, trace := burst .err :: s.trace
        outputs := .response 1 .none :: s.outputs }) ∧
    (s.cal = none →
      exec .acq s = .next { s with status := 4, outputs := .response 4 .none :: s.outputs })

/-- R160, freshness: `ACQ` never uses a sample, a fine temperature or a result left by an earlier command: two
states that differ only in those give the same response and, when it is not a refusal or a transport error, the
same registers. -/
def Obligations.AcqUsesNoOldSample : Prop :=
  ∀ (s t t' : State) (raw : Option RawSample) (tf tc p : Option F64), s.seq = .idle →
    exec .acq s = .next t →
    exec .acq { s with raw := raw, tFine := tf, tempC := tc, press := p } = .next t' →
    t'.outputs = t.outputs ∧ t'.status = t.status ∧
    (t.status = 0 ∨ t.status = 3 →
      t'.raw = t.raw ∧ t'.tFine = t.tFine ∧ t'.tempC = t.tempC ∧ t'.press = t.press)

/-! ### Reset, the host's reads, the device register space -/

/-- R31, R200: the state after reset: all flags 0, no register holds a value, `STATUS` is `OK`, the sequencer is
idle. -/
def Obligations.ResetLeavesNoValue : Prop :=
  State.reset.cal = none ∧ State.reset.raw = none ∧ State.reset.tFine = none ∧ State.reset.tempC = none ∧
  State.reset.press = none ∧ State.reset.status = 0 ∧ State.reset.seq = .idle

/-- R200, R201, R202: the reset event, in an idle block and in the middle of a command alike, puts the block's
state at R31's values and gives no response; it touches nothing of the device and issues no request. R201 leaves open
whether a request in flight reached the device; that a reset falls between two micro-steps, so that none is in flight,
is the model's: log entry 9. -/
def Obligations.ResetEventResetsTheBlockOnly : Prop :=
  ∀ (s : State) (es : List Event), s.events = .reset :: es →
    step s = .next { s with
      cal := none, raw := none, tFine := none, tempC := none, press := none
      status := 0, seq := .idle, events := es }

/-- R32: an idle block gives the host the content of each register whose valid flag is 1, and of `STATUS` and the
flags always, and changes nothing; reading a register whose valid flag is 0 gives no value and is the host's fault.
That the bits come zero-extended to 64, a coefficient as its pattern, and that after the host's fault, which is
recorded, the block goes on unchanged, is the model's: log entries 10 and 26. -/
def Obligations.HostReadsAValueOrFaults : Prop :=
  ∀ (s : State) (es : List Event), s.seq = .idle →
    let gives (r : BlockReg) (b : BitVec 64) : Prop := s.events = .read r :: es →
      step s = .next { s with events := es, outputs := .value r b :: s.outputs }
    let faults (r : BlockReg) : Prop := s.events = .read r :: es → step s =
      .next { s with events := es, outputs := .hostFault r :: s.outputs }
    (∀ c, s.cal = some c → ∀ (k : Fin 12) (x : Pattern),
      [c.t1, c.t2, c.t3, c.p1, c.p2, c.p3, c.p4, c.p5, c.p6, c.p7, c.p8, c.p9][k.val]? = some x →
      gives (.cal k) (x.setWidth 64)) ∧
    (s.cal = none → ∀ k, faults (.cal k)) ∧
    (∀ x, s.raw = some x → gives .adcP (x.adcP.setWidth 64) ∧ gives .adcT (x.adcT.setWidth 64)) ∧
    (s.raw = none → faults .adcP ∧ faults .adcT) ∧
    (∀ x, s.tFine = some x → gives .tFine x) ∧ (s.tFine = none → faults .tFine) ∧
    (∀ x, s.tempC = some x → gives .tempC x) ∧ (s.tempC = none → faults .tempC) ∧
    (∀ x, s.press = some x → gives .pressHpa x) ∧ (s.press = none → faults .pressHpa) ∧
    gives .status (s.status.setWidth 64) ∧
    gives .calValid (if s.cal = none then 0 else 1) ∧
    gives .rawValid (if s.raw = none then 0 else 1) ∧
    gives .fineValid (if s.tFine = none then 0 else 1) ∧
    gives .tempValid (if s.tempC = none then 0 else 1) ∧
    gives .pressValid (if s.press = none then 0 else 1)

/-- A byte stored in the device register space is read back, and a store leaves every other byte as it was and
keeps the canonical form (a law of the model's own memory, log entry 3). -/
def Obligations.StoreThenReadReturnsTheByte : Prop :=
  ∀ (m : Memory) (a : Addr) (v : Byte),
    (m.store a.toNat v).byteAt a.toNat = some v ∧
    (∀ b, b ≠ a.toNat → (m.store a.toNat v).byteAt b = m.byteAt b) ∧
    (m.wf = true → (m.store a.toNat v).wf = true)

/-- R24, R60: the sensor changes one of its registers, between two commands and between two micro-steps alike:
that byte of the device register space changes, nothing of the block does. That it may be any register, not only a
data byte, is the model's: log entry 16. -/
def Obligations.SensorChangesOneDeviceByte : Prop :=
  ∀ (s : State) (a : Addr) (v : Byte) (es : List Event), s.events = .sensor a v :: es →
    ∃ t, step s = .next t ∧ t = { s with events := es, device := t.device } ∧
      t.device.byteAt a.toNat = some v ∧ ∀ b, b ≠ a.toNat → t.device.byteAt b = s.device.byteAt b

/-- The state after reset meets the two invariants below. -/
def Obligations.InvariantsHoldAtReset : Prop := RegistersOk State.reset ∧ MachineOk State.reset

/-- R33 (which the spec derives from R18, R131, R144, R148): from every state where the flags form their chain, no register holds a NaN or an infinity and
`|T_FINE| <= 2^22`, every step leads to such a state. (That `ADC_P` and `ADC_T` are at most 0xFFFFF is their type.) -/
def Obligations.EveryStepKeepsTheRegistersOk : Prop :=
  ∀ s t : State, RegistersOk s → step s = .next t → RegistersOk t

/-- Every step keeps the sequencer well formed (R30: a busy one names a micro-step of its command, with the bytes
read so far), `STATUS` one of the codes of R170, and the device register space in the model's canonical form
(log entry 3). -/
def Obligations.EveryStepKeepsTheMachineOk : Prop :=
  ∀ s t : State, MachineOk s → step s = .next t → MachineOk t

/-- Every step of a state whose sequencer is well formed goes on, no command is refused, and a host fault is recorded
exactly where the host reads a register that holds no value (R32; that the block then goes on is the model's: log entry
26). -/
def Obligations.EveryStepGoesOnAndOnlyAForbiddenReadIsAHostFault : Prop :=
  ∀ s : State, MachineOk s →
    ∃ t, step s = .next t ∧ (ReadsNoValue s ↔ ∃ r, t.outputs = .hostFault r :: s.outputs)

/-! ### No background work; the value of `comp_P` -/

/-- R180, R190: no background work. An idle block to which nothing comes from outside stays as it is, and a step in which
nothing happens outside changes nothing but the host's list (the list of events is the model's, log entry 7). -/
def Obligations.IdleBlockDoesNothingByItself : Prop :=
  ∀ (s : State) (es : List Event), s.seq = .idle →
    (s.events = [] → step s = .next s) ∧
    (s.events = .tick :: es → step s = .next { s with events := es })

/-- R146, R147: for a fine temperature in the domain of R148, `comp_P` is the list of single operations of R146, in
its order, with its constants and operands, each the IEEE 754 result of exactly its two operands; where `v1c` is a zero
it is `ArithmeticError`, else it is the last value of the list. Each name is the one R146 gives. -/
def Obligations.PressureIsTheListedOperations : Prop :=
  ∀ (adcP : Count) (tf : F64) (c : Cal), magAtMost tf 22 →
    ∃ h v1 m1 m2 m3 m4 m5 v2 m6 m7 v2b n1 n2 n3 n4 n5 v1b r1 r2 v1c : F64,
      IsQuotient tf (i2f 2) h ∧ IsDifference h (i2f 64000) v1 ∧
      IsProduct v1 v1 m1 ∧ IsProduct m1 (i2f (s16 c.p6)) m2 ∧ IsQuotient m2 (i2f 32768) m3 ∧
      IsProduct v1 (i2f (s16 c.p5)) m4 ∧ IsProduct m4 (i2f 2) m5 ∧ IsSum m3 m5 v2 ∧
      IsQuotient v2 (i2f 4) m6 ∧ IsProduct (i2f (s16 c.p4)) (i2f 65536) m7 ∧ IsSum m6 m7 v2b ∧
      IsProduct (i2f (s16 c.p3)) v1 n1 ∧ IsProduct n1 v1 n2 ∧ IsQuotient n2 (i2f 524288) n3 ∧
      IsProduct (i2f (s16 c.p2)) v1 n4 ∧ IsSum n3 n4 n5 ∧ IsQuotient n5 (i2f 524288) v1b ∧
      IsQuotient v1b (i2f 32768) r1 ∧ IsSum (i2f 1) r1 r2 ∧ IsProduct r2 (i2f c.p1.toNat) v1c ∧
      (isZero v1c = true → compP adcP tf c = none) ∧
      (isZero v1c = false →
        ∃ pa k1 k2 k3 p w1 w2 v1d w3 v2c s1 s2 s3 s4 hpa : F64,
          IsDifference (i2f 1048576) (i2f adcP.toNat) pa ∧
          IsQuotient v2b (i2f 4096) k1 ∧ IsDifference pa k1 k2 ∧ IsProduct k2 (i2f 6250) k3 ∧
          IsQuotient k3 v1c p ∧
          IsProduct (i2f (s16 c.p9)) p w1 ∧ IsProduct w1 p w2 ∧ IsQuotient w2 (i2f 2147483648) v1d ∧
          IsProduct p (i2f (s16 c.p8)) w3 ∧ IsQuotient w3 (i2f 32768) v2c ∧
          IsSum v1d v2c s1 ∧ IsSum s1 (i2f (s16 c.p7)) s2 ∧ IsQuotient s2 (i2f 16) s3 ∧ IsSum p s3 s4 ∧
          IsQuotient s4 (i2f 100) hpa ∧ isFinite hpa = true ∧ compP adcP tf c = some hpa)
end

