-- ==== Sys2Proof/Laws/Codec.lean ====
section
/-! SUPPORT. The bit-field operations as numbers: the packed byte and its slices, the 16-bit pattern of two bytes,
the 20-bit count of three. -/

namespace Sys2Proof.Machine

/-- Disjoint bits: an or is a sum. -/
theorem or_eq_add (a b k : Nat) (h : b < 2 ^ k) : a * 2 ^ k ||| b = a * 2 ^ k + b := by
  rw [Nat.mul_comm, ← Nat.two_pow_add_eq_or_of_lt h]

/-- R78: the packed byte as a number. -/
theorem packFields_toNat (a b : BitVec 3) (c : BitVec 2) :
    (packFields a b c).toNat = a.toNat * 32 + b.toNat * 4 + c.toNat := by
  revert a b c; decide +kernel

/-- R78: the slices of the packed byte are the fields it was packed from. -/
theorem packFields_slices (a b : BitVec 3) (c : BitVec 2) :
    (packFields a b c).extractLsb' 5 3 = a ∧ (packFields a b c).extractLsb' 2 3 = b ∧
      (packFields a b c).extractLsb' 0 2 = c := by
  revert a b c; decide +kernel

/-- R78: a byte is packed from its slices. -/
theorem packFields_of_slices (b : Byte) :
    packFields (b.extractLsb' 5 3) (b.extractLsb' 2 3) (b.extractLsb' 0 2) = b := by
  revert b; decide +kernel

/-- R78: the slices of a byte as numbers. -/
theorem slices_toNat (b : Byte) :
    (b.extractLsb' 5 3).toNat = b.toNat / 32 ∧ (b.extractLsb' 2 3).toNat = b.toNat / 4 % 8 ∧
      (b.extractLsb' 0 2).toNat = b.toNat % 4 := by
  revert b; decide +kernel

/-- R49, R71: the pattern of a register pair as a number, low byte first. -/
theorem pattern16_toNat (lo hi : Byte) : (pattern16 lo hi).toNat = lo.toNat + 256 * hi.toNat := by
  have h1 := lo.isLt
  have h2 := hi.isLt
  simp only [pattern16, BitVec.toNat_or, BitVec.toNat_shiftLeft, BitVec.toNat_setWidth, Nat.shiftLeft_eq]
  rw [Nat.mod_eq_of_lt (by omega : lo.toNat < 2 ^ 16), Nat.mod_eq_of_lt (by omega : hi.toNat < 2 ^ 16),
    Nat.mod_eq_of_lt (by omega : hi.toNat * 2 ^ 8 < 2 ^ 16), Nat.lor_comm, or_eq_add _ _ 8 (by omega)]
  omega

/-- R71: the signed and the unsigned reading. -/
theorem s16_emod (r : Pattern) : s16 r % 65536 = r.toNat := by
  have h := r.isLt
  unfold s16
  split_ifs <;> omega

/-- R71: the range of the signed reading. -/
theorem s16_bounds (r : Pattern) : -32768 ≤ s16 r ∧ s16 r ≤ 32767 := by
  have h := r.isLt
  unfold s16
  split_ifs <;> omega

end Sys2Proof.Machine
end

