-- ==== Sys2Proof/Laws/State.lean ====
section
/-! SUPPORT. One lemma per field per update of the state, so that no later proof unfolds a record update. -/

namespace Sys2Proof.Machine

/-! ### `raiseError` -/

@[simp] theorem raiseError_params (e : Err) (s : State) : (raiseError e s).params = s.params := rfl
@[simp] theorem raiseError_cal (e : Err) (s : State) : (raiseError e s).cal = s.cal := rfl
@[simp] theorem raiseError_raw (e : Err) (s : State) : (raiseError e s).raw = s.raw := rfl
@[simp] theorem raiseError_tFine (e : Err) (s : State) : (raiseError e s).tFine = s.tFine := rfl
@[simp] theorem raiseError_tempC (e : Err) (s : State) : (raiseError e s).tempC = s.tempC := rfl
@[simp] theorem raiseError_press (e : Err) (s : State) : (raiseError e s).press = s.press := rfl
@[simp] theorem raiseError_status (e : Err) (s : State) : (raiseError e s).status = errCode e := rfl
@[simp] theorem raiseError_seq (e : Err) (s : State) : (raiseError e s).seq = .idle := rfl
@[simp] theorem raiseError_device (e : Err) (s : State) : (raiseError e s).device = s.device := rfl
@[simp] theorem raiseError_events (e : Err) (s : State) : (raiseError e s).events = s.events := rfl
@[simp] theorem raiseError_answers (e : Err) (s : State) : (raiseError e s).answers = s.answers := rfl
@[simp] theorem raiseError_draws (e : Err) (s : State) : (raiseError e s).draws = s.draws := rfl
@[simp] theorem raiseError_trace (e : Err) (s : State) : (raiseError e s).trace = s.trace := rfl
@[simp] theorem raiseError_outputs (e : Err) (s : State) :
    (raiseError e s).outputs = .response (errCode e) .none :: s.outputs := rfl

/-! ### `respondOk` -/

@[simp] theorem respondOk_params (p : Payload) (s : State) : (respondOk p s).params = s.params := rfl
@[simp] theorem respondOk_cal (p : Payload) (s : State) : (respondOk p s).cal = s.cal := rfl
@[simp] theorem respondOk_raw (p : Payload) (s : State) : (respondOk p s).raw = s.raw := rfl
@[simp] theorem respondOk_tFine (p : Payload) (s : State) : (respondOk p s).tFine = s.tFine := rfl
@[simp] theorem respondOk_tempC (p : Payload) (s : State) : (respondOk p s).tempC = s.tempC := rfl
@[simp] theorem respondOk_press (p : Payload) (s : State) : (respondOk p s).press = s.press := rfl
@[simp] theorem respondOk_status (p : Payload) (s : State) : (respondOk p s).status = codeOk := rfl
@[simp] theorem respondOk_seq (p : Payload) (s : State) : (respondOk p s).seq = .idle := rfl
@[simp] theorem respondOk_device (p : Payload) (s : State) : (respondOk p s).device = s.device := rfl
@[simp] theorem respondOk_events (p : Payload) (s : State) : (respondOk p s).events = s.events := rfl
@[simp] theorem respondOk_answers (p : Payload) (s : State) : (respondOk p s).answers = s.answers := rfl
@[simp] theorem respondOk_draws (p : Payload) (s : State) : (respondOk p s).draws = s.draws := rfl
@[simp] theorem respondOk_trace (p : Payload) (s : State) : (respondOk p s).trace = s.trace := rfl
@[simp] theorem respondOk_outputs (p : Payload) (s : State) :
    (respondOk p s).outputs = .response codeOk p :: s.outputs := rfl

/-! ### `accept` -/

@[simp] theorem accept_params (i : Instr) (s : State) : (accept i s).params = s.params := rfl
@[simp] theorem accept_cal (i : Instr) (s : State) : (accept i s).cal = s.cal := rfl
@[simp] theorem accept_raw (i : Instr) (s : State) : (accept i s).raw = s.raw := rfl
@[simp] theorem accept_tFine (i : Instr) (s : State) : (accept i s).tFine = s.tFine := rfl
@[simp] theorem accept_tempC (i : Instr) (s : State) : (accept i s).tempC = s.tempC := rfl
@[simp] theorem accept_press (i : Instr) (s : State) : (accept i s).press = s.press := rfl
@[simp] theorem accept_status (i : Instr) (s : State) : (accept i s).status = s.status := rfl
@[simp] theorem accept_seq (i : Instr) (s : State) : (accept i s).seq = .busy i 0 [] := rfl
@[simp] theorem accept_device (i : Instr) (s : State) : (accept i s).device = s.device := rfl
@[simp] theorem accept_events (i : Instr) (s : State) : (accept i s).events = s.events := rfl
@[simp] theorem accept_answers (i : Instr) (s : State) : (accept i s).answers = s.answers := rfl
@[simp] theorem accept_draws (i : Instr) (s : State) : (accept i s).draws = s.draws := rfl
@[simp] theorem accept_trace (i : Instr) (s : State) : (accept i s).trace = s.trace := rfl
@[simp] theorem accept_outputs (i : Instr) (s : State) : (accept i s).outputs = s.outputs := rfl

/-! ### `commitCal` -/

@[simp] theorem commitCal_params (c : Cal) (s : State) : (commitCal c s).params = s.params := rfl
@[simp] theorem commitCal_cal (c : Cal) (s : State) : (commitCal c s).cal = some c := rfl
@[simp] theorem commitCal_raw (c : Cal) (s : State) : (commitCal c s).raw = s.raw := rfl
@[simp] theorem commitCal_tFine (c : Cal) (s : State) : (commitCal c s).tFine = none := rfl
@[simp] theorem commitCal_tempC (c : Cal) (s : State) : (commitCal c s).tempC = none := rfl
@[simp] theorem commitCal_press (c : Cal) (s : State) : (commitCal c s).press = none := rfl
@[simp] theorem commitCal_status (c : Cal) (s : State) : (commitCal c s).status = s.status := rfl
@[simp] theorem commitCal_seq (c : Cal) (s : State) : (commitCal c s).seq = s.seq := rfl
@[simp] theorem commitCal_device (c : Cal) (s : State) : (commitCal c s).device = s.device := rfl
@[simp] theorem commitCal_events (c : Cal) (s : State) : (commitCal c s).events = s.events := rfl
@[simp] theorem commitCal_answers (c : Cal) (s : State) : (commitCal c s).answers = s.answers := rfl
@[simp] theorem commitCal_draws (c : Cal) (s : State) : (commitCal c s).draws = s.draws := rfl
@[simp] theorem commitCal_trace (c : Cal) (s : State) : (commitCal c s).trace = s.trace := rfl
@[simp] theorem commitCal_outputs (c : Cal) (s : State) : (commitCal c s).outputs = s.outputs := rfl

/-! ### `commitRaw` -/

@[simp] theorem commitRaw_params (r : RawSample) (s : State) : (commitRaw r s).params = s.params := rfl
@[simp] theorem commitRaw_cal (r : RawSample) (s : State) : (commitRaw r s).cal = s.cal := rfl
@[simp] theorem commitRaw_raw (r : RawSample) (s : State) : (commitRaw r s).raw = some r := rfl
@[simp] theorem commitRaw_tFine (r : RawSample) (s : State) : (commitRaw r s).tFine = none := rfl
@[simp] theorem commitRaw_tempC (r : RawSample) (s : State) : (commitRaw r s).tempC = none := rfl
@[simp] theorem commitRaw_press (r : RawSample) (s : State) : (commitRaw r s).press = none := rfl
@[simp] theorem commitRaw_status (r : RawSample) (s : State) : (commitRaw r s).status = s.status := rfl
@[simp] theorem commitRaw_seq (r : RawSample) (s : State) : (commitRaw r s).seq = s.seq := rfl
@[simp] theorem commitRaw_device (r : RawSample) (s : State) : (commitRaw r s).device = s.device := rfl
@[simp] theorem commitRaw_events (r : RawSample) (s : State) : (commitRaw r s).events = s.events := rfl
@[simp] theorem commitRaw_answers (r : RawSample) (s : State) : (commitRaw r s).answers = s.answers := rfl
@[simp] theorem commitRaw_draws (r : RawSample) (s : State) : (commitRaw r s).draws = s.draws := rfl
@[simp] theorem commitRaw_trace (r : RawSample) (s : State) : (commitRaw r s).trace = s.trace := rfl
@[simp] theorem commitRaw_outputs (r : RawSample) (s : State) : (commitRaw r s).outputs = s.outputs := rfl

/-! ### `commitTemp` -/

@[simp] theorem commitTemp_params (c f : F64) (s : State) : (commitTemp c f s).params = s.params := rfl
@[simp] theorem commitTemp_cal (c f : F64) (s : State) : (commitTemp c f s).cal = s.cal := rfl
@[simp] theorem commitTemp_raw (c f : F64) (s : State) : (commitTemp c f s).raw = s.raw := rfl
@[simp] theorem commitTemp_tFine (c f : F64) (s : State) : (commitTemp c f s).tFine = some f := rfl
@[simp] theorem commitTemp_tempC (c f : F64) (s : State) : (commitTemp c f s).tempC = some c := rfl
@[simp] theorem commitTemp_press (c f : F64) (s : State) : (commitTemp c f s).press = none := rfl
@[simp] theorem commitTemp_status (c f : F64) (s : State) : (commitTemp c f s).status = s.status := rfl
@[simp] theorem commitTemp_seq (c f : F64) (s : State) : (commitTemp c f s).seq = s.seq := rfl
@[simp] theorem commitTemp_device (c f : F64) (s : State) : (commitTemp c f s).device = s.device := rfl
@[simp] theorem commitTemp_events (c f : F64) (s : State) : (commitTemp c f s).events = s.events := rfl
@[simp] theorem commitTemp_answers (c f : F64) (s : State) : (commitTemp c f s).answers = s.answers := rfl
@[simp] theorem commitTemp_draws (c f : F64) (s : State) : (commitTemp c f s).draws = s.draws := rfl
@[simp] theorem commitTemp_trace (c f : F64) (s : State) : (commitTemp c f s).trace = s.trace := rfl
@[simp] theorem commitTemp_outputs (c f : F64) (s : State) : (commitTemp c f s).outputs = s.outputs := rfl

/-! ### `commitPress` -/

@[simp] theorem commitPress_params (x : F64) (s : State) : (commitPress x s).params = s.params := rfl
@[simp] theorem commitPress_cal (x : F64) (s : State) : (commitPress x s).cal = s.cal := rfl
@[simp] theorem commitPress_raw (x : F64) (s : State) : (commitPress x s).raw = s.raw := rfl
@[simp] theorem commitPress_tFine (x : F64) (s : State) : (commitPress x s).tFine = s.tFine := rfl
@[simp] theorem commitPress_tempC (x : F64) (s : State) : (commitPress x s).tempC = s.tempC := rfl
@[simp] theorem commitPress_press (x : F64) (s : State) : (commitPress x s).press = some x := rfl
@[simp] theorem commitPress_status (x : F64) (s : State) : (commitPress x s).status = s.status := rfl
@[simp] theorem commitPress_seq (x : F64) (s : State) : (commitPress x s).seq = s.seq := rfl
@[simp] theorem commitPress_device (x : F64) (s : State) : (commitPress x s).device = s.device := rfl
@[simp] theorem commitPress_events (x : F64) (s : State) : (commitPress x s).events = s.events := rfl
@[simp] theorem commitPress_answers (x : F64) (s : State) : (commitPress x s).answers = s.answers := rfl
@[simp] theorem commitPress_draws (x : F64) (s : State) : (commitPress x s).draws = s.draws := rfl
@[simp] theorem commitPress_trace (x : F64) (s : State) : (commitPress x s).trace = s.trace := rfl
@[simp] theorem commitPress_outputs (x : F64) (s : State) : (commitPress x s).outputs = s.outputs := rfl

/-! ### `dropPress` -/

@[simp] theorem dropPress_params (s : State) : (dropPress s).params = s.params := rfl
@[simp] theorem dropPress_cal (s : State) : (dropPress s).cal = s.cal := rfl
@[simp] theorem dropPress_raw (s : State) : (dropPress s).raw = s.raw := rfl
@[simp] theorem dropPress_tFine (s : State) : (dropPress s).tFine = s.tFine := rfl
@[simp] theorem dropPress_tempC (s : State) : (dropPress s).tempC = s.tempC := rfl
@[simp] theorem dropPress_press (s : State) : (dropPress s).press = none := rfl
@[simp] theorem dropPress_status (s : State) : (dropPress s).status = s.status := rfl
@[simp] theorem dropPress_seq (s : State) : (dropPress s).seq = s.seq := rfl
@[simp] theorem dropPress_device (s : State) : (dropPress s).device = s.device := rfl
@[simp] theorem dropPress_events (s : State) : (dropPress s).events = s.events := rfl
@[simp] theorem dropPress_answers (s : State) : (dropPress s).answers = s.answers := rfl
@[simp] theorem dropPress_draws (s : State) : (dropPress s).draws = s.draws := rfl
@[simp] theorem dropPress_trace (s : State) : (dropPress s).trace = s.trace := rfl
@[simp] theorem dropPress_outputs (s : State) : (dropPress s).outputs = s.outputs := rfl

/-! ### `resetEvent` -/

@[simp] theorem resetEvent_params (s : State) : (resetEvent s).params = s.params := rfl
@[simp] theorem resetEvent_cal (s : State) : (resetEvent s).cal = none := rfl
@[simp] theorem resetEvent_raw (s : State) : (resetEvent s).raw = none := rfl
@[simp] theorem resetEvent_tFine (s : State) : (resetEvent s).tFine = none := rfl
@[simp] theorem resetEvent_tempC (s : State) : (resetEvent s).tempC = none := rfl
@[simp] theorem resetEvent_press (s : State) : (resetEvent s).press = none := rfl
@[simp] theorem resetEvent_status (s : State) : (resetEvent s).status = 0 := rfl
@[simp] theorem resetEvent_seq (s : State) : (resetEvent s).seq = .idle := rfl
@[simp] theorem resetEvent_device (s : State) : (resetEvent s).device = s.device := rfl
@[simp] theorem resetEvent_events (s : State) : (resetEvent s).events = s.events := rfl
@[simp] theorem resetEvent_answers (s : State) : (resetEvent s).answers = s.answers := rfl
@[simp] theorem resetEvent_draws (s : State) : (resetEvent s).draws = s.draws := rfl
@[simp] theorem resetEvent_trace (s : State) : (resetEvent s).trace = s.trace := rfl
@[simp] theorem resetEvent_outputs (s : State) : (resetEvent s).outputs = s.outputs := rfl

/-! ### `sensorChange` -/

@[simp] theorem sensorChange_params (a : Addr) (v : Byte) (s : State) :
    (sensorChange a v s).params = s.params := rfl
@[simp] theorem sensorChange_cal (a : Addr) (v : Byte) (s : State) : (sensorChange a v s).cal = s.cal := rfl
@[simp] theorem sensorChange_raw (a : Addr) (v : Byte) (s : State) : (sensorChange a v s).raw = s.raw := rfl
@[simp] theorem sensorChange_tFine (a : Addr) (v : Byte) (s : State) :
    (sensorChange a v s).tFine = s.tFine := rfl
@[simp] theorem sensorChange_tempC (a : Addr) (v : Byte) (s : State) :
    (sensorChange a v s).tempC = s.tempC := rfl
@[simp] theorem sensorChange_press (a : Addr) (v : Byte) (s : State) :
    (sensorChange a v s).press = s.press := rfl
@[simp] theorem sensorChange_status (a : Addr) (v : Byte) (s : State) :
    (sensorChange a v s).status = s.status := rfl
@[simp] theorem sensorChange_seq (a : Addr) (v : Byte) (s : State) : (sensorChange a v s).seq = s.seq := rfl
@[simp] theorem sensorChange_device (a : Addr) (v : Byte) (s : State) :
    (sensorChange a v s).device = s.device.store a.toNat v := rfl
@[simp] theorem sensorChange_events (a : Addr) (v : Byte) (s : State) :
    (sensorChange a v s).events = s.events := rfl
@[simp] theorem sensorChange_answers (a : Addr) (v : Byte) (s : State) :
    (sensorChange a v s).answers = s.answers := rfl
@[simp] theorem sensorChange_draws (a : Addr) (v : Byte) (s : State) :
    (sensorChange a v s).draws = s.draws := rfl
@[simp] theorem sensorChange_trace (a : Addr) (v : Byte) (s : State) :
    (sensorChange a v s).trace = s.trace := rfl
@[simp] theorem sensorChange_outputs (a : Addr) (v : Byte) (s : State) :
    (sensorChange a v s).outputs = s.outputs := rfl

/-! ### `transport` -/

@[simp] theorem transport_params (r : Request) (s : State) : (transport r s).2.params = s.params := rfl
@[simp] theorem transport_cal (r : Request) (s : State) : (transport r s).2.cal = s.cal := rfl
@[simp] theorem transport_raw (r : Request) (s : State) : (transport r s).2.raw = s.raw := rfl
@[simp] theorem transport_tFine (r : Request) (s : State) : (transport r s).2.tFine = s.tFine := rfl
@[simp] theorem transport_tempC (r : Request) (s : State) : (transport r s).2.tempC = s.tempC := rfl
@[simp] theorem transport_press (r : Request) (s : State) : (transport r s).2.press = s.press := rfl
@[simp] theorem transport_status (r : Request) (s : State) : (transport r s).2.status = s.status := rfl
@[simp] theorem transport_seq (r : Request) (s : State) : (transport r s).2.seq = s.seq := rfl
@[simp] theorem transport_device (r : Request) (s : State) :
    (transport r s).2.device = deviceAfter s.device r (nextAnswer s) := rfl
@[simp] theorem transport_events (r : Request) (s : State) : (transport r s).2.events = s.events := rfl
@[simp] theorem transport_answers (r : Request) (s : State) :
    (transport r s).2.answers = s.answers.tail := rfl
@[simp] theorem transport_draws (r : Request) (s : State) : (transport r s).2.draws = s.draws + 1 := rfl
@[simp] theorem transport_trace (r : Request) (s : State) :
    (transport r s).2.trace = { request := r, reply := replyTo s r (nextAnswer s) } :: s.trace := rfl
@[simp] theorem transport_outputs (r : Request) (s : State) : (transport r s).2.outputs = s.outputs := rfl

end Sys2Proof.Machine
end

