-- ==== Sys2Proof/Laws/Ops.lean ====
section
/-! SUPPORT. One lemma per shared operation that says everything it can do: the device register space, the
transport primitives, running a command. -/

namespace Sys2Proof.Machine

/-! ### The device register space -/

theorem Memory.byteAt_store_same (m : Memory) (a : Nat) (v : Byte) : (m.store a v).byteAt a = some v := by
  induction m with
  | nil => simp [Memory.store, Memory.byteAt]
  | cons c m ih =>
    obtain ⟨x, w⟩ := c
    simp only [Memory.store]
    split_ifs with h1 h2
    · simp [Memory.byteAt]
    · simp [Memory.byteAt]
    · have : x ≠ a := fun h => h2 h.symm
      simp [Memory.byteAt, this, ih]

theorem Memory.byteAt_store_other (m : Memory) (a b : Nat) (v : Byte) (h : b ≠ a) :
    (m.store a v).byteAt b = m.byteAt b := by
  induction m with
  | nil => simp [Memory.store, Memory.byteAt, h.symm]
  | cons c m ih =>
    obtain ⟨x, w⟩ := c
    simp only [Memory.store]
    split_ifs with h1 h2
    · simp [Memory.byteAt, h.symm]
    · subst h2; simp [Memory.byteAt, h.symm]
    · simp only [Memory.byteAt, ih]

/-- The addresses of a memory after a store: the old ones and the one stored to. -/
theorem Memory.mem_store_fst (m : Memory) (a : Nat) (v : Byte) (x : Nat)
    (h : x ∈ (m.store a v).map Prod.fst) : x = a ∨ x ∈ m.map Prod.fst := by
  induction m with
  | nil => simp [Memory.store] at h; exact .inl h
  | cons c m ih =>
    obtain ⟨y, w⟩ := c
    simp only [Memory.store] at h
    split_ifs at h with h1 h2
    · simpa using h
    · simp only [List.map_cons, List.mem_cons] at h ⊢; tauto
    · simp only [List.map_cons, List.mem_cons] at h ⊢
      rcases h with h | h
      · exact .inr (.inl h)
      · rcases ih h with h | h
        · exact .inl h
        · exact .inr (.inr h)

theorem Memory.pairwise_store (m : Memory) (a : Nat) (v : Byte)
    (h : (m.map Prod.fst).Pairwise (· < ·)) : ((m.store a v).map Prod.fst).Pairwise (· < ·) := by
  induction m with
  | nil => simp [Memory.store]
  | cons c m ih =>
    obtain ⟨x, w⟩ := c
    simp only [List.map_cons, List.pairwise_cons] at h
    simp only [Memory.store]
    split_ifs with h1 h2
    · simp only [List.map_cons, List.pairwise_cons, List.mem_cons]
      refine ⟨fun b hb => ?_, h⟩
      rcases hb with rfl | hb
      · exact h1
      · exact h1.trans (h.1 b hb)
    · subst h2; simpa using h
    · simp only [List.map_cons, List.pairwise_cons]
      refine ⟨fun b hb => ?_, ih h.2⟩
      rcases Memory.mem_store_fst m a v b hb with rfl | hb
      · omega
      · exact h.1 b hb

/-- A store inside the 8-bit space keeps the canonical form. -/
theorem Memory.wf_store (m : Memory) (a : Nat) (v : Byte) (ha : a < 256) (h : m.wf = true) :
    (m.store a v).wf = true := by
  simp only [Memory.wf, Bool.and_eq_true, decide_eq_true_eq, List.all_eq_true] at h ⊢
  refine ⟨Memory.pairwise_store m a v h.1, fun c hc => ?_⟩
  rcases Memory.mem_store_fst m a v c.1 (List.mem_map_of_mem hc) with h' | h'
  · omega
  · obtain ⟨d, hd, hd'⟩ := List.mem_map.mp h'
    rw [← hd']; exact h.2 d hd

/-- A device address is inside the 8-bit space. -/
theorem addr_lt (a : Addr) : a.toNat < 256 := a.isLt

/-- Whatever the answer, a request keeps the canonical form of the device register space. -/
theorem wf_deviceAfter (m : Memory) (r : Request) (a : Answer) (h : m.wf = true) :
    (deviceAfter m r a).wf = true := by
  unfold deviceAfter
  split
  · exact Memory.wf_store _ _ _ (addr_lt _) h
  · exact Memory.wf_store _ _ _ (addr_lt _) h
  · exact h

/-- A read request leaves the device image as it is. -/
@[simp] theorem deviceAfter_readByte (m : Memory) (a : Addr) (x : Answer) :
    deviceAfter m (.readByte a) x = m := rfl
/-- A read request leaves the device image as it is. -/
@[simp] theorem deviceAfter_readBlock (m : Memory) (a : Addr) (n : Nat) (x : Answer) :
    deviceAfter m (.readBlock a n) x = m := rfl

/-- A write changes at most the byte it addresses. -/
theorem byteAt_deviceAfter_write (m : Memory) (a : Addr) (v : Byte) (x : Answer) (b : Nat)
    (h : b ≠ a.toNat) : (deviceAfter m (.writeByte a v) x).byteAt b = m.byteAt b := by
  unfold deviceAfter
  split <;> first | rfl | (rename_i h'; cases h'; exact Memory.byteAt_store_other _ _ _ _ h)

/-! ### The transport primitives -/

/-- Everything a block read can do: it raises `TransportError`, or it goes on with exactly `n` bytes. -/
theorem memRead_cases (a : Addr) (n : Nat) (k : List Byte → State → Micro) (s : State) :
    (memRead a n k s = .raise .transportError (transport (.readBlock a n) s).2) ∨
    (∃ bs, bs.length = n ∧ (transport (.readBlock a n) s).1 = .ok bs ∧
      memRead a n k s = k bs (transport (.readBlock a n) s).2) := by
  unfold memRead
  split
  · rename_i bs s' h
    rw [h]
    split_ifs with hl
    · exact .inr ⟨bs, hl, rfl, rfl⟩
    · exact .inl rfl
  · rename_i s' h
    rw [h]; exact .inl rfl

/-- Everything a byte read can do: it raises `TransportError`, or it goes on with one byte. -/
theorem memReadByte_cases (a : Addr) (k : Byte → State → Micro) (s : State) :
    (memReadByte a k s = .raise .transportError (transport (.readByte a) s).2) ∨
    (∃ b, (transport (.readByte a) s).1 = .ok [b] ∧
      memReadByte a k s = k b (transport (.readByte a) s).2) := by
  unfold memReadByte
  split
  · rename_i b s' h; rw [h]; exact .inr ⟨b, rfl, rfl⟩
  · rename_i s' _ h; rw [h]; exact .inl rfl
  · rename_i s' h; rw [h]; exact .inl rfl

/-- Everything a byte write can do: it raises `TransportError`, or it goes on. -/
theorem memWrite_cases (a : Addr) (v : Byte) (k : State → Micro) (s : State) :
    (memWrite a v k s = .raise .transportError (transport (.writeByte a v) s).2) ∨
    (memWrite a v k s = k (transport (.writeByte a v) s).2) := by
  unfold memWrite
  split
  · rename_i s' h; rw [h]; exact .inr rfl
  · rename_i s' h; rw [h]; exact .inl rfl

/-! ### Running a command -/

/-- What a predicate of states must satisfy to be kept by a micro-step: it holds of the state the micro-step
hands on, of the state after its error, of the state after its response. -/
def Micro.Keeps (P : State → Prop) : Micro → Prop
  | .next _ s => P s
  | .raise e s => P (raiseError e s)
  | .respond p s => P (respondOk p s)

/-- The induction over a command's micro-steps, packaged once: a predicate that does not look at `SEQ` and that
every micro-step keeps, is kept by the whole run. -/
theorem runFrom_keeps (P : State → Prop) (cmd : Instr)
    (hseq : ∀ s q, P s → P { s with seq := q }) :
    ∀ (ms : List MicroStep) (i : Nat) (tmp : List Byte) (s : State),
      (∀ m ∈ ms, ∀ tmp s, P s → (m tmp s).Keeps P) → P s → P (runFrom cmd ms i tmp s)
  | [], _, _, _, _, h => h
  | m :: ms, i, tmp, s, hm, h => by
    have h1 := hm m (by simp) tmp s h
    unfold runFrom
    split
    · rename_i tmp' s' e
      rw [e] at h1
      exact runFrom_keeps P cmd hseq ms (i + 1) tmp' _ (fun m' h' => hm m' (by simp [h'])) (hseq _ _ h1)
    · rename_i er s' e; rw [e] at h1; exact h1
    · rename_i p s' e; rw [e] at h1; exact h1

theorem runCommand_idle (cmd : Instr) (ms : List MicroStep) (s : State) (h : s.seq = .idle) :
    runCommand cmd ms s = runFrom cmd ms 0 [] (accept cmd s) := by
  simp [runCommand, h]

/-- R186: a busy block takes no command. -/
theorem runCommand_busy (cmd : Instr) (ms : List MicroStep) (s : State) (c : Instr) (i : Nat)
    (tmp : List Byte) (h : s.seq = .busy c i tmp) : runCommand cmd ms s = s := by
  simp [runCommand, h]

/-- One micro-step and then the rest. -/
theorem runFrom_cons (cmd : Instr) (m : MicroStep) (ms : List MicroStep) (i : Nat) (tmp : List Byte)
    (s : State) :
    runFrom cmd (m :: ms) i tmp s =
      match m tmp s with
      | .next tmp' s' => runFrom cmd ms (i + 1) tmp' { s' with seq := .busy cmd (i + 1) tmp' }
      | .raise e s' => raiseError e s'
      | .respond p s' => respondOk p s' := rfl

end Sys2Proof.Machine
end

