-- ==== Sys2Proof/Laws/Exec.lean ====
section
/-! SUPPORT. What `exec` and `step` are in terms of the shared operations. -/

namespace Sys2Proof.Machine

/-- Every command is the run of its list of micro-steps (R30). -/
theorem exec_eq_run (i : Instr) (s : State) :
    exec i s = .next (runCommand i (microSteps s.params i) s) := by
  cases i <;> rfl

theorem step_idle (s : State) (h : s.seq = .idle) : step s = idleStep s := by simp [step, h]

theorem step_busy (s : State) (c : Instr) (i : Nat) (tmp : List Byte) (h : s.seq = .busy c i tmp) :
    step s = busyStep s := by simp [step, h]

/-- What one micro-step of a busy block is. -/
theorem microStep_busy (s : State) (c : Instr) (i : Nat) (tmp : List Byte) (m : MicroStep)
    (h : s.seq = .busy c i tmp) (hm : (microSteps s.params c)[i]? = some m) :
    microStep s = some (settle c i (m tmp s)) := by
  simp [microStep, h, hm]

/-- `settle` on each way a micro-step ends. -/
@[simp] theorem settle_next (c : Instr) (i : Nat) (tmp : List Byte) (s : State) :
    settle c i (.next tmp s) = { s with seq := .busy c (i + 1) tmp } := rfl
@[simp] theorem settle_raise (c : Instr) (i : Nat) (e : Err) (s : State) :
    settle c i (.raise e s) = raiseError e s := rfl
@[simp] theorem settle_respond (c : Instr) (i : Nat) (p : Payload) (s : State) :
    settle c i (.respond p s) = respondOk p s := rfl

end Sys2Proof.Machine
end

