-- ==== Sys2Proof/Laws/Commands.lean ====
section
/-! SUPPORT. For each command, once, everything it can do from an idle block: the states it can end in, one per
way it can end, in terms of the transport and of the end of a command. Every statement about a command's outcomes,
flags, requests or frame is a case analysis of these. -/

namespace Sys2Proof.Machine

/-! ### The sequencer does not matter to what a micro-step does -/

@[simp] theorem respondOk_with_seq (p : Payload) (s : State) (q : Seq) :
    respondOk p { s with seq := q } = respondOk p s := rfl
@[simp] theorem raiseError_with_seq (e : Err) (s : State) (q : Seq) :
    raiseError e { s with seq := q } = raiseError e s := rfl
@[simp] theorem commitCal_with_seq (c : Cal) (s : State) (q : Seq) :
    commitCal c { s with seq := q } = { commitCal c s with seq := q } := rfl
@[simp] theorem commitRaw_with_seq (r : RawSample) (s : State) (q : Seq) :
    commitRaw r { s with seq := q } = { commitRaw r s with seq := q } := rfl
@[simp] theorem commitTemp_with_seq (tc tf : F64) (s : State) (q : Seq) :
    commitTemp tc tf { s with seq := q } = { commitTemp tc tf s with seq := q } := rfl
@[simp] theorem commitPress_with_seq (x : F64) (s : State) (q : Seq) :
    commitPress x { s with seq := q } = { commitPress x s with seq := q } := rfl
@[simp] theorem dropPress_with_seq (s : State) (q : Seq) :
    dropPress { s with seq := q } = { dropPress s with seq := q } := rfl

@[simp] theorem nextAnswer_with_seq (s : State) (q : Seq) : nextAnswer { s with seq := q } = nextAnswer s := rfl
@[simp] theorem deviceByte_with_seq (s : State) (q : Seq) (a : Nat) :
    deviceByte { s with seq := q } a = deviceByte s a := rfl
@[simp] theorem replyTo_with_seq (s : State) (q : Seq) (r : Request) (a : Answer) :
    replyTo { s with seq := q } r a = replyTo s r a := by
  cases a <;> cases r <;> rfl

theorem transport_with_seq (r : Request) (s : State) (q : Seq) :
    transport r { s with seq := q } = ((transport r s).1, { (transport r s).2 with seq := q }) := by
  simp [transport]

/-- What a request changes: the four records of the bus, nothing of the block. -/
theorem transport_snd (r : Request) (s : State) :
    (transport r s).2 = { s with
      device := deviceAfter s.device r (nextAnswer s)
      answers := s.answers.tail
      draws := s.draws + 1
      trace := { request := r, reply := (transport r s).1 } :: s.trace } := rfl

/-! ### The commands without a request -/

theorem exec_encctl (ot op : Osrs) (m : Mode) (s : State) (h : s.seq = .idle) :
    exec (.encctl ot op m) s = .next (respondOk (.byte (packCtrl s.params ot op m)) s) := by
  simp [exec, execEncctl, runCommand, h, runFrom, encctlSteps, accept]

theorem exec_encflt (sb : Standby) (f : Filter) (w : Bool) (s : State) (h : s.seq = .idle) :
    exec (.encflt sb f w) s = .next (respondOk (.byte (packCfg s.params sb f w)) s) := by
  simp [exec, execEncflt, runCommand, h, runFrom, encfltSteps, accept]

/-- How the decoding of a control byte ends a command. -/
theorem decodeCtrl_cases (b : Byte) (s : State) :
    (∃ ot op m, unpackCtrl s.params b = (some ot, some op, some m) ∧
      decodeCtrl b s = .respond (.control ot op m) s) ∨
    ((∀ ot op m, unpackCtrl s.params b ≠ (some ot, some op, some m)) ∧
      decodeCtrl b s = .raise .reservedCode s) := by
  unfold decodeCtrl
  split
  · rename_i ot op m h; exact .inl ⟨ot, op, m, h, rfl⟩
  · rename_i h; exact .inr ⟨h, rfl⟩

/-- How the decoding of a filter byte ends a command. -/
theorem decodeCfg_cases (b : Byte) (s : State) :
    (∃ sb f w, unpackCfg s.params b = (some sb, some f, some w) ∧
      decodeCfg b s = .respond (.filter sb f w) s) ∨
    ((∀ sb f w, unpackCfg s.params b ≠ (some sb, some f, some w)) ∧
      decodeCfg b s = .raise .reservedCode s) := by
  unfold decodeCfg
  split
  · rename_i sb f w h; exact .inl ⟨sb, f, w, h, rfl⟩
  · rename_i h; exact .inr ⟨h, rfl⟩

theorem exec_decctl_cases (b : Byte) (s : State) (h : s.seq = .idle) :
    (∃ ot op m, unpackCtrl s.params b = (some ot, some op, some m) ∧
      exec (.decctl b) s = .next (respondOk (.control ot op m) s)) ∨
    ((∀ ot op m, unpackCtrl s.params b ≠ (some ot, some op, some m)) ∧
      exec (.decctl b) s = .next (raiseError .reservedCode s)) := by
  rcases decodeCtrl_cases b (accept (.decctl b) s) with ⟨ot, op, m, hu, hd⟩ | ⟨hu, hd⟩
  · exact .inl ⟨ot, op, m, hu, by
      simp [exec, execDecctl, runCommand, h, runFrom, decctlSteps, hd]; simp [accept]⟩
  · exact .inr ⟨hu, by simp [exec, execDecctl, runCommand, h, runFrom, decctlSteps, hd]; simp [accept]⟩

theorem exec_decflt_cases (b : Byte) (s : State) (h : s.seq = .idle) :
    (∃ sb f w, unpackCfg s.params b = (some sb, some f, some w) ∧
      exec (.decflt b) s = .next (respondOk (.filter sb f w) s)) ∨
    ((∀ sb f w, unpackCfg s.params b ≠ (some sb, some f, some w)) ∧
      exec (.decflt b) s = .next (raiseError .reservedCode s)) := by
  rcases decodeCfg_cases b (accept (.decflt b) s) with ⟨sb, f, w, hu, hd⟩ | ⟨hu, hd⟩
  · exact .inl ⟨sb, f, w, hu, by
      simp [exec, execDecflt, runCommand, h, runFrom, decfltSteps, hd]; simp [accept]⟩
  · exact .inr ⟨hu, by simp [exec, execDecflt, runCommand, h, runFrom, decfltSteps, hd]; simp [accept]⟩

/-- Everything the temperature step can do. -/
theorem tempStep_cases (k : F64 → F64 → State → Micro) (s : State) :
    (s.cal = none ∧ tempStep k s = .raise .calibrationMissing s) ∨
    (∃ c, s.cal = some c ∧ s.raw = none ∧ tempStep k s = .raise .operandMissing s) ∨
    (∃ c r, s.cal = some c ∧ s.raw = some r ∧
      tempStep k s = k (compT r.adcT c.t1 c.t2 c.t3).1 (compT r.adcT c.t1 c.t2 c.t3).2
        (commitTemp (compT r.adcT c.t1 c.t2 c.t3).1 (compT r.adcT c.t1 c.t2 c.t3).2 s)) := by
  unfold tempStep
  split
  · rename_i h; exact .inl ⟨h, rfl⟩
  · rename_i c h
    split
    · rename_i h'; exact .inr (.inl ⟨c, h, h', rfl⟩)
    · rename_i r h'; exact .inr (.inr ⟨c, r, h, h', rfl⟩)

/-- Everything the pressure step can do. -/
theorem pressStep_cases (k : F64 → State → Micro) (s : State) :
    (s.cal = none ∧ pressStep k s = .raise .calibrationMissing s) ∨
    (∃ c, s.cal = some c ∧ (s.raw = none ∨ s.tFine = none) ∧ pressStep k s = .raise .operandMissing s) ∨
    (∃ c r tf, s.cal = some c ∧ s.raw = some r ∧ s.tFine = some tf ∧
      ((compP r.adcP tf c = none ∧ pressStep k s = .raise .arithmeticError (dropPress s)) ∨
       ∃ x, compP r.adcP tf c = some x ∧ pressStep k s = k x (commitPress x s))) := by
  unfold pressStep
  split
  · rename_i h; exact .inl ⟨h, rfl⟩
  · rename_i c h
    split
    · rename_i r tf h1 h2
      refine .inr (.inr ⟨c, r, tf, h, h1, h2, ?_⟩)
      split
      · rename_i h'; exact .inl ⟨h', rfl⟩
      · rename_i x h'; exact .inr ⟨x, h', rfl⟩
    · rename_i h'
      refine .inr (.inl ⟨c, h, ?_, rfl⟩)
      cases h1 : s.raw with
      | none => exact .inl rfl
      | some r =>
        cases h2 : s.tFine with
        | none => exact .inr rfl
        | some tf => exact absurd h2 (h' r tf h1)

theorem exec_cmpt_cases (s : State) (h : s.seq = .idle) :
    (s.cal = none ∧ exec .cmpt s = .next (raiseError .calibrationMissing s)) ∨
    (∃ c, s.cal = some c ∧ s.raw = none ∧ exec .cmpt s = .next (raiseError .operandMissing s)) ∨
    (∃ c r, s.cal = some c ∧ s.raw = some r ∧
      exec .cmpt s = .next (respondOk
        (.temperature (compT r.adcT c.t1 c.t2 c.t3).1 (compT r.adcT c.t1 c.t2 c.t3).2)
        (commitTemp (compT r.adcT c.t1 c.t2 c.t3).1 (compT r.adcT c.t1 c.t2 c.t3).2 s))) := by
  have e : ∀ m, tempStep (fun tc tf s' => .respond (.temperature tc tf) s') (accept .cmpt s) = m →
      exec .cmpt s = .next (settle .cmpt 0 m) := by
    rintro m rfl
    simp only [exec, execCmpt, runCommand, h, runFrom, cmptSteps]
    split <;> rename_i h' <;> simp [h']
  rcases tempStep_cases _ (accept .cmpt s) with ⟨h1, h2⟩ | ⟨c, h1, h2, h3⟩ | ⟨c, r, h1, h2, h3⟩
  · exact .inl ⟨h1, e _ h2⟩
  · exact .inr (.inl ⟨c, h1, h2, e _ h3⟩)
  · exact .inr (.inr ⟨c, r, h1, h2, e _ h3⟩)

theorem exec_cmpp_cases (s : State) (h : s.seq = .idle) :
    (s.cal = none ∧ exec .cmpp s = .next (raiseError .calibrationMissing s)) ∨
    (∃ c, s.cal = some c ∧ (s.raw = none ∨ s.tFine = none) ∧
      exec .cmpp s = .next (raiseError .operandMissing s)) ∨
    (∃ c r tf, s.cal = some c ∧ s.raw = some r ∧ s.tFine = some tf ∧
      ((compP r.adcP tf c = none ∧ exec .cmpp s = .next (raiseError .arithmeticError (dropPress s))) ∨
       ∃ x, compP r.adcP tf c = some x ∧
        exec .cmpp s = .next (respondOk (.pressure x) (commitPress x s)))) := by
  have e : ∀ m, pressStep (fun x s' => .respond (.pressure x) s') (accept .cmpp s) = m →
      exec .cmpp s = .next (settle .cmpp 0 m) := by
    rintro m rfl
    simp only [exec, execCmpp, runCommand, h, runFrom, cmppSteps]
    split <;> rename_i h' <;> simp [h']
  rcases pressStep_cases _ (accept .cmpp s) with
    ⟨h1, h2⟩ | ⟨c, h1, h2, h3⟩ | ⟨c, r, tf, h1, h2, h3, ⟨h4, h5⟩ | ⟨x, h4, h5⟩⟩
  · exact .inl ⟨h1, e _ h2⟩
  · exact .inr (.inl ⟨c, h1, h2, e _ h3⟩)
  · exact .inr (.inr ⟨c, r, tf, h1, h2, h3, .inl ⟨h4, e _ h5⟩⟩)
  · exact .inr (.inr ⟨c, r, tf, h1, h2, h3, .inr ⟨x, h4, e _ h5⟩⟩)

/-! ### The verified writes -/

/-- The state after the two requests of `WriteVerify`. -/
abbrev afterVerify (a : Addr) (b : Byte) (s : State) : State :=
  (transport (.readByte a) (transport (.writeByte a b) s).2).2

/-- Everything `WriteVerify` can do as the last part of a command. -/
theorem runFrom_writeVerify_last (cmd : Instr) (a : Addr) (b : Byte) (i : Nat) (tmp : List Byte) (s : State) :
    runFrom cmd (writeVerify a b fun s => .respond .none s) i tmp s =
      raiseError .transportError (transport (.writeByte a b) s).2 ∨
    runFrom cmd (writeVerify a b fun s => .respond .none s) i tmp s =
      raiseError .transportError (afterVerify a b s) ∨
    runFrom cmd (writeVerify a b fun s => .respond .none s) i tmp s =
      raiseError .verificationFailed (afterVerify a b s) ∨
    runFrom cmd (writeVerify a b fun s => .respond .none s) i tmp s =
      respondOk .none (afterVerify a b s) := by
  simp only [writeVerify, runFrom_cons]
  rcases memWrite_cases a b (fun s' => .next [] s') s with h | h <;> rw [h]
  · exact .inl rfl
  · rcases memReadByte_cases a (fun r s' => if r = b then .respond .none s' else .raise .verificationFailed s')
      { (transport (.writeByte a b) s).2 with seq := .busy cmd (i + 1) [] } with h | ⟨r, -, h⟩
    · simp only [h]; exact .inr (.inl rfl)
    · simp only [h]
      split_ifs
      · exact .inr (.inr (.inr rfl))
      · exact .inr (.inr (.inl rfl))

/-- Everything `WriteVerify` can do where another part of the command follows. -/
theorem runFrom_writeVerify_then (cmd : Instr) (a : Addr) (b : Byte) (ms : List MicroStep) (i : Nat)
    (tmp : List Byte) (s : State) :
    runFrom cmd (writeVerify a b (fun s => .next [] s) ++ ms) i tmp s =
      raiseError .transportError (transport (.writeByte a b) s).2 ∨
    runFrom cmd (writeVerify a b (fun s => .next [] s) ++ ms) i tmp s =
      raiseError .transportError (afterVerify a b s) ∨
    runFrom cmd (writeVerify a b (fun s => .next [] s) ++ ms) i tmp s =
      raiseError .verificationFailed (afterVerify a b s) ∨
    runFrom cmd (writeVerify a b (fun s => .next [] s) ++ ms) i tmp s =
      runFrom cmd ms (i + 2) [] { afterVerify a b s with seq := .busy cmd (i + 2) [] } := by
  simp only [writeVerify, List.cons_append, List.nil_append, runFrom_cons]
  rcases memWrite_cases a b (fun s' => .next [] s') s with h | h <;> rw [h]
  · exact .inl rfl
  · rcases memReadByte_cases a (fun r s' => if r = b then .next [] s' else .raise .verificationFailed s')
      { (transport (.writeByte a b) s).2 with seq := .busy cmd (i + 1) [] } with h | ⟨r, -, h⟩
    · simp only [h]; exact .inr (.inl rfl)
    · simp only [h]
      split_ifs
      · exact .inr (.inr (.inr rfl))
      · exact .inr (.inr (.inl rfl))

theorem exec_apctl_cases (ot op : Osrs) (m : Mode) (s : State) (h : s.seq = .idle) :
    ∃ t, exec (.apctl ot op m) s = .next t ∧
      (t = raiseError .transportError (transport (.writeByte s.params.ctrlAddr (packCtrl s.params ot op m)) s).2 ∨
       t = raiseError .transportError (afterVerify s.params.ctrlAddr (packCtrl s.params ot op m) s) ∨
       t = raiseError .verificationFailed (afterVerify s.params.ctrlAddr (packCtrl s.params ot op m) s) ∨
       t = respondOk .none (afterVerify s.params.ctrlAddr (packCtrl s.params ot op m) s)) := by
  refine ⟨_, rfl, ?_⟩
  rw [runCommand_idle _ _ _ h]
  exact runFrom_writeVerify_last (.apctl ot op m) s.params.ctrlAddr (packCtrl s.params ot op m) 0 []
      (accept (.apctl ot op m) s)

theorem exec_apflt_cases (sb : Standby) (f : Filter) (w : Bool) (s : State) (h : s.seq = .idle) :
    ∃ t, exec (.apflt sb f w) s = .next t ∧
      (t = raiseError .transportError (transport (.writeByte s.params.configAddr (packCfg s.params sb f w)) s).2 ∨
       t = raiseError .transportError (afterVerify s.params.configAddr (packCfg s.params sb f w) s) ∨
       t = raiseError .verificationFailed (afterVerify s.params.configAddr (packCfg s.params sb f w) s) ∨
       t = respondOk .none (afterVerify s.params.configAddr (packCfg s.params sb f w) s)) := by
  refine ⟨_, rfl, ?_⟩
  rw [runCommand_idle _ _ _ h]
  exact runFrom_writeVerify_last (.apflt sb f w) s.params.configAddr (packCfg s.params sb f w) 0 []
      (accept (.apflt sb f w) s)

/-- Everything two verified writes in a row can do. -/
theorem runFrom_writeVerify_twice (cmd : Instr) (a : Addr) (b : Byte) (a' : Addr) (b' : Byte) (i : Nat)
    (tmp : List Byte) (s : State) :
    ∃ t, runFrom cmd (writeVerify a b (fun s => .next [] s) ++
        writeVerify a' b' (fun s => .respond .none s)) i tmp s = t ∧
      (t = raiseError .transportError (transport (.writeByte a b) s).2 ∨
       t = raiseError .transportError (afterVerify a b s) ∨
       t = raiseError .verificationFailed (afterVerify a b s) ∨
       t = raiseError .transportError (transport (.writeByte a' b') (afterVerify a b s)).2 ∨
       t = raiseError .transportError (afterVerify a' b' (afterVerify a b s)) ∨
       t = raiseError .verificationFailed (afterVerify a' b' (afterVerify a b s)) ∨
       t = respondOk .none (afterVerify a' b' (afterVerify a b s))) := by
  refine ⟨_, rfl, ?_⟩
  rcases runFrom_writeVerify_then cmd a b (writeVerify a' b' fun s => .respond .none s) i tmp s with
    h | h | h | h
  · exact .inl h
  · exact .inr (.inl h)
  · exact .inr (.inr (.inl h))
  · rw [h]
    have := runFrom_writeVerify_last cmd a' b' (i + 2) [] { afterVerify a b s with seq := .busy cmd (i + 2) [] }
    exact .inr (.inr (.inr this))

/-- The two verified writes of `CONFIG`, in the order of the parameter: address and byte of each. -/
def configWrites (p : Params) (ot op : Osrs) (m : Mode) (sb : Standby) (f : Filter) (w : Bool) :
    (Addr × Byte) × (Addr × Byte) :=
  match p.order with
  | .controlFirst => ((p.ctrlAddr, packCtrl p ot op m), (p.configAddr, packCfg p sb f w))
  | .filterFirst => ((p.configAddr, packCfg p sb f w), (p.ctrlAddr, packCtrl p ot op m))

theorem configSteps_eq (p : Params) (ot op : Osrs) (m : Mode) (sb : Standby) (f : Filter) (w : Bool) :
    configSteps p ot op m sb f w =
      writeVerify (configWrites p ot op m sb f w).1.1 (configWrites p ot op m sb f w).1.2 (fun s => .next [] s) ++
      writeVerify (configWrites p ot op m sb f w).2.1 (configWrites p ot op m sb f w).2.2
        (fun s => .respond .none s) := by
  unfold configSteps configWrites
  cases p.order <;> rfl

theorem exec_config_cases (ot op : Osrs) (m : Mode) (sb : Standby) (f : Filter) (w : Bool) (s : State)
    (h : s.seq = .idle) :
    ∃ t, exec (.config ot op m sb f w) s = .next t ∧
      let c := configWrites s.params ot op m sb f w
      (t = raiseError .transportError (transport (.writeByte c.1.1 c.1.2) s).2 ∨
       t = raiseError .transportError (afterVerify c.1.1 c.1.2 s) ∨
       t = raiseError .verificationFailed (afterVerify c.1.1 c.1.2 s) ∨
       t = raiseError .transportError (transport (.writeByte c.2.1 c.2.2) (afterVerify c.1.1 c.1.2 s)).2 ∨
       t = raiseError .transportError (afterVerify c.2.1 c.2.2 (afterVerify c.1.1 c.1.2 s)) ∨
       t = raiseError .verificationFailed (afterVerify c.2.1 c.2.2 (afterVerify c.1.1 c.1.2 s)) ∨
       t = respondOk .none (afterVerify c.2.1 c.2.2 (afterVerify c.1.1 c.1.2 s))) := by
  refine ⟨_, rfl, ?_⟩
  rw [runCommand_idle _ _ _ h, configSteps_eq]
  obtain ⟨t, ht, hc⟩ := runFrom_writeVerify_twice (.config ot op m sb f w)
    (configWrites s.params ot op m sb f w).1.1 (configWrites s.params ot op m sb f w).1.2
    (configWrites s.params ot op m sb f w).2.1 (configWrites s.params ot op m sb f w).2.2 0 []
    (accept (.config ot op m sb f w) s)
  rw [ht]
  exact hc

/-! ### The reads -/

theorem exec_rdctl_cases (s : State) (h : s.seq = .idle) :
    let s' := (transport (.readByte s.params.ctrlAddr) s).2
    exec .rdctl s = .next (raiseError .transportError s') ∨
    ∃ b, (transport (.readByte s.params.ctrlAddr) s).1 = .ok [b] ∧
      ((∃ ot op m, unpackCtrl s.params b = (some ot, some op, some m) ∧
        exec .rdctl s = .next (respondOk (.control ot op m) s')) ∨
       ((∀ ot op m, unpackCtrl s.params b ≠ (some ot, some op, some m)) ∧
        exec .rdctl s = .next (raiseError .reservedCode s'))) := by
  intro s'
  simp only [exec, execRdctl]
  rw [runCommand_idle _ _ _ h, rdctlSteps, runFrom_cons]
  rcases memReadByte_cases s.params.ctrlAddr (fun b s' => .next [b] s') (accept .rdctl s) with
    h1 | ⟨b, hb, h1⟩ <;> rw [h1] <;> simp only [accept, transport_with_seq] at *
  · exact .inl rfl
  · refine .inr ⟨b, hb, ?_⟩
    rw [runFrom_cons]
    rcases decodeCtrl_cases b { (transport (.readByte s.params.ctrlAddr) s).2 with seq := .busy .rdctl 1 [b] }
      with ⟨ot, op, m, hu, hd⟩ | ⟨hu, hd⟩
    · exact .inl ⟨ot, op, m, hu, by simp only [hd, Nat.zero_add]; rfl⟩
    · exact .inr ⟨hu, by simp only [hd, Nat.zero_add]; rfl⟩

theorem exec_rdflt_cases (s : State) (h : s.seq = .idle) :
    let s' := (transport (.readByte s.params.configAddr) s).2
    exec .rdflt s = .next (raiseError .transportError s') ∨
    ∃ b, (transport (.readByte s.params.configAddr) s).1 = .ok [b] ∧
      ((∃ sb f w, unpackCfg s.params b = (some sb, some f, some w) ∧
        exec .rdflt s = .next (respondOk (.filter sb f w) s')) ∨
       ((∀ sb f w, unpackCfg s.params b ≠ (some sb, some f, some w)) ∧
        exec .rdflt s = .next (raiseError .reservedCode s'))) := by
  intro s'
  simp only [exec, execRdflt]
  rw [runCommand_idle _ _ _ h, rdfltSteps, runFrom_cons]
  rcases memReadByte_cases s.params.configAddr (fun b s' => .next [b] s') (accept .rdflt s) with
    h1 | ⟨b, hb, h1⟩ <;> rw [h1] <;> simp only [accept, transport_with_seq] at *
  · exact .inl rfl
  · refine .inr ⟨b, hb, ?_⟩
    rw [runFrom_cons]
    rcases decodeCfg_cases b { (transport (.readByte s.params.configAddr) s).2 with seq := .busy .rdflt 1 [b] }
      with ⟨sb, f, w, hu, hd⟩ | ⟨hu, hd⟩
    · exact .inl ⟨sb, f, w, hu, by simp only [hd, Nat.zero_add]; rfl⟩
    · exact .inr ⟨hu, by simp only [hd, Nat.zero_add]; rfl⟩

/-- Six bytes are a raw sample. -/
theorem sampleOfBytes_six (bs : List Byte) (h : bs.length = 6) : ∃ r, sampleOfBytes bs = some r := by
  match bs, h with
  | [_, _, _, _, _, _], _ => exact ⟨_, rfl⟩

theorem exec_rdraw_cases (s : State) (h : s.seq = .idle) :
    let s' := (transport (.readBlock s.params.dataBase 6) s).2
    exec .rdraw s = .next (raiseError .transportError s') ∨
    ∃ bs r, (transport (.readBlock s.params.dataBase 6) s).1 = .ok bs ∧ sampleOfBytes bs = some r ∧
      exec .rdraw s = .next (respondOk (.sample r.adcP r.adcT) (commitRaw r s')) := by
  intro s'
  simp only [exec, execRdraw]
  rw [runCommand_idle _ _ _ h, rdrawSteps, runFrom_cons, burstStep]
  rcases memRead_cases s.params.dataBase 6 (fun bs s' => .next bs s') (accept .rdraw s) with
    h1 | ⟨bs, hl, hb, h1⟩ <;> rw [h1]
  · exact .inl rfl
  · obtain ⟨r, hr⟩ := sampleOfBytes_six bs hl
    refine .inr ⟨bs, r, hb, hr, ?_⟩
    simp only [runFrom_cons, sampleStep, hr]
    rfl

theorem exec_acq_cases (s : State) (h : s.seq = .idle) :
    let s' := (transport (.readBlock s.params.dataBase 6) s).2
    (s.cal = none ∧ exec .acq s = .next (raiseError .calibrationMissing s)) ∨
    ∃ c, s.cal = some c ∧
      (exec .acq s = .next (raiseError .transportError s') ∨
      ∃ bs r, (transport (.readBlock s.params.dataBase 6) s).1 = .ok bs ∧ sampleOfBytes bs = some r ∧
        let tc := (compT r.adcT c.t1 c.t2 c.t3).1
        let tf := (compT r.adcT c.t1 c.t2 c.t3).2
        ((compP r.adcP tf c = none ∧
          exec .acq s = .next (raiseError .arithmeticError (dropPress (commitTemp tc tf (commitRaw r s'))))) ∨
         ∃ x, compP r.adcP tf c = some x ∧
          exec .acq s = .next (respondOk (.reading x tc) (commitPress x (commitTemp tc tf (commitRaw r s')))))) := by
  obtain ⟨params, cal, raw, tFine, tempC, press, status, seq, device, events, answers, draws, trace, outputs⟩ := s
  dsimp only at h
  subst h
  intro s'
  cases cal with
  | none => exact .inl ⟨rfl, rfl⟩
  | some c =>
    refine .inr ⟨c, rfl, ?_⟩
    simp only [exec, execAcq]
    rw [runCommand_idle _ _ _ rfl, acqSteps, runFrom_cons, acqCheck]
    simp only [accept, runFrom_cons, burstStep]
    rcases memRead_cases params.dataBase 6 (fun bs s' => .next bs s')
      ⟨params, some c, raw, tFine, tempC, press, status, .busy .acq 1 [], device, events, answers, draws, trace,
        outputs⟩ with h1 | ⟨bs, hl, hb, h1⟩
    · left; simp only [h1]; rfl
    · obtain ⟨r, hr⟩ := sampleOfBytes_six bs hl
      refine .inr ⟨bs, r, hb, hr, ?_⟩
      simp only [h1, sampleStep, hr, tempStep, commitRaw, transport, pressStep, commitTemp]
      cases hp : compP r.adcP (compT r.adcT c.t1 c.t2 c.t3).2 c with
      | none => exact .inl ⟨rfl, rfl⟩
      | some x => exact .inr ⟨x, rfl, rfl⟩

/-! ### The calibration load -/

/-- The state after the reads `j` to `j + n - 1` of `LDCAL`. -/
def readsFrom (p : Params) : Nat → Nat → State → State
  | _, 0, s => s
  | j, n + 1, s => readsFrom p (j + 1) n (transport (.readBlock (p.calBase + BitVec.ofNat 8 (2 * j)) 2) s).2

/-- Twenty-four bytes are a set of coefficients. -/
theorem calOfBytes_24 (bs : List Byte) (h : bs.length = 24) : ∃ c, calOfBytes bs = some c := by
  match bs, h with
  | [_, _, _, _, _, _, _, _, _, _, _, _, _, _, _, _, _, _, _, _, _, _, _, _], _ => exact ⟨_, rfl⟩

theorem readsFrom_with_seq (p : Params) (q : Seq) : ∀ (n j : Nat) (s : State),
    readsFrom p j n { s with seq := q } = { readsFrom p j n s with seq := q }
  | 0, _, _ => rfl
  | n + 1, j, s => by
    simp only [readsFrom, transport_with_seq]
    exact readsFrom_with_seq p q n (j + 1) _

/-- The induction over the reads of `LDCAL`: the first bad one ends the command, else the set is committed. -/
theorem runFrom_ldcal (p : Params) : ∀ (n j : Nat) (tmp : List Byte) (s : State),
    j + n = 12 → tmp.length = 2 * j →
    (∃ k < n, runFrom .ldcal ((List.range' j n).map (ldcalRead p) ++ [ldcalCommit]) j tmp s =
      raiseError .transportError (readsFrom p j (k + 1) s)) ∨
    (∃ c, runFrom .ldcal ((List.range' j n).map (ldcalRead p) ++ [ldcalCommit]) j tmp s =
      respondOk (.coefficients c) (commitCal c (readsFrom p j n s)))
  | 0, j, tmp, s, hj, hl => by
    obtain ⟨c, hc⟩ := calOfBytes_24 tmp (by omega)
    refine .inr ⟨c, ?_⟩
    simp [runFrom, ldcalCommit, hc, readsFrom]
  | n + 1, j, tmp, s, hj, hl => by
    simp only [List.range'_succ, List.map_cons, List.cons_append, runFrom_cons, ldcalRead]
    rcases memRead_cases (p.calBase + BitVec.ofNat 8 (2 * j)) 2 (fun bs s' => .next (tmp ++ bs) s') s with
      h | ⟨bs, hb, -, h⟩ <;> rw [h]
    · exact .inl ⟨0, by omega, rfl⟩
    · have ih := runFrom_ldcal p n (j + 1) (tmp ++ bs)
        { (transport (.readBlock (p.calBase + BitVec.ofNat 8 (2 * j)) 2) s).2 with
          seq := .busy .ldcal (j + 1) (tmp ++ bs) } (by omega) (by simp [hl, hb]; omega)
      simp only [readsFrom_with_seq, raiseError_with_seq, commitCal_with_seq, respondOk_with_seq] at ih
      rcases ih with ⟨k, hk, h⟩ | ⟨c, h⟩
      · exact .inl ⟨k + 1, by omega, h⟩
      · exact .inr ⟨c, h⟩

theorem exec_ldcal_cases (s : State) (h : s.seq = .idle) :
    (∃ k < 12, exec .ldcal s = .next (raiseError .transportError (readsFrom s.params 0 (k + 1) s))) ∨
    (∃ c, exec .ldcal s = .next (respondOk (.coefficients c) (commitCal c (readsFrom s.params 0 12 s)))) := by
  simp only [exec, execLdcal]
  rw [runCommand_idle _ _ _ h]
  have := runFrom_ldcal s.params 12 0 [] (accept .ldcal s) rfl rfl
  simp only [accept, readsFrom_with_seq, raiseError_with_seq, commitCal_with_seq, respondOk_with_seq] at this
  rcases this with ⟨k, hk, h⟩ | ⟨c, h⟩
  · exact .inl ⟨k, hk, congrArg _ h⟩
  · exact .inr ⟨c, congrArg _ h⟩

/-- The reads of `LDCAL` change the records of the bus only. -/
theorem readsFrom_frame (p : Params) : ∀ (n j : Nat) (s : State),
    ∃ es : List BusEntry,
      readsFrom p j n s = { s with
        answers := s.answers.drop n
        draws := s.draws + n
        trace := es.reverse ++ s.trace } ∧
      es.map (·.request) =
        (List.range' j n).map fun k => .readBlock (p.calBase + BitVec.ofNat 8 (2 * k)) 2
  | 0, _, s => ⟨[], by simp [readsFrom], rfl⟩
  | n + 1, j, s => by
    obtain ⟨es, h, hr⟩ := readsFrom_frame p n (j + 1)
      (transport (.readBlock (p.calBase + BitVec.ofNat 8 (2 * j)) 2) s).2
    refine ⟨{ request := .readBlock (p.calBase + BitVec.ofNat 8 (2 * j)) 2,
              reply := (transport (.readBlock (p.calBase + BitVec.ofNat 8 (2 * j)) 2) s).1 } :: es, ?_, ?_⟩
    · simp only [readsFrom, h]
      simp [transport, Nat.add_assoc, Nat.add_comm 1, deviceAfter]
    · simp only [List.map_cons, hr, List.range'_succ]

end Sys2Proof.Machine
end

