-- ==== Sys2Proof/Laws/Float64.lean ====
section
/-! SUPPORT. The binary64 arithmetic: what a pattern's magnitude is, that rounding is monotone and exact on
representable numbers, and one lemma per operation that gives its result from the exact one. All magnitudes
are in units of 2^-1074. -/

namespace Sys2Proof.Machine

/-- 2^1024 in units: every finite magnitude is below it. -/
def fLimit : Nat := 2 ^ 2098

theorem unitsPerOne_pos : 0 < unitsPerOne := Nat.pos_of_ne_zero (by unfold unitsPerOne; positivity)

/-! ### Patterns and their fields -/

/-- The magnitude of the 63-bit pattern `p`. -/
def patMag (p : Nat) : Nat :=
  if p / 2 ^ 52 = 0 then p % 2 ^ 52 else (2 ^ 52 + p % 2 ^ 52) * 2 ^ (p / 2 ^ 52 - 1)

/-- A magnitude with at most 53 significant bits. -/
def Rep (M : Nat) : Prop := ∃ c j, M = c * 2 ^ j ∧ c ≤ 2 ^ 53

theorem fPack_toNat (neg : Bool) (p : Nat) (hp : p < 2 ^ 63) :
    (fPack neg p).toNat = if neg then 2 ^ 63 + p else p := by
  unfold fPack
  rw [BitVec.toNat_ofNat]
  apply Nat.mod_eq_of_lt
  split <;> omega

theorem fExp_fPack (neg : Bool) (p : Nat) (hp : p < 2 ^ 63) : fExp (fPack neg p) = p / 2 ^ 52 := by
  unfold fExp
  rw [fPack_toNat neg p hp]
  split <;> omega

theorem fFrac_fPack (neg : Bool) (p : Nat) (hp : p < 2 ^ 63) : fFrac (fPack neg p) = p % 2 ^ 52 := by
  unfold fFrac
  rw [fPack_toNat neg p hp]
  split <;> omega

theorem fSign_fPack (neg : Bool) (p : Nat) (hp : p < 2 ^ 63) : fSign (fPack neg p) = neg := by
  unfold fSign
  rw [BitVec.msb_eq_decide, fPack_toNat neg p hp]
  cases neg
  · simp; omega
  · simp

theorem fMag_fPack (neg : Bool) (p : Nat) (hp : p < 2 ^ 63) : fMag (fPack neg p) = patMag p := by
  unfold fMag patMag
  rw [fExp_fPack neg p hp, fFrac_fPack neg p hp]

theorem isZero_iff_fMag (x : F64) : isZero x = true ↔ fMag x = 0 := by
  have h := x.isLt
  unfold isZero fMag fExp fFrac
  rw [beq_iff_eq]
  split
  · omega
  · rename_i h0
    constructor
    · intro; omega
    · intro hm
      rcases Nat.mul_eq_zero.mp hm with h1 | h1
      · omega
      · exact absurd h1 (by positivity)

theorem isFinite_not (x : F64) (h : isFinite x = true) : isNaN x = false ∧ isInf x = false := by
  have h' : fExp x ≠ 2047 := by simpa [isFinite] using h
  simp [isNaN, isInf, h']

theorem isFinite_fPack (neg : Bool) (p : Nat) (hp : p < infPattern) : isFinite (fPack neg p) = true := by
  have hp' : p < 2047 * 2 ^ 52 := by unfold infPattern at hp; omega
  unfold isFinite
  rw [fExp_fPack neg p (by omega)]
  simp; omega

/-- The pattern of a significand `m` with `k` discarded bits. -/
theorem patMag_significand (k m : Nat) (h : k = 0 ∨ 2 ^ 52 ≤ m) (hm : m ≤ 2 ^ 53) :
    patMag (k * 2 ^ 52 + m) = m * 2 ^ k := by
  unfold patMag
  by_cases h53 : m = 2 ^ 53
  · subst h53
    have h1 : (k * 2 ^ 52 + 2 ^ 53) / 2 ^ 52 = k + 2 := by omega
    have h2 : (k * 2 ^ 52 + 2 ^ 53) % 2 ^ 52 = 0 := by omega
    rw [h1, h2, if_neg (by omega)]
    rw [show k + 2 - 1 = k + 1 by omega, Nat.pow_succ]
    ring
  · by_cases h52 : m < 2 ^ 52
    · have hk : k = 0 := by omega
      subst hk
      rw [if_pos (by omega)]
      simp; omega
    · have h1 : (k * 2 ^ 52 + m) / 2 ^ 52 = k + 1 := by omega
      have h2 : (k * 2 ^ 52 + m) % 2 ^ 52 = m - 2 ^ 52 := by omega
      rw [h1, h2, if_neg (by omega), show k + 1 - 1 = k by omega,
        show 2 ^ 52 + (m - 2 ^ 52) = m by omega]

/-! ### Rounding -/

theorem roundHalfEven_le (num den M : Nat) (hd : 0 < den) (h : num ≤ M * den) :
    roundHalfEven num den ≤ M := by
  unfold roundHalfEven
  have h1 : num / den ≤ M := Nat.div_le_of_le_mul (by rw [Nat.mul_comm]; exact h)
  have h2 := Nat.div_add_mod num den
  simp only
  split_ifs with hc
  · exact h1
  · rcases Nat.lt_or_ge (num / den) M with h3 | h3
    · omega
    · have : num / den = M := by omega
      exfalso
      rw [this] at h2
      have : num % den = 0 := by rw [Nat.mul_comm] at h; omega
      apply hc; left; omega

theorem le_roundHalfEven (num den M : Nat) (hd : 0 < den) (h : M * den ≤ num) :
    M ≤ roundHalfEven num den := by
  have h1 : M ≤ num / den := (Nat.le_div_iff_mul_le hd).mpr h
  unfold roundHalfEven
  simp only
  split_ifs <;> omega

/-- The number of discarded bits and the rounded significand. -/
def roundShift (num den : Nat) : Nat := Nat.log2 (num / den) - 52
/-- The rounded significand. -/
def roundSig (num den : Nat) : Nat := roundHalfEven num (den * 2 ^ roundShift num den)
/-- The rounded magnitude, before the overflow to infinity. -/
def roundVal (num den : Nat) : Nat := roundSig num den * 2 ^ roundShift num den

theorem roundMag_eq (num den : Nat) :
    roundMag num den = min (roundShift num den * 2 ^ 52 + roundSig num den) infPattern := rfl

theorem roundShift_bounds (num den : Nat) (hk : 0 < roundShift num den) :
    2 ^ (52 + roundShift num den) ≤ num / den ∧ num / den < 2 ^ (53 + roundShift num den) := by
  unfold roundShift at *
  have h0 : num / den ≠ 0 := by
    intro h0; rw [h0] at hk; simp at hk
  have e : 52 + (Nat.log2 (num / den) - 52) = Nat.log2 (num / den) := by omega
  constructor
  · rw [e]; exact Nat.log2_self_le h0
  · rw [show 53 + (Nat.log2 (num / den) - 52) = Nat.log2 (num / den) + 1 by omega]
    exact Nat.lt_log2_self

theorem roundShift_zero (num den : Nat) (hk : roundShift num den = 0) : num / den < 2 ^ 53 := by
  unfold roundShift at hk
  exact lt_of_lt_of_le Nat.lt_log2_self (Nat.pow_le_pow_right (by norm_num) (by omega))

theorem roundSig_bounds (num den : Nat) (hd : 0 < den) :
    (roundShift num den = 0 ∨ 2 ^ 52 ≤ roundSig num den) ∧ roundSig num den ≤ 2 ^ 53 := by
  rcases Nat.eq_zero_or_pos (roundShift num den) with hk | hk
  · refine ⟨.inl hk, ?_⟩
    unfold roundSig
    rw [hk]
    apply roundHalfEven_le _ _ _ (by simpa using hd)
    have := roundShift_zero num den hk
    have := (Nat.div_lt_iff_lt_mul hd).mp this
    simp; omega
  · obtain ⟨h1, h2⟩ := roundShift_bounds num den hk
    refine ⟨.inr ?_, ?_⟩
    · apply le_roundHalfEven _ _ _ (by positivity)
      have := (Nat.le_div_iff_mul_le hd).mp h1
      calc 2 ^ 52 * (den * 2 ^ roundShift num den) = 2 ^ (52 + roundShift num den) * den := by
            rw [pow_add]; ring
        _ ≤ num := this
    · apply roundHalfEven_le _ _ _ (by positivity)
      have := (Nat.div_lt_iff_lt_mul hd).mp h2
      calc num ≤ 2 ^ (53 + roundShift num den) * den := this.le
        _ = 2 ^ 53 * (den * 2 ^ roundShift num den) := by rw [pow_add]; ring

/-- A representable magnitude that reaches the binade of the quotient is a multiple of its unit, or its
lower end. -/
theorem rep_multiple (M k : Nat) (hM : Rep M) (h : 2 ^ (52 + k) ≤ M) : ∃ M', M = M' * 2 ^ k := by
  obtain ⟨c, j, rfl, hc⟩ := hM
  rcases Nat.le_total k j with hkj | hkj
  · exact ⟨c * 2 ^ (j - k), by rw [Nat.mul_assoc, ← pow_add, Nat.sub_add_cancel hkj]⟩
  · rcases Nat.eq_or_lt_of_le hkj with rfl | hlt
    · exact ⟨c, rfl⟩
    · refine ⟨2 ^ 52, ?_⟩
      rw [← pow_add]
      apply Nat.le_antisymm _ h
      calc c * 2 ^ j ≤ 2 ^ 53 * 2 ^ j := Nat.mul_le_mul_right _ hc
        _ = 2 ^ (53 + j) := by rw [pow_add]
        _ ≤ 2 ^ (52 + k) := Nat.pow_le_pow_right (by norm_num) (by omega)

/-- Rounding does not pass a representable magnitude from below. -/
theorem roundVal_le (num den M : Nat) (hd : 0 < den) (hM : Rep M) (h : num ≤ M * den) :
    roundVal num den ≤ M := by
  unfold roundVal
  rcases Nat.eq_zero_or_pos (roundShift num den) with hk | hk
  · rw [hk, pow_zero, Nat.mul_one]
    apply roundHalfEven_le _ _ _ (by rw [hk]; simpa using hd)
    rw [hk]; simpa using h
  · obtain ⟨h1, _⟩ := roundShift_bounds num den hk
    have hq : num / den ≤ M := Nat.div_le_of_le_mul (by rw [Nat.mul_comm]; exact h)
    obtain ⟨M', hM'⟩ := rep_multiple M _ hM (h1.trans hq)
    have : roundSig num den ≤ M' := by
      apply roundHalfEven_le _ _ _ (by positivity)
      calc num ≤ M * den := h
        _ = M' * (den * 2 ^ roundShift num den) := by rw [hM']; ring
    calc _ ≤ M' * 2 ^ roundShift num den := Nat.mul_le_mul_right _ this
      _ = M := hM'.symm

/-- Rounding does not pass a representable magnitude from above. -/
theorem le_roundVal (num den M : Nat) (hd : 0 < den) (hM : Rep M) (h : M * den ≤ num) :
    M ≤ roundVal num den := by
  unfold roundVal
  rcases Nat.eq_zero_or_pos (roundShift num den) with hk | hk
  · rw [hk, pow_zero, Nat.mul_one]
    apply le_roundHalfEven _ _ _ (by rw [hk]; simpa using hd)
    rw [hk]; simpa using h
  · rcases Nat.lt_or_ge M (2 ^ (52 + roundShift num den)) with hlt | hge
    · rcases (roundSig_bounds num den hd).1 with h0 | h52
      · omega
      · calc M ≤ 2 ^ (52 + roundShift num den) := hlt.le
          _ = 2 ^ 52 * 2 ^ roundShift num den := by rw [pow_add]
          _ ≤ _ := Nat.mul_le_mul_right _ h52
    · obtain ⟨M', hM'⟩ := rep_multiple M _ hM hge
      have : M' ≤ roundSig num den := by
        apply le_roundHalfEven _ _ _ (by positivity)
        calc M' * (den * 2 ^ roundShift num den) = M * den := by rw [hM']; ring
          _ ≤ num := h
      calc M = M' * 2 ^ roundShift num den := hM'
        _ ≤ _ := Nat.mul_le_mul_right _ this

/-- Rounding a representable magnitude is exact. -/
theorem roundVal_exact (num den M : Nat) (hd : 0 < den) (hM : Rep M) (h : num = M * den) :
    roundVal num den = M :=
  Nat.le_antisymm (roundVal_le num den M hd hM h.le) (le_roundVal num den M hd hM h.ge)

/-- Below 2^1024 the rounded pattern is finite and has the rounded magnitude. -/
theorem roundMag_of_lt (num den : Nat) (hd : 0 < den) (h : roundVal num den < fLimit) :
    roundMag num den < infPattern ∧ patMag (roundMag num den) = roundVal num den := by
  obtain ⟨h1, h2⟩ := roundSig_bounds num den hd
  have hlt : roundShift num den * 2 ^ 52 + roundSig num den < infPattern := by
    unfold infPattern
    rcases h1 with h0 | h52
    · rw [h0]; omega
    · have h' : 2 ^ (52 + roundShift num den) < fLimit := by
        refine lt_of_le_of_lt ?_ h
        rw [pow_add]
        exact Nat.mul_le_mul_right _ h52
      have hk : 52 + roundShift num den < 2098 := (Nat.pow_lt_pow_iff_right (by norm_num)).mp h'
      have h := (show roundSig num den * 2 ^ roundShift num den < fLimit from h)
      rw [show fLimit = 2 ^ (53 + 2045) from rfl, pow_add] at h
      rcases Nat.lt_or_ge (roundShift num den) 2045 with hk' | hk'
      · omega
      · have e : roundShift num den = 2045 := by omega
        rw [e] at h ⊢
        have : roundSig num den < 2 ^ 53 := by
          exact Nat.lt_of_mul_lt_mul_right h
        omega
  have hmin : roundMag num den = roundShift num den * 2 ^ 52 + roundSig num den := by
    rw [roundMag_eq]; exact Nat.min_eq_left hlt.le
  rw [hmin]
  exact ⟨hlt, patMag_significand _ _ h1 h2⟩

/-! ### A rounded result -/

theorem roundMag_lt (num den : Nat) : roundMag num den < 2 ^ 63 := by
  have : roundMag num den ≤ infPattern := Nat.min_le_right _ _
  unfold infPattern at this
  omega

theorem fSign_roundUnits (neg : Bool) (num den : Nat) : fSign (roundUnits neg num den) = neg :=
  fSign_fPack _ _ (roundMag_lt _ _)

/-- A rounded result whose exact magnitude does not pass a representable one below 2^1024. -/
theorem roundUnits_le (neg : Bool) (num den M : Nat) (hd : 0 < den) (hM : Rep M)
    (hlt : M < fLimit) (h : num ≤ M * den) :
    isFinite (roundUnits neg num den) = true ∧ fMag (roundUnits neg num den) ≤ M := by
  have hv := roundVal_le num den M hd hM h
  obtain ⟨h1, h2⟩ := roundMag_of_lt num den hd (by omega)
  refine ⟨isFinite_fPack _ _ h1, ?_⟩
  unfold roundUnits
  rw [fMag_fPack _ _ (roundMag_lt _ _), h2]
  exact hv

/-- A rounded result that is finite by its exact magnitude stays at or above every representable one below. -/
theorem le_roundUnits (neg : Bool) (num den M B : Nat) (hd : 0 < den) (hM : Rep M) (hB : Rep B)
    (hlt : B < fLimit) (hb : num ≤ B * den) (h : M * den ≤ num) :
    M ≤ fMag (roundUnits neg num den) := by
  have hv := roundVal_le num den B hd hB hb
  obtain ⟨_, h2⟩ := roundMag_of_lt num den hd (by omega)
  unfold roundUnits
  rw [fMag_fPack _ _ (roundMag_lt _ _), h2]
  exact le_roundVal num den M hd hM h

/-- A rounded result whose exact magnitude is representable is exact. -/
theorem roundUnits_exact (neg : Bool) (num den M : Nat) (hd : 0 < den) (hM : Rep M)
    (hlt : M < fLimit) (h : num = M * den) :
    isFinite (roundUnits neg num den) = true ∧ fMag (roundUnits neg num den) = M :=
  ⟨(roundUnits_le neg num den M hd hM hlt h.le).1,
   Nat.le_antisymm (roundUnits_le neg num den M hd hM hlt h.le).2
     (le_roundUnits neg num den M M hd hM hM hlt h.le h.ge)⟩

/-! ### The operations on finite operands -/

theorem fmul_finite (a b : F64) (ha : isFinite a = true) (hb : isFinite b = true) :
    fmul a b = roundUnits (fSign a != fSign b) (fMag a * fMag b) unitsPerOne := by
  obtain ⟨a1, a2⟩ := isFinite_not a ha
  obtain ⟨b1, b2⟩ := isFinite_not b hb
  simp [fmul, a1, a2, b1, b2]

theorem fdiv_finite (a b : F64) (ha : isFinite a = true) (hb : isFinite b = true)
    (h0 : fMag b ≠ 0) :
    fdiv a b = roundUnits (fSign a != fSign b) (fMag a * unitsPerOne) (fMag b) := by
  obtain ⟨a1, a2⟩ := isFinite_not a ha
  obtain ⟨b1, b2⟩ := isFinite_not b hb
  have hz : isZero b = false := by
    rw [Bool.eq_false_iff]; exact fun h => h0 ((isZero_iff_fMag b).mp h)
  simp [fdiv, a1, a2, b1, b2, hz]

theorem fadd_finite (a b : F64) (ha : isFinite a = true) (hb : isFinite b = true) :
    fadd a b = if fUnits a + fUnits b = 0 then fPack (fSign a && fSign b) 0
      else roundUnits (decide (fUnits a + fUnits b < 0)) (fUnits a + fUnits b).natAbs 1 := by
  obtain ⟨a1, a2⟩ := isFinite_not a ha
  obtain ⟨b1, b2⟩ := isFinite_not b hb
  simp [fadd, a1, a2, b1, b2]

theorem fUnits_natAbs (x : F64) : (fUnits x).natAbs = fMag x := by
  unfold fUnits; split <;> simp

theorem toNat_mod_lt (x : F64) : x.toNat % 2 ^ 63 < 2 ^ 63 := Nat.mod_lt _ (by norm_num)

theorem fExp_fneg (x : F64) : fExp (fneg x) = fExp x := by
  have h := x.isLt
  unfold fneg
  rw [fExp_fPack _ _ (toNat_mod_lt x)]
  unfold fExp; omega

theorem fFrac_fneg (x : F64) : fFrac (fneg x) = fFrac x := by
  unfold fneg
  rw [fFrac_fPack _ _ (toNat_mod_lt x)]
  unfold fFrac; omega

theorem fSign_fneg (x : F64) : fSign (fneg x) = !fSign x := fSign_fPack _ _ (toNat_mod_lt x)

theorem fMag_fneg (x : F64) : fMag (fneg x) = fMag x := by
  unfold fMag; rw [fExp_fneg, fFrac_fneg]

theorem isFinite_fneg (x : F64) : isFinite (fneg x) = isFinite x := by
  unfold isFinite; rw [fExp_fneg]

theorem fUnits_fneg (x : F64) : fUnits (fneg x) = -fUnits x := by
  unfold fUnits
  rw [fSign_fneg, fMag_fneg]
  cases fSign x <;> simp

/-- A product whose exact magnitude does not pass a representable one. -/
theorem fmul_le (a b : F64) (M : Nat) (ha : isFinite a = true) (hb : isFinite b = true)
    (hM : Rep M) (hlt : M < fLimit) (h : fMag a * fMag b ≤ M * unitsPerOne) :
    isFinite (fmul a b) = true ∧ fMag (fmul a b) ≤ M := by
  rw [fmul_finite a b ha hb]
  exact roundUnits_le _ _ _ M unitsPerOne_pos hM hlt h

/-- The sign of a product is the sign of its value. -/
theorem signed_mul (sa sb : Bool) (ma mb u : Nat) (z : Int) (hu : 0 < u)
    (h : (if sa then -(ma : Int) else ma) * (if sb then -(mb : Int) else mb) = z * u) :
    (if sa != sb then -(z.natAbs : Int) else z.natAbs) = z := by
  have hu' : (0 : Int) < u := by exact_mod_cast hu
  have hab : (0 : Int) ≤ (ma : Int) * mb := by positivity
  have key : (0 ≤ z * u ∧ (sa != sb) = false) ∨ (z * u ≤ 0 ∧ (sa != sb) = true) := by
    rw [← h]
    cases sa <;> cases sb <;> simp <;> exact hab
  rcases key with ⟨h1, h2⟩ | ⟨h1, h2⟩
  · have hz : 0 ≤ z := nonneg_of_mul_nonneg_left h1 hu'
    rw [h2]; simp only [Bool.false_eq_true, if_false]; omega
  · have hz : z ≤ 0 := nonpos_of_mul_nonpos_left h1 hu'
    rw [h2]; simp only [if_true]; omega

/-- A product whose exact value is representable. -/
theorem fmul_exact (a b : F64) (z : Int) (ha : isFinite a = true) (hb : isFinite b = true)
    (hM : Rep z.natAbs) (hlt : z.natAbs < fLimit)
    (h : fUnits a * fUnits b = z * unitsPerOne) :
    isFinite (fmul a b) = true ∧ fUnits (fmul a b) = z := by
  rw [fmul_finite a b ha hb]
  have hn : fMag a * fMag b = z.natAbs * unitsPerOne := by
    have := congrArg Int.natAbs h
    rwa [Int.natAbs_mul, Int.natAbs_mul, fUnits_natAbs, fUnits_natAbs, Int.natAbs_natCast] at this
  obtain ⟨h1, h2⟩ := roundUnits_exact (fSign a != fSign b) _ _ _ unitsPerOne_pos hM hlt hn
  refine ⟨h1, ?_⟩
  unfold fUnits at h ⊢
  rw [fSign_roundUnits, h2]
  exact signed_mul _ _ _ _ _ z unitsPerOne_pos h

/-- A sum whose exact magnitude does not pass a representable one. -/
theorem fadd_le (a b : F64) (M : Nat) (ha : isFinite a = true) (hb : isFinite b = true)
    (hM : Rep M) (hlt : M < fLimit) (h : (fUnits a + fUnits b).natAbs ≤ M) :
    isFinite (fadd a b) = true ∧ fMag (fadd a b) ≤ M := by
  rw [fadd_finite a b ha hb]
  split
  · refine ⟨isFinite_fPack _ _ (by unfold infPattern; omega), ?_⟩
    rw [fMag_fPack _ _ (by norm_num)]
    simp [patMag]
  · exact roundUnits_le _ _ _ M Nat.one_pos hM hlt (by simpa using h)

/-- A sum whose exact value is representable. -/
theorem fadd_exact (a b : F64) (ha : isFinite a = true) (hb : isFinite b = true)
    (hM : Rep (fUnits a + fUnits b).natAbs)
    (hlt : (fUnits a + fUnits b).natAbs < fLimit) :
    isFinite (fadd a b) = true ∧ fUnits (fadd a b) = fUnits a + fUnits b := by
  rw [fadd_finite a b ha hb]
  split
  · rename_i h0
    refine ⟨isFinite_fPack _ _ (by unfold infPattern; omega), ?_⟩
    unfold fUnits
    rw [fMag_fPack _ _ (by norm_num)]
    have : patMag 0 = 0 := by simp [patMag]
    rw [this]
    unfold fUnits at h0
    rw [h0]; simp
  · obtain ⟨h1, h2⟩ := roundUnits_exact (decide (fUnits a + fUnits b < 0)) _ 1 _ Nat.one_pos hM hlt
      (Nat.mul_one _).symm
    refine ⟨h1, ?_⟩
    generalize fUnits a + fUnits b = z at *
    unfold fUnits
    rw [fSign_roundUnits, h2]
    by_cases hz : z < 0 <;> simp only [hz, decide_true, decide_false, if_true, Bool.false_eq_true, if_false] <;>
      omega

/-- A quotient whose exact magnitude does not pass a representable one. -/
theorem fdiv_le (a b : F64) (M : Nat) (ha : isFinite a = true) (hb : isFinite b = true)
    (h0 : fMag b ≠ 0) (hM : Rep M) (hlt : M < fLimit)
    (h : fMag a * unitsPerOne ≤ M * fMag b) :
    isFinite (fdiv a b) = true ∧ fMag (fdiv a b) ≤ M := by
  rw [fdiv_finite a b ha hb h0]
  exact roundUnits_le _ _ _ M (Nat.pos_of_ne_zero h0) hM hlt h

/-- A quotient whose exact value is representable. -/
theorem fdiv_exact (a b : F64) (z : Int) (ha : isFinite a = true) (hb : isFinite b = true)
    (h0 : fMag b ≠ 0) (hM : Rep z.natAbs) (hlt : z.natAbs < fLimit)
    (h : fUnits a * unitsPerOne = z * fUnits b) :
    isFinite (fdiv a b) = true ∧ fUnits (fdiv a b) = z := by
  rw [fdiv_finite a b ha hb h0]
  have hn : fMag a * unitsPerOne = z.natAbs * fMag b := by
    have := congrArg Int.natAbs h
    rwa [Int.natAbs_mul, Int.natAbs_mul, fUnits_natAbs, fUnits_natAbs, Int.natAbs_natCast] at this
  obtain ⟨h1, h2⟩ := roundUnits_exact (fSign a != fSign b) _ _ _ (Nat.pos_of_ne_zero h0) hM hlt hn
  refine ⟨h1, ?_⟩
  have hb1 : 0 < fMag b := Nat.pos_of_ne_zero h0
  have h' : fUnits a * (if fSign b then -(unitsPerOne : Int) else unitsPerOne) = z * fMag b := by
    rw [show fUnits b = if fSign b then -(fMag b : Int) else fMag b from rfl] at h
    cases hs : fSign b <;> rw [hs] at h <;> simp only [Bool.false_eq_true, if_true, if_false, mul_neg] at h ⊢
    · exact h
    · rw [h, neg_neg]
  unfold fUnits at h' ⊢
  rw [fSign_roundUnits, h2]
  exact signed_mul _ _ _ _ _ z hb1 h'

theorem rep_of_le (n j : Nat) (h : n ≤ 2 ^ 53) : Rep (n * 2 ^ j) := ⟨n, j, rfl, h⟩

theorem rep_pow (j : Nat) : Rep (2 ^ j) := ⟨1, j, (Nat.one_mul _).symm, by norm_num⟩

theorem rep_pow_units (j : Nat) : Rep (2 ^ j * unitsPerOne) := by
  unfold unitsPerOne; rw [← pow_add]; exact rep_pow _

theorem pow_units_lt (j : Nat) (h : j < 1024) : 2 ^ j * unitsPerOne < fLimit := by
  unfold unitsPerOne
  rw [← pow_add]
  exact Nat.pow_lt_pow_right (by norm_num) (by omega)

/-- `i2f` is exact (R8, R141). -/
theorem i2f_exact (n : Int) (h : n.natAbs ≤ 2 ^ 53) :
    isFinite (i2f n) = true ∧ fUnits (i2f n) = n * unitsPerOne := by
  have hlt : n.natAbs * unitsPerOne < fLimit :=
    lt_of_le_of_lt (Nat.mul_le_mul_right _ h) (pow_units_lt 53 (by norm_num))
  have hrep : Rep (n.natAbs * unitsPerOne) := rep_of_le n.natAbs 1074 h
  obtain ⟨h1, h2⟩ := roundUnits_exact (decide (n < 0)) (n.natAbs * unitsPerOne) 1 _ Nat.one_pos
    hrep hlt (Nat.mul_one _).symm
  refine ⟨h1, ?_⟩
  show fUnits (roundUnits _ _ _) = _
  unfold fUnits
  rw [fSign_roundUnits, h2]
  by_cases hz : n < 0
  · simp only [hz, decide_true, if_true]
    rw [show n * (unitsPerOne : Int) = -((-n) * unitsPerOne) by ring]
    push_cast
    rw [abs_of_neg hz]
  · simp only [hz, decide_false, Bool.false_eq_true, if_false]
    push_cast
    rw [abs_of_nonneg (by omega)]

end Sys2Proof.Machine
end

