-- ==== Sys2Proof/Laws/PerInstr.lean ====
section
/-! SUPPORT. One fact per instruction as syntax: its word against its row of opcode_table.json. -/

namespace Sys2Proof.Laws.TableRow

/-- The bits a row of opcode_table.json fixes, and their values there: `mask` and `match`. -/
def row : Instr → Word × Word
  | .ldcal => (0xFFFFFF, 0x010000)
  | .apctl _ _ _ => (0xFFFF00, 0x020000)
  | .apflt _ _ _ => (0xFFFF02, 0x030000)
  | .config _ _ _ _ _ _ => (0xFF8000, 0x040000)
  | .rdraw => (0xFFFFFF, 0x050000)
  | .cmpt => (0xFFFFFF, 0x060000)
  | .cmpp => (0xFFFFFF, 0x070000)
  | .acq => (0xFFFFFF, 0x080000)
  | .encctl _ _ _ => (0xFFFF00, 0x090000)
  | .encflt _ _ _ => (0xFFFF02, 0x0A0000)
  | .decctl _ => (0xFFFF00, 0x0B0000)
  | .decflt _ => (0xFFFF00, 0x0C0000)
  | .rdctl => (0xFFFFFF, 0x0D0000)
  | .rdflt => (0xFFFFFF, 0x0E0000)

/-- The word of an instruction has the fixed bits of its row, whatever its operands. -/
def Statement (i : Instr) : Prop := encode i &&& (row i).1 = (row i).2

theorem ldcal : Statement .ldcal := rfl
theorem apctl (ot op : Osrs) (m : Mode) : Statement (.apctl ot op m) := by
  cases ot <;> cases op <;> cases m <;> rfl
theorem apflt (sb : Standby) (f : Filter) (w : Bool) : Statement (.apflt sb f w) := by
  cases sb <;> cases f <;> cases w <;> rfl
theorem config (ot op : Osrs) (m : Mode) (sb : Standby) (f : Filter) (w : Bool) :
    Statement (.config ot op m sb f w) := by
  refine BitVec.eq_of_getLsbD_eq fun i hi => ?_
  simp only [encode, Instr.arg, Instr.opcode, encodeS, row, BitVec.getLsbD_and, BitVec.getLsbD_append]
  interval_cases i <;> simp
theorem rdraw : Statement .rdraw := rfl
theorem cmpt : Statement .cmpt := rfl
theorem cmpp : Statement .cmpp := rfl
theorem acq : Statement .acq := rfl
theorem encctl (ot op : Osrs) (m : Mode) : Statement (.encctl ot op m) := by
  cases ot <;> cases op <;> cases m <;> rfl
theorem encflt (sb : Standby) (f : Filter) (w : Bool) : Statement (.encflt sb f w) := by
  cases sb <;> cases f <;> cases w <;> rfl
theorem decctl (b : Byte) : Statement (.decctl b) := by
  have h : ∀ b : Byte, encode (.decctl b) &&& 0xFFFF00 = 0x0B0000 := by decide +kernel
  exact h b
theorem decflt (b : Byte) : Statement (.decflt b) := by
  have h : ∀ b : Byte, encode (.decflt b) &&& 0xFFFF00 = 0x0C0000 := by decide +kernel
  exact h b
theorem rdctl : Statement .rdctl := rfl
theorem rdflt : Statement .rdflt := rfl

end Sys2Proof.Laws.TableRow
end

