-- ==== Sys2Proof/Laws/Step.lean ====
section
/-! SUPPORT. What the step of a host's read is, and what a read micro-step of `LDCAL` can do. -/

namespace Sys2Proof.Machine

theorem step_read {s : State} {r : BlockReg} {es : List Event} (h : s.seq = .idle)
    (he : s.events = .read r :: es) : step s = .next (hostRead r { s with events := es }) := by
  rw [step_idle s h, idleStep, he]

/-- What the host reads does not depend on the host's list. -/
@[simp] theorem regBits_with_events (s : State) (es : List Event) (r : BlockReg) :
    regBits { s with events := es } r = regBits s r := by cases r <;> rfl

/-- Micro-steps 0 to 11 of `LDCAL` are its reads (R100). -/
theorem ldcal_read_at (p : Params) (k : Nat) (hk : k < 12) :
    (microSteps p .ldcal)[k]? = some (ldcalRead p k) := by
  interval_cases k <;> rfl

/-- A read of `LDCAL` hands on its two bytes behind those before, or raises `TransportError`; either way the state is
the one after its request (R45, R100). -/
theorem ldcalRead_cases (p : Params) (k : Nat) (tmp : List Byte) (s : State) :
    let after := (transport (.readBlock (p.calBase + BitVec.ofNat 8 (2 * k)) 2) s).2
    (∃ lo hi, ldcalRead p k tmp s = .next (tmp ++ [lo, hi]) after) ∨
      ldcalRead p k tmp s = .raise .transportError after := by
  dsimp only [ldcalRead, memRead]
  rcases transport (.readBlock (p.calBase + BitVec.ofNat 8 (2 * k)) 2) s with ⟨_ | bs, s'⟩
  · exact .inr rfl
  · by_cases h : bs.length = 2
    · obtain ⟨lo, hi, rfl⟩ := List.length_eq_two.mp h
      exact .inl ⟨lo, hi, rfl⟩
    · exact .inr (if_neg h)

end Sys2Proof.Machine
end

