-- ==== Sys2Proof/Tests/Slice0.lean ====
section
/-! SUPPORT. The model's own tests: ill-formed parameters are refused, words written out from the spec's encodings
decode as it says, one step against the vectors of 95_test_vectors.md, and a witness for the hypotheses of every
statement that has some. -/

namespace Sys2Proof.Tests

open Sys2Proof.Machine

/-! ### Well-formedness (R42, R110): the defaults pass, one ill-formed term for each check -/

theorem test_default_params_wf : Params.default.wf = true := by decide
theorem test_calBase_wraps : (Params.addressesWf { Params.default with calBase := 0xE9 }) = false := by
  decide
theorem test_dataBase_wraps : (Params.addressesWf { Params.default with dataBase := 0xFB }) = false := by
  decide
theorem test_cal_meets_ctrl : (Params.addressesWf { Params.default with ctrlAddr := 0x9F }) = false := by
  decide
theorem test_cal_meets_config : (Params.addressesWf { Params.default with configAddr := 0x88 }) = false := by
  decide
theorem test_cal_meets_data : (Params.addressesWf { Params.default with dataBase := 0x83 }) = false := by
  decide
theorem test_ctrl_meets_config : (Params.addressesWf { Params.default with configAddr := 0xF4 }) = false := by
  decide
theorem test_ctrl_meets_data : (Params.addressesWf { Params.default with ctrlAddr := 0xFC }) = false := by
  decide
theorem test_config_meets_data : (Params.addressesWf { Params.default with configAddr := 0xF7 }) = false := by
  decide
theorem test_osrs_codes_twice :
    Params.codesWf { Params.default with osrs := { Params.default.osrs with x16 := 0b100 } } = false := by
  decide
theorem test_mode_codes_twice :
    Params.codesWf { Params.default with mode := { Params.default.mode with normal := 0b01 } } = false := by
  decide
theorem test_filter_codes_twice :
    Params.codesWf { Params.default with filter := { Params.default.filter with c2 := 0b000 } } = false := by
  decide
theorem test_tsb_codes_twice :
    Params.codesWf { Params.default with tsb := { Params.default.tsb with sb7 := 0b110 } } = false := by
  decide
theorem test_reset_memory_wf : State.reset.device.wf = true := by decide

/-! ### Decoding: words written out from R80 to R87 -/

theorem test_decode_ldcal : decode 0b00000001_0000000000000000 = .ok .ldcal := rfl
theorem test_decode_apctl : decode 0b00000010_00000000_010_101_10 = .ok (.apctl .x2 .x16 .normal) := rfl
theorem test_decode_apflt : decode 0b00000011_00000000_100_100_0_0 = .ok (.apflt .sb4 .c16 false) := rfl
theorem test_decode_config :
    decode 0b00000100_0_010_101_10_100_100_0 = .ok (.config .x2 .x16 .normal .sb4 .c16 false) := rfl
theorem test_decode_rdraw : decode 0b00000101_0000000000000000 = .ok .rdraw := rfl
theorem test_decode_cmpt : decode 0b00000110_0000000000000000 = .ok .cmpt := rfl
theorem test_decode_cmpp : decode 0b00000111_0000000000000000 = .ok .cmpp := rfl
theorem test_decode_acq : decode 0b00001000_0000000000000000 = .ok .acq := rfl
theorem test_decode_encctl : decode 0b00001001_00000000_011_100_01 = .ok (.encctl .x4 .x8 .forced) := rfl
theorem test_decode_encflt : decode 0b00001010_00000000_001_011_0_1 = .ok (.encflt .sb1 .c8 true) := rfl
theorem test_decode_decctl : decode 0b00001011_00000000_01010111 = .ok (.decctl 0x57) := rfl
theorem test_decode_decflt : decode 0b00001100_00000000_10010001 = .ok (.decflt 0x91) := rfl
theorem test_decode_rdctl : decode 0b00001101_0000000000000000 = .ok .rdctl := rfl
theorem test_decode_rdflt : decode 0b00001110_0000000000000000 = .ok .rdflt := rfl

/-- V18, the reserved opcodes. -/
theorem test_decode_reserved_opcode :
    decode 0x000000 = .error .reservedOpcode ∧ decode 0x0F0000 = .error .reservedOpcode ∧
    decode 0xFF0000 = .error .reservedOpcode := ⟨rfl, rfl, rfl⟩
/-- V18, a bit that must be 0. -/
theorem test_decode_reserved_bit :
    decode 0x010001 = .error .reservedBit ∧ decode 0x020156 = .error .reservedBit ∧
    decode 0x030002 = .error .reservedBit ∧ decode 0x048000 = .error .reservedBit ∧
    decode 0x0B0100 = .error .reservedBit := ⟨rfl, rfl, rfl, rfl, rfl⟩
/-- V18, an ordinal out of range. -/
theorem test_decode_ordinal :
    decode 0x0200C0 = .error .ordinalOutOfRange ∧ decode 0x020018 = .error .ordinalOutOfRange ∧
    decode 0x020057 = .error .ordinalOutOfRange ∧ decode 0x030014 = .error .ordinalOutOfRange ∧
    decode 0x04000A = .error .ordinalOutOfRange := ⟨rfl, rfl, rfl, rfl, rfl⟩
/-- V18, the legal neighbours. -/
theorem test_decode_legal_neighbours :
    decode 0x0200B6 = .ok (.apctl .x16 .x16 .normal) ∧
    decode 0x045B79 = .ok (.config .x16 .x16 .normal .sb7 .c16 true) := ⟨rfl, rfl⟩

/-! ### One command against the vectors of 95_test_vectors.md -/

/-- The coefficients of the standard image (V9). -/
def stdCal : Cal where
  t1 := 0x6B70
  t2 := 0x6743
  t3 := 0xFC18
  p1 := 0x8E7D
  p2 := 0xD643
  p3 := 0x0BD0
  p4 := 0x0B27
  p5 := 0x008C
  p6 := 0xFFF9
  p7 := 0x3C8C
  p8 := 0xC6F8
  p9 := 0x1770

/-- The sample of the standard image. -/
def stdRaw : RawSample := { adcP := 0x655AC, adcT := 0x7EED0 }

/-- The block after reset, with these answers to come. -/
def withAnswers (as : List Answer) : State := { State.reset with answers := as }

/-- The block with the standard coefficients loaded, and these answers to come. -/
def loaded (as : List Answer) : State := { withAnswers as with cal := some stdCal }

/-- The block with coefficients, the standard sample and no result. -/
def sampled (c : Cal) : State := { State.reset with cal := some c, raw := some stdRaw }

/-- The block with coefficients, the standard sample and a temperature. -/
def warmed (c : Cal) (tf tc : F64) : State := { sampled c with tFine := some tf, tempC := some tc }

/-- The status and payload a command answered. -/
def answerOf : Host.Outcome State Fault Refusal → Option (BitVec 4 × Payload)
  | .next t =>
    match t.outputs with
    | .response c p :: _ => some (c, p)
    | _ => none
  | _ => none

/-- Something of the state after a command. -/
def fieldOf {α : Type} (f : State → α) : Host.Outcome State Fault Refusal → Option α
  | .next t => some (f t)
  | _ => none

/-- The twelve answers of the standard image to `LDCAL` (V9). -/
def stdReads : List Answer :=
  [.ok [0x70, 0x6B], .ok [0x43, 0x67], .ok [0x18, 0xFC], .ok [0x7D, 0x8E], .ok [0x43, 0xD6], .ok [0xD0, 0x0B],
   .ok [0x27, 0x0B], .ok [0x8C, 0x00], .ok [0xF9, 0xFF], .ok [0x8C, 0x3C], .ok [0xF8, 0xC6], .ok [0x70, 0x17]]

/-- The burst of the standard image. -/
def stdBurst : Answer := .ok [0x65, 0x5A, 0xC0, 0x7E, 0xED, 0x00]

/-- V9. -/
theorem test_ldcal_loads :
    answerOf (exec .ldcal (withAnswers stdReads)) = some (0, .coefficients stdCal) := by decide
/-- V20: request 4 answers one byte; nothing is kept and no later read is issued. -/
theorem test_ldcal_short_read :
    fieldOf (fun t => (t.status, t.cal, t.draws)) (exec .ldcal (withAnswers (stdReads.take 4 ++ [.ok [0x43]]))) =
      some (1, none, 5) := by decide
/-- V4, first row. -/
theorem test_apctl_writes_and_verifies :
    fieldOf (fun t => (t.status, t.device, t.trace)) (exec (.apctl .x2 .x16 .normal)
      (withAnswers [.device, .device])) =
      some (0, [(0xF4, 0x57)], [⟨.readByte 0xF4, .ok [0x57]⟩, ⟨.writeByte 0xF4 0x57, .ok []⟩]) := by decide
/-- V4, second row: the byte read back differs in one bit. -/
theorem test_apctl_verification_fails :
    answerOf (exec (.apctl .x2 .x16 .normal) (withAnswers [.device, .ok [0x56]])) = some (2, .none) := by
  decide
/-- V4, third row. -/
theorem test_apflt_writes_and_verifies :
    fieldOf (fun t => (t.status, t.device)) (exec (.apflt .sb4 .c16 false) (withAnswers [.device, .device])) =
      some (0, [(0xF5, 0x90)]) := by decide
/-- V4, fourth row: the write is dropped. -/
theorem test_apflt_silent_write_failure :
    fieldOf (fun t => (t.status, t.device)) (exec (.apflt .sb4 .c16 false)
      { withAnswers [.ok [], .device] with device := [(0xF5, 0x00)] }) = some (2, [(0xF5, 0x00)]) := by
  decide
/-- V13, the largest settings. -/
theorem test_config_writes_both :
    fieldOf (fun t => (t.status, t.device)) (exec (.config .x16 .x16 .normal .sb7 .c16 true)
      (withAnswers [.device, .device, .device, .device])) = some (0, [(0xF4, 0xB7), (0xF5, 0xF1)]) := by
  decide
/-- R117: after a failure of the first half the second is not attempted. -/
theorem test_config_stops_after_first_half :
    fieldOf (fun t => (t.status, t.draws)) (exec (.config .x2 .x16 .normal .sb4 .c16 false)
      (withAnswers [.device, .ok [0x00], .device, .device])) = some (2, 2) := by decide
/-- V11. -/
theorem test_rdraw_decodes :
    answerOf (exec .rdraw (withAnswers [.ok [0x12, 0x34, 0x56, 0xAB, 0xCD, 0xEF]])) =
      some (0, .sample 0x12345 0xABCDE) := by decide
/-- V20: too long is wrong as well. -/
theorem test_rdraw_long_burst :
    fieldOf (fun t => (t.status, t.raw)) (exec .rdraw
      (withAnswers [.ok [0x65, 0x5A, 0xC0, 0x7E, 0xED, 0x00, 0x00]])) = some (1, none) := by decide
/-- V19, line 5: the calibration is checked before the sample. -/
theorem test_cmpt_calibration_first :
    answerOf (exec .cmpt State.reset) = some (4, .none) := by decide
/-- V7, P1: `CMPT`, `CMPP` and `ACQ` on the known vector. -/
theorem test_known_vector :
    answerOf (exec .cmpt (sampled stdCal)) = some (0, .temperature 0x4039151D460F8000 0x40FF5A6497936000) ∧
    answerOf (exec .cmpp (warmed stdCal 0x40FF5A6497936000 0x4039151D460F8000)) =
      some (0, .pressure 0x408F7442E7504A97) ∧
    answerOf (exec .acq (loaded [stdBurst])) = some (0, .reading 0x408F7442E7504A97 0x4039151D460F8000) := by
  decide +kernel
/-- V5 (`P1` = 0) by `CMPP`, and V16 (the second cause of the zero divisor; the temperature stays) by `ACQ`. -/
theorem test_arithmetic_error :
    answerOf (exec .cmpp (warmed { stdCal with p1 := 0 } 0x40FF5A6497936000 0x4039151D460F8000)) =
      some (3, .none) ∧
    fieldOf (fun t => (t.status, t.tempC, t.press)) (exec .acq
      { withAnswers [.ok [0x65, 0x5A, 0xC0, 0xC0, 0x00, 0x00]] with
        cal := some { stdCal with t1 := 0, t2 := 0x5FC0, t3 := 0, p2 := 0x8000, p3 := 0 } }) =
      some (3, some 0x406CB9999999999A, none) := by decide +kernel
/-- V12. -/
theorem test_encctl_code_is_not_ordinal :
    answerOf (exec (.encctl .x1 .x1 .normal) State.reset) = some (0, .byte 0x27) := by decide
/-- V12, the largest byte. -/
theorem test_encctl_largest :
    answerOf (exec (.encctl .x16 .x16 .normal) State.reset) = some (0, .byte 0xB7) := by decide
/-- V12. -/
theorem test_encflt : answerOf (exec (.encflt .sb1 .c8 true) State.reset) = some (0, .byte 0x2D) := by
  decide
/-- V12, the largest byte. -/
theorem test_encflt_largest : answerOf (exec (.encflt .sb7 .c16 true) State.reset) = some (0, .byte 0xF1) := by
  decide
/-- V12. -/
theorem test_decctl :
    answerOf (exec (.decctl 0x71) State.reset) = some (0, .control .x4 .x8 .forced) := by decide
/-- V12: the byte an ordinal-as-code encoder would give. -/
theorem test_decctl_reserved : answerOf (exec (.decctl 0x26) State.reset) = some (7, .none) := by decide
/-- V12. -/
theorem test_decflt :
    answerOf (exec (.decflt 0xA8) State.reset) = some (0, .filter .sb5 .c4 false) := by decide
/-- V12. -/
theorem test_decflt_reserved : answerOf (exec (.decflt 0x03) State.reset) = some (7, .none) := by decide
/-- V6. -/
theorem test_rdctl :
    answerOf (exec .rdctl { withAnswers [.device] with device := [(0xF4, 0x57)] }) =
      some (0, .control .x2 .x16 .normal) := by decide
/-- V13: a reserved code, after the read. -/
theorem test_rdctl_reserved :
    fieldOf (fun t => (t.status, t.trace)) (exec .rdctl (withAnswers [.ok [0x56]])) =
      some (7, [⟨.readByte 0xF4, .ok [0x56]⟩]) := by decide
/-- V6. -/
theorem test_rdflt :
    answerOf (exec .rdflt { withAnswers [.device] with device := [(0xF5, 0x90)] }) =
      some (0, .filter .sb4 .c16 false) := by decide
/-- V13: the read fails. -/
theorem test_rdflt_transport_error :
    answerOf (exec .rdflt (withAnswers [.err false])) = some (1, .none) := by decide

/-! ### Shared operations against the vectors -/

/-- V10. -/
theorem test_s16_corners :
    s16 0x7FFF = 32767 ∧ s16 0x8000 = -32768 ∧ s16 0xFC18 = -1000 ∧ s16 0xFFFF = -1 ∧ u16 0xFFFF = 65535 := by
  decide
/-- V2, V3, V11. -/
theorem test_extract20_corners :
    extract20 0x50 0x00 0x00 = 0x50000 ∧ extract20 0x50 0x00 0x0F = 0x50000 ∧ extract20 0x00 0x00 0x10 = 1 ∧
    extract20 0xFF 0xFF 0xFF = 0xFFFFF := by decide
/-- The coefficients of V17. -/
def cal17 : Cal where
  t1 := 0
  t2 := 0
  t3 := 0
  p1 := 0
  p2 := 0x8000
  p3 := 0
  p4 := 0
  p5 := 0
  p6 := 0
  p7 := 0
  p8 := 0
  p9 := 0

/-- V14, rows 3 and 7: the signed zero and the extreme. V15, row 3: a negative pressure is returned as it is. V17: the
guard and negative zero. -/
theorem test_compensation_corners :
    compT 0 0 0xFFFF 0xFFFF = (0x8000000000000000, 0x8000000000000000) ∧
    compT 0xFFFFF 0 0x7FFF 0x7FFF = (0x408999640004D99A, 0x414FFFBD00061000) ∧
    compP 0xFFFFF 0x40FF5A6497936000 stdCal = some 0xC05093C2A601DBCA ∧
    compPDivisor 0x413FFFBE00040000 cal17 = 0x8000000000000000 ∧ compP 0 0x413FFFBE00040000 cal17 = none := by
  decide +kernel
/-- R32: the host reads `ADC_T` of an idle block. -/
theorem test_host_reads_sample :
    fieldOf (·.outputs) (step { sampled stdCal with events := [.read .adcT] }) =
      some [.value .adcT 0x7EED0] := by decide
/-- R32, A8: a read of `T_FINE` after reset gives no value and is the host's fault. -/
theorem test_host_reads_no_value :
    fieldOf (·.outputs) (step { State.reset with events := [.read .tFine] }) = some [.hostFault .tFine] := by decide
/-- R200, R201: a reset in the middle of a command. -/
theorem test_reset_mid_command :
    fieldOf (fun t => (t.seq, t.cal, t.outputs)) (step { loaded [] with
      seq := .busy .acq 1 [], events := [.reset] }) = some (.idle, none, []) := by decide

/-! ### Witnesses: for every statement with hypotheses, a state and operands that meet them, each clause on its own -/

/-- A command that is at hand for the witnesses. -/
def stdConfig : Instr := .config .x2 .x16 .normal .sb4 .c16 false

theorem witness_DecodeInvertsEncode : (Instr.config .x16 .skip .normal .sb7 .c16 true).wf = true := rfl
theorem witness_LegalWordIsTheEncodingOfItsCommand :
    decode 0x045B79 = .ok (.config .x16 .x16 .normal .sb7 .c16 true) := rfl
theorem witness_StepRunsTheDecodedCommand :
    let s := { State.reset with events := [.command 0x0B00FF] }
    let s' := { State.reset with events := [.issue 0x0B00FF] }
    s.seq = .idle ∧ s'.seq = .idle ∧ decode 0x0B00FF = .ok (.decctl 0xFF) ∧
    s.events = .command 0x0B00FF :: [] ∧ s'.events = .issue 0x0B00FF :: [] := ⟨rfl, rfl, rfl, rfl, rfl⟩
theorem witness_IllegalWordChangesOnlyStatus :
    let s := { State.reset with events := [.command 0x0F0000] }
    let s' := { State.reset with events := [.issue 0x010001] }
    s.seq = .idle ∧ s'.seq = .idle ∧ s.events = .command 0x0F0000 :: [] ∧ s'.events = .issue 0x010001 :: [] ∧
    ¬ LegalWord 0x0F0000 ∧ ¬ LegalWord 0x010001 ∧ ¬ LegalWord 0x0200C0 :=
  ⟨rfl, rfl, rfl, rfl, by unfold LegalWord; decide, by unfold LegalWord; decide, by unfold LegalWord; decide⟩
theorem witness_DecoderAcceptsExactlyTheLegalWords : LegalWord 0x045B79 ∧ ¬ LegalWord 0x045B7A :=
  ⟨by unfold LegalWord; decide, by unfold LegalWord; decide⟩
/-- A block in the middle of `LDCAL`, with what comes next from outside. -/
def busyLdcal (es : List Event) : State := { State.reset with seq := .busy .ldcal 12 [], events := es }
theorem witness_BusyStepIsOneMicroStep :
    (busyLdcal []).seq = .busy .ldcal 12 [] ∧ (microSteps (busyLdcal []).params .ldcal)[12]? = some ldcalCommit ∧
    (busyLdcal []).events = [] ∧ (busyLdcal [.command 0]).events = .command 0 :: [] ∧
    (busyLdcal [.issue 0]).events = .issue 0 :: [] ∧ (busyLdcal [.read .status]).events = .read .status :: [] ∧
    (busyLdcal [.tick]).events = .tick :: [] := ⟨rfl, rfl, rfl, rfl, rfl, rfl, rfl⟩
theorem witness_CommandIsItsSequenceOfMicroSteps : State.reset.seq = .idle := rfl
theorem witness_BusyBlockAcceptsNoCommand : (busyLdcal []).seq = .busy .ldcal 12 [] := rfl
theorem witness_EveryCommandEndsWithOneResponse : (loaded [stdBurst]).seq = .idle := rfl

/-- One conjunct for each answer; the last two bytes of the space known, as a block and as a byte. -/
theorem witness_TransportPrimitivesDeliverOrRaise :
    (withAnswers [.err true]).answers = .err true :: [] ∧ (withAnswers [.ok [1]]).answers = .ok [1] :: [] ∧
    [1#8].length = 1 ∧ [1#8].length ≠ 2 ∧ (withAnswers [.device]).answers = .device :: [] ∧
    (∀ i : Fin 2, Memory.byteAt [(0xFE, 7), (0xFF, 7)] ((0xFE#8).toNat + i) = some 7) := by decide

/-- The hypotheses the statements about every command share: an idle block, and a command that answers. One
conjunct for each status of R179 and each clause of R18 and R220. -/
theorem witness_every_command :
    (withAnswers stdReads).seq = .idle ∧ (∃ t, exec .ldcal (withAnswers stdReads) = .next t) ∧
    (loaded [stdBurst]).seq = .idle ∧ (∃ t, exec .acq (loaded [stdBurst]) = .next t) ∧
    State.reset.seq = .idle ∧ (∃ t, exec .acq State.reset = .next t) ∧ (∃ t, exec .cmpt State.reset = .next t) ∧
    (∃ t, exec .cmpp (sampled stdCal) = .next t) ∧ (∃ t, exec stdConfig State.reset = .next t) ∧
    (∃ t, exec (.decflt 0xFF) State.reset = .next t) :=
  ⟨rfl, ⟨_, rfl⟩, rfl, ⟨_, rfl⟩, rfl, ⟨_, rfl⟩, ⟨_, rfl⟩, ⟨_, rfl⟩, ⟨_, rfl⟩, ⟨_, rfl⟩⟩
theorem witness_StatusTableIsComplete :
    State.reset.seq = .idle ∧ (∃ t, exec .rdctl State.reset = .next t) ∧ (7 : BitVec 4) ∈ statusesOf .rdctl ∧
    (0 : BitVec 4) ∈ statusesOf (.encctl .skip .skip .sleep) := ⟨rfl, ⟨_, rfl⟩, by decide, by decide⟩
/-- Each row of the table of R220: the requests of a command that ends `OK` and of one that ends with an error. -/
theorem witness_RequestCounts :
    fieldOf (fun t => (t.status, t.draws)) (exec .ldcal (withAnswers stdReads)) = some (0, 12) ∧
    fieldOf (fun t => (t.status, t.draws)) (exec .ldcal (withAnswers [.err true])) = some (1, 1) ∧
    fieldOf (fun t => (t.status, t.draws)) (exec (.apctl .skip .skip .sleep) (withAnswers [.device, .device])) =
      some (0, 2) ∧
    fieldOf (fun t => (t.status, t.draws)) (exec (.apctl .skip .skip .sleep) (withAnswers [.err false])) =
      some (1, 1) ∧
    fieldOf (fun t => (t.status, t.draws)) (exec (.apflt .sb0 .off true) (withAnswers [.device, .device])) =
      some (0, 2) ∧
    fieldOf (fun t => (t.status, t.draws)) (exec (.apflt .sb0 .off true) (withAnswers [.device, .ok []])) =
      some (1, 2) ∧
    fieldOf (fun t => (t.status, t.draws)) (exec stdConfig (withAnswers (List.replicate 4 .device))) =
      some (0, 4) ∧
    fieldOf (fun t => (t.status, t.draws)) (exec stdConfig (withAnswers [.err false])) = some (1, 1) := by
  decide
theorem witness_RequestCounts_reads :
    fieldOf (fun t => (t.status, t.draws)) (exec .rdraw (withAnswers [stdBurst])) = some (0, 1) ∧
    fieldOf (fun t => (t.status, t.draws)) (exec .rdraw (withAnswers [.ok []])) = some (1, 1) ∧
    fieldOf (fun t => (t.status, t.draws)) (exec .acq State.reset) = some (4, 0) ∧
    fieldOf (fun t => (t.status, t.draws)) (exec .acq (loaded [.err false])) = some (1, 1) ∧
    fieldOf (fun t => (t.status, t.draws)) (exec .rdctl (withAnswers [.ok [0xFF]])) = some (7, 1) ∧
    fieldOf (fun t => (t.status, t.draws)) (exec .rdflt (withAnswers [.ok [0x00]])) = some (0, 1) ∧
    fieldOf (fun t => (t.status, t.draws)) (exec .cmpp (sampled stdCal)) = some (5, 0) := by decide
/-- R18: the two refusals of each command, and the flags before them. -/
theorem witness_FlagTable :
    fieldOf (·.status) (exec .cmpt State.reset) = some 4 ∧ calValid State.reset = false ∧
    fieldOf (·.status) (exec .cmpt (loaded [])) = some 5 ∧ rawValid (loaded []) = false ∧
    fieldOf (·.status) (exec .cmpp State.reset) = some 4 ∧
    fieldOf (·.status) (exec .cmpp (sampled stdCal)) = some 5 ∧ fineValid (sampled stdCal) = false ∧
    fieldOf (·.status) (exec .acq State.reset) = some 4 := by decide
theorem witness_CommandsWriteOnlyTheirRegisters :
    stdConfig ≠ .ldcal ∧ stdConfig ≠ .rdraw ∧ stdConfig ≠ .acq ∧ stdConfig ≠ .cmpt ∧ stdConfig ≠ .cmpp ∧
    State.reset.seq = .idle ∧ ∃ t, exec stdConfig State.reset = .next t := by
  refine ⟨by decide, by decide, by decide, by decide, by decide, rfl, ⟨_, rfl⟩⟩
/-- The addresses 0xF3 and 0xF6 beside the two registers `CONFIG` writes, and an address a command that writes
nothing leaves alone. -/
theorem witness_CommandsStoreOnlyWhereTheyWrite :
    ¬ writesAddr State.reset.params stdConfig 0xF3 ∧ ¬ writesAddr State.reset.params stdConfig 0xF6 ∧
    ¬ writesAddr State.reset.params .rdctl 0xF4 := by
  refine ⟨?_, ?_, ?_⟩ <;> rintro ⟨r, hr, ad, v, rfl, ha⟩ <;>
    simp [requestsOf, stdConfig, State.reset, Params.default] at hr
  · rcases hr with ⟨rfl, -⟩ | ⟨rfl, -⟩ <;> simp at ha
  · rcases hr with ⟨rfl, -⟩ | ⟨rfl, -⟩ <;> simp at ha
theorem witness_NoCommandReadsStatus : { State.reset with status := 7 }.seq = .idle := rfl

theorem witness_EncctlAnswersThePackedByte : State.reset.seq = .idle := rfl
theorem witness_EncfltAnswersThePackedByte : State.reset.seq = .idle := rfl
/-- The largest byte with members in every field, and a byte with a reserved code in each field. -/
theorem witness_DecctlAnswersTheMembersOrReservedCode :
    State.reset.seq = .idle ∧ State.reset.params.codesWf = true ∧
    (codeOsrs State.reset.params .x16).toNat = (0xB7#8).toNat / 32 ∧
    (codeOsrs State.reset.params .x16).toNat = (0xB7#8).toNat / 4 % 8 ∧
    (codeMode State.reset.params .normal).toNat = (0xB7#8).toNat % 4 ∧
    (∀ ot, (codeOsrs State.reset.params ot).toNat ≠ (0xC0#8).toNat / 32) ∧
    (∀ op, (codeOsrs State.reset.params op).toNat ≠ (0x1C#8).toNat / 4 % 8) ∧
    (∀ m, (codeMode State.reset.params m).toNat ≠ (0x02#8).toNat % 4) := by
  refine ⟨rfl, by decide, by decide, by decide, by decide, ?_, ?_, ?_⟩ <;> intro x <;> cases x <;> decide
theorem witness_DecfltAnswersTheMembersOrReservedCode :
    State.reset.seq = .idle ∧ State.reset.params.codesWf = true ∧
    (codeTsb State.reset.params .sb7).toNat = (0xF1#8).toNat / 32 ∧
    (codeFilter State.reset.params .c16).toNat = (0xF1#8).toNat / 4 % 8 ∧
    (codeSpi3w true).toNat = (0xF1#8).toNat % 4 ∧
    (∀ f, (codeFilter State.reset.params f).toNat ≠ (0x14#8).toNat / 4 % 8) ∧ 2 ≤ (0x02#8).toNat % 4 := by
  refine ⟨rfl, by decide, by decide, by decide, by decide, ?_, by decide⟩ <;> intro x <;> cases x <;> decide
theorem witness_CodecRoundTrips :
    Params.default.codesWf = true ∧
    unpackCtrl Params.default 0xB7 = (some .x16, some .x16, some .normal) ∧
    unpackCfg Params.default 0xF1 = (some .sb7, some .c16, some true) := by decide

/-- One conjunct for each clause: the transport's byte, equal and different; the byte the device holds after a write
carried out and after one dropped; a read-back of no byte; a failed read; a failed write. -/
theorem witness_ApctlWritesAndVerifies :
    State.reset.seq = .idle ∧ (∀ l, Answer.ok [] ≠ .err l) ∧ (∀ l, Answer.device ≠ .err l) ∧
    (withAnswers [.ok [], .ok [0x57]]).answers = .ok [] :: .ok [0x57] :: [] ∧
    (withAnswers [.device, .ok [0x56]]).answers = .device :: .ok [0x56] :: [] ∧
    packCtrl State.reset.params .x2 .x16 .normal = 0x57 ∧
    (withAnswers [.device, .device]).answers = .device :: .device :: [] ∧
    (State.reset.device.store 0xF4 0x57).byteAt 0xF4 = some 0x57 ∧
    (withAnswers [.ok [], .device]).answers = .ok [] :: .device :: [] ∧
    Memory.byteAt [(0xF4, 0)] 0xF4 = some 0 ∧
    (withAnswers [.device, .ok []]).answers = .device :: .ok [] :: [] ∧ ([] : List Byte).length ≠ 1 ∧
    (withAnswers [.device, .err false]).answers = .device :: .err false :: [] ∧
    (withAnswers [.err true]).answers = .err true :: [] := by
  refine ⟨rfl, ?_, ?_, rfl, rfl, rfl, rfl, rfl, rfl, rfl, rfl, by decide, rfl, rfl⟩ <;> intro l h <;> cases h
/-- One conjunct for each clause: the transport's byte, equal and different; the byte the device holds after a write
carried out and after one dropped; a read-back of no byte; a failed read; a failed write. -/
theorem witness_ApfltWritesAndVerifies :
    State.reset.seq = .idle ∧ (∀ l, Answer.ok [] ≠ .err l) ∧ (∀ l, Answer.device ≠ .err l) ∧
    (withAnswers [.ok [], .ok [0x90]]).answers = .ok [] :: .ok [0x90] :: [] ∧
    (withAnswers [.device, .ok [0x56]]).answers = .device :: .ok [0x56] :: [] ∧
    packCfg State.reset.params .sb4 .c16 false = 0x90 ∧
    (withAnswers [.device, .device]).answers = .device :: .device :: [] ∧
    (State.reset.device.store 0xF5 0x90).byteAt 0xF5 = some 0x90 ∧
    (withAnswers [.ok [], .device]).answers = .ok [] :: .device :: [] ∧
    Memory.byteAt [(0xF5, 0)] 0xF5 = some 0 ∧
    (withAnswers [.device, .ok []]).answers = .device :: .ok [] :: [] ∧ ([] : List Byte).length ≠ 1 ∧
    (withAnswers [.device, .err false]).answers = .device :: .err false :: [] ∧
    (withAnswers [.err true]).answers = .err true :: [] := by
  refine ⟨rfl, ?_, ?_, rfl, rfl, rfl, rfl, rfl, rfl, rfl, rfl, by decide, rfl, rfl⟩ <;> intro l h <;> cases h
theorem witness_ConfigIsTheTwoVerifiedWrites :
    (withAnswers [.device, .device]).seq = .idle ∧
    ∃ t₁ t₂, exec (.apctl .x2 .x16 .normal) (withAnswers [.device, .device]) = .next t₁ ∧
      exec (.apflt .sb4 .c16 false) t₁ = .next t₂ := ⟨rfl, _, _, rfl, rfl⟩
theorem witness_ConfigWritesBothRegisters :
    let s := withAnswers [.ok [], .ok [0x57], .ok [], .ok [0x90]]
    let s' := withAnswers [.ok [], .ok [0x56]]
    s.seq = .idle ∧ s.params.order = .controlFirst ∧
    s.answers = .ok [] :: .ok [packCtrl s.params .x2 .x16 .normal] :: .ok [] :: .ok [0x90] :: [] ∧
    s'.answers = .ok [] :: .ok [0x56] :: [] ∧ 0x56 ≠ packCtrl s'.params .x2 .x16 .normal := by decide
theorem witness_ConfigurationReadsBackFromAStoringDevice :
    (withAnswers (List.replicate 6 .device)).seq = .idle ∧
    (withAnswers (List.replicate 6 .device)).params.wf = true ∧
    (withAnswers (List.replicate 6 .device)).answers = List.replicate 6 .device ++ [] := by decide
theorem witness_RdctlReadsAndDecodes :
    (withAnswers [.ok [0xB7]]).seq = .idle ∧ (withAnswers [.ok [0xB7]]).answers = .ok [0xB7] :: [] ∧
    (withAnswers [.device]).answers = .device :: [] ∧ Memory.byteAt [(0xF4, 0x56)] 0xF4 = some 0x56 ∧
    unpackCtrl State.reset.params 0xB7 = (some .x16, some .x16, some .normal) ∧
    unpackCtrl State.reset.params 0x56 = (some .x2, some .x16, none) ∧
    (withAnswers [.err true]).answers = .err true :: [] := by decide
theorem witness_RdfltReadsAndDecodes :
    (withAnswers [.ok [0xF1]]).seq = .idle ∧ (withAnswers [.ok [0xF1]]).answers = .ok [0xF1] :: [] ∧
    (withAnswers [.device]).answers = .device :: [] ∧ Memory.byteAt [(0xF5, 0x02)] 0xF5 = some 0x02 ∧
    unpackCfg State.reset.params 0xF1 = (some .sb7, some .c16, some true) ∧
    unpackCfg State.reset.params 0x02 = (some .sb0, some .off, none) ∧
    (withAnswers [.err true]).answers = .err true :: [] := by decide

/-- The two clauses of `s16` at the boundary. -/
theorem witness_SignedMappingReencodes : (0x7FFF#16).toNat ≤ 32767 ∧ 32767 < (0x8000#16).toNat := by decide
theorem witness_LdcalLoadsTwelveCoefficients :
    let lo : Fin 12 → Byte := fun _ => 0xFF
    let hi : Fin 12 → Byte := fun k => BitVec.ofNat 8 k
    (withAnswers ((List.ofFn fun k => Answer.ok [lo k, hi k]) ++ [stdBurst])).seq = .idle ∧
    (withAnswers ((List.ofFn fun k => Answer.ok [lo k, hi k]) ++ [stdBurst])).answers =
      (List.ofFn fun k => Answer.ok [lo k, hi k]) ++ [stdBurst] := ⟨rfl, rfl⟩
/-- The last read of `LDCAL`, good and bad, and its commit. -/
theorem witness_LdcalIsAllOrNothing :
    let z := List.replicate 22 0#8
    let s := { withAnswers [.ok [1, 2]] with seq := .busy .ldcal 11 z }
    let s' := { withAnswers [.ok [1]] with seq := .busy .ldcal 11 z }
    s.seq = .busy .ldcal 11 z ∧ (microStep s).isSome = true ∧ (microStep s').isSome = true ∧ 11 < 12 ∧
    State.reset.seq = .idle ∧
    { State.reset with seq := .busy .ldcal 12 (List.replicate 24 0) }.seq =
      .busy .ldcal 12 (List.ofFn fun _ : Fin 12 => [0#8, 0#8]).flatten := by decide
/-- The first and the last read, the bad answer an `Err` and a short list. -/
theorem witness_LdcalStopsAtTheFirstBadRead :
    let z : Fin 11 → Byte := fun _ => 0
    (withAnswers [.err false]).answers =
      (List.ofFn fun k : Fin (0 : Fin 12) => Answer.ok [k.elim0, k.elim0]) ++ .err false :: [] ∧
    (withAnswers ((List.ofFn fun k => Answer.ok [z k, z k]) ++ [.ok [0x43]])).answers =
      (List.ofFn fun k => Answer.ok [z k, z k]) ++ .ok [0x43] :: [] ∧
    ((11 : Fin 12) : Nat) = 11 ∧ [0x43#8].length ≠ 2 ∧ (withAnswers [.err false]).seq = .idle :=
  ⟨rfl, rfl, rfl, by decide, rfl⟩
/-- The last read of `LDCAL` and the burst. -/
theorem witness_AddressesDoNotWrap :
    Params.default.wf = true ∧ (.readBlock 0x9E 2 : Request) ∈ requestsOf Params.default .ldcal ∧
    (.readBlock 0xF7 6 : Request) ∈ requestsOf Params.default .acq := by decide

theorem witness_RdrawReadsOneBurst :
    (withAnswers [.ok [0, 1, 2, 3, 4, 255]]).seq = .idle ∧
    (withAnswers [.ok [0, 1, 2, 3, 4, 255]]).answers = .ok [0, 1, 2, 3, 4, 255] :: [] ∧
    (withAnswers [.ok [0, 1, 2, 3, 4]]).answers = .ok [0, 1, 2, 3, 4] :: [] ∧ [0#8, 1, 2, 3, 4].length ≠ 6 ∧
    (withAnswers [.err false]).answers = .err false :: [] := by decide

/-- The largest finite number and the smallest subnormal, zeros of both signs, a divisor that is no zero. -/
theorem witness_OperationsAreCorrectlyRounded :
    isFinite 0x7FEFFFFFFFFFFFFF = true ∧ isFinite 0x0000000000000001 = true ∧ isZero 0x0000000000000001 = false ∧
    isFinite 0x8000000000000000 = true ∧ isFinite 0x0000000000000000 = true := by decide
theorem witness_IntegerConversionIsExact : (2 ^ 32 - 1 : Int).natAbs < 2 ^ 32 ∧ (-65535 : Int).natAbs < 2 ^ 32 := by
  decide
theorem witness_EqualityIsIeeeEquality :
    isNaN 0x7FF8000000000000 = true ∧ isNaN 0xFFF0000000000001 = true ∧ isFinite 0x8000000000000000 = true ∧
    isFinite 0x7FEFFFFFFFFFFFFF = true := by decide
/-- A count above and a count equal to `16 * T1`. -/
theorem witness_FineTemperatureIsTwoRoundings :
    ((17#20).toNat : Int) - 16 * (1#16).toNat ≠ 0 ∧ ((16#20).toNat : Int) - 16 * (1#16).toNat = 0 := by decide
theorem witness_CmptComputesTheTemperature :
    (sampled stdCal).seq = .idle ∧ (sampled stdCal).cal = some stdCal ∧ (sampled stdCal).raw = some stdRaw ∧
    State.reset.cal = none ∧ (loaded []).cal = some stdCal ∧ (loaded []).raw = none := by decide
/-- The numbers of the witnesses below: the known vector (V7), the two zero divisors (V16, V17), the domain's edge. -/
theorem compensation_facts :
    compP stdRaw.adcP 0x40FF5A6497936000 stdCal = some 0x408F7442E7504A97 ∧
    compP stdRaw.adcP 0x413FFFBE00040000 cal17 = none ∧
    (magAtMost 0x4150000000000000 22 ∧ magAtMost 0xC150000000000000 22 ∧ magAtMost 0x4131F40000000000 22 ∧
      magAtMost 0x40FF5A6497936000 22) ∧
    fUnits (compPV1b 0x4131F40000000000 { stdCal with p2 := 0x8000, p3 := 0 }) = -32768 * unitsPerOne ∧
    (compT (extract20 0x7E 0xED 0x00) stdCal.t1 stdCal.t2 stdCal.t3).2 = 0x40FF5A6497936000 ∧
    compP (extract20 0x65 0x5A 0xC0) 0x40FF5A6497936000 { stdCal with p1 := 0 } = none := by decide +kernel

theorem witness_CmppComputesThePressure :
    let s := warmed stdCal 0x40FF5A6497936000 0x4039151D460F8000
    s.seq = .idle ∧ s.cal = some stdCal ∧ s.raw = some stdRaw ∧ s.tFine = some 0x40FF5A6497936000 ∧
    compP stdRaw.adcP 0x40FF5A6497936000 stdCal = some 0x408F7442E7504A97 ∧
    (warmed cal17 0x413FFFBE00040000 0).tFine = some 0x413FFFBE00040000 ∧
    compP stdRaw.adcP 0x413FFFBE00040000 cal17 = none ∧
    State.reset.cal = none ∧ (loaded []).raw = none ∧ (sampled stdCal).tFine = none :=
  ⟨rfl, rfl, rfl, rfl, compensation_facts.1, rfl, compensation_facts.2.1, rfl, rfl, rfl⟩
/-- The domain's edge, `2^22`; and the numbers of V16 and V17, where the divisor is a zero for each cause. -/
theorem witness_ArithmeticErrorExactlyOnZeroDivisor :
    magAtMost 0x4150000000000000 22 ∧ magAtMost 0xC150000000000000 22 ∧ magAtMost 0x4131F40000000000 22 ∧
    cal17.p1 = 0 ∧
    fUnits (compPV1b 0x4131F40000000000 { stdCal with p2 := 0x8000, p3 := 0 }) = -32768 * unitsPerOne :=
  have h := compensation_facts.2.2
  ⟨h.1.1, h.1.2.1, h.1.2.2.1, rfl, h.2.1⟩
theorem witness_PressureIsFinite :
    magAtMost 0x40FF5A6497936000 22 ∧ compP stdRaw.adcP 0x40FF5A6497936000 stdCal = some 0x408F7442E7504A97 :=
  ⟨compensation_facts.2.2.1.2.2.2, compensation_facts.1⟩

/-- The domain's edge and both cases of the divisor: the known vector, and V17. -/
theorem witness_PressureIsTheListedOperations :
    magAtMost 0x4150000000000000 22 ∧ magAtMost 0x40FF5A6497936000 22 ∧
    compP stdRaw.adcP 0x40FF5A6497936000 stdCal = some 0x408F7442E7504A97 ∧
    compP stdRaw.adcP 0x413FFFBE00040000 cal17 = none :=
  have h := compensation_facts
  ⟨h.2.2.1.1, h.2.2.1.2.2.2, h.1, h.2.1⟩
theorem witness_IdleBlockDoesNothingByItself :
    State.reset.seq = .idle ∧ State.reset.events = [] ∧ { State.reset with events := [.tick] }.seq = .idle ∧
    { State.reset with events := [.tick] }.events = .tick :: [] := ⟨rfl, rfl, rfl, rfl⟩

/-- The three outcomes of the composition: a failed burst, an arithmetic error, a reading. -/
theorem witness_AcqIsTheThreeCommandsComposed :
    (loaded [stdBurst]).seq = .idle ∧ calValid (loaded [stdBurst]) = true ∧
    (∃ t₁ t₂ t₃, exec .rdraw (loaded [stdBurst]) = .next t₁ ∧ exec .cmpt t₁ = .next t₂ ∧
      exec .cmpp t₂ = .next t₃) ∧
    fieldOf (·.status) (exec .rdraw (loaded [stdBurst])) = some 0 ∧
    fieldOf (·.status) (exec .rdraw (loaded [.err false])) = some 1 :=
  ⟨rfl, rfl, ⟨_, _, _, rfl, rfl, rfl⟩, by decide, by decide⟩
theorem witness_AcqAnswersTheReading :
    (loaded [stdBurst]).seq = .idle ∧ (loaded [stdBurst]).cal = some stdCal ∧
    (loaded [stdBurst]).answers = .ok [0x65, 0x5A, 0xC0, 0x7E, 0xED, 0x00] :: [] ∧
    compP (extract20 0x65 0x5A 0xC0) (compT (extract20 0x7E 0xED 0x00) stdCal.t1 stdCal.t2 stdCal.t3).2 stdCal =
      some 0x408F7442E7504A97 ∧
    compP (extract20 0x65 0x5A 0xC0) (compT (extract20 0x7E 0xED 0x00) stdCal.t1 stdCal.t2 stdCal.t3).2
      { stdCal with p1 := 0 } = none ∧
    (loaded [.ok []]).answers = .ok [] :: [] ∧ (loaded [.err true]).answers = .err true :: [] ∧
    State.reset.cal = none := by
  obtain ⟨h1, -, -, -, h2, h3⟩ := compensation_facts
  rw [h2]
  exact ⟨rfl, rfl, rfl, h1, h3, rfl, rfl, rfl⟩
theorem witness_AcqUsesNoOldSample :
    (loaded [stdBurst]).seq = .idle ∧ (∃ t, exec .acq (loaded [stdBurst]) = .next t) ∧
    ∃ t', exec .acq { loaded [stdBurst] with
      raw := some stdRaw, tFine := some 0, tempC := some 0, press := none } = .next t' :=
  ⟨rfl, ⟨_, rfl⟩, ⟨_, rfl⟩⟩

theorem witness_ResetEventResetsTheBlockOnly :
    (busyLdcal [.reset]).events = .reset :: [] ∧ { State.reset with events := [.reset] }.events = .reset :: [] :=
  ⟨rfl, rfl⟩
/-- Every register with a value and without one; the last name of `CAL`; a read that the host has ready. -/
theorem witness_HostReadsAValueOrFaults :
    let s := { warmed stdCal 0x40FF5A6497936000 0x4039151D460F8000 with
      press := some 0x408F7442E7504A97, events := [.read (.cal 11)] }
    s.seq = .idle ∧ s.events = .read (.cal 11) :: [] ∧ s.cal = some stdCal ∧ s.raw = some stdRaw ∧
    s.tFine = some 0x40FF5A6497936000 ∧ s.tempC = some 0x4039151D460F8000 ∧ s.press = some 0x408F7442E7504A97 ∧
    [stdCal.t1, stdCal.t2, stdCal.t3, stdCal.p1, stdCal.p2, stdCal.p3, stdCal.p4, stdCal.p5, stdCal.p6, stdCal.p7,
      stdCal.p8, stdCal.p9][(11 : Fin 12).val]? = some 0x1770 ∧
    State.reset.seq = .idle ∧ State.reset.cal = none ∧ State.reset.raw = none ∧ State.reset.tFine = none ∧
    State.reset.tempC = none ∧ State.reset.press = none := by decide
theorem witness_StoreThenReadReturnsTheByte :
    Memory.wf [(0, 1), (255, 2)] = true ∧ (254 : Nat) ≠ (0xFF#8).toNat := by decide
theorem witness_SensorChangesOneDeviceByte :
    { State.reset with events := [.sensor 0xFF 1] }.events = .sensor 0xFF 1 :: [] := rfl
theorem witness_EveryStepKeepsTheRegistersOk :
    RegistersOk (warmed stdCal 0x4150000000000000 0) ∧
    ∃ t, step (warmed stdCal 0x4150000000000000 0) = .next t :=
  ⟨⟨by decide, fun x hx => by cases hx; exact compensation_facts.2.2.1.1,
    fun x hx => by cases hx; decide, fun x hx => by cases hx⟩, ⟨_, rfl⟩⟩
theorem witness_EveryStepKeepsTheMachineOk :
    MachineOk { State.reset with seq := .busy .acq 2 [0, 0, 0, 0, 0, 0] } ∧
    ∃ t, step { State.reset with seq := .busy .acq 2 [0, 0, 0, 0, 0, 0] } = .next t :=
  ⟨⟨by simp [SeqOk, microSteps, acqSteps, tmpLength], by decide, by decide⟩, ⟨_, rfl⟩⟩
theorem witness_EveryStepGoesOnAndOnlyAForbiddenReadIsAHostFault :
    MachineOk State.reset ∧ ¬ ReadsNoValue State.reset ∧
    MachineOk { State.reset with events := [.read .tFine] } ∧
    ReadsNoValue { State.reset with events := [.read .tFine] } :=
  ⟨⟨trivial, by decide, by decide⟩, by (rintro ⟨-, r, es, h, -⟩; cases h), ⟨trivial, by decide, by decide⟩,
    ⟨rfl, .tFine, [], rfl, rfl⟩⟩

end Sys2Proof.Tests
end

section
/-! PROOF. The valid flags (R18): the row of the table in which each command ends, and the refusals for a missing
calibration or operand. -/

namespace Sys2Proof.Machine

/-! ### What the shared operations do to the flags -/

@[simp] theorem flags_raiseError (e : Err) (s : State) : flags (raiseError e s) = flags s := rfl
@[simp] theorem flags_respondOk (p : Payload) (s : State) : flags (respondOk p s) = flags s := rfl
@[simp] theorem flags_transport (r : Request) (s : State) : flags (transport r s).2 = flags s := rfl
@[simp] theorem calValid_transport (r : Request) (s : State) : calValid (transport r s).2 = calValid s := rfl

/-- The reads of `LDCAL` change no register, so none of the flags. -/
@[simp] theorem flags_readsFrom (p : Params) : ∀ (n j : Nat) (s : State), flags (readsFrom p j n s) = flags s
  | 0, _, _ => rfl
  | n + 1, j, _ => flags_readsFrom p n (j + 1) _
@[simp] theorem rawValid_readsFrom (p : Params) : ∀ (n j : Nat) (s : State),
    rawValid (readsFrom p j n s) = rawValid s
  | 0, _, _ => rfl
  | n + 1, j, _ => rawValid_readsFrom p n (j + 1) _

/-! ### The rows of R18: what each commit writes -/

@[simp] theorem flags_commitCal (c : Cal) (s : State) :
    flags (commitCal c s) = [true, rawValid s, false, false, false] := rfl
@[simp] theorem flags_commitRaw (r : RawSample) (s : State) :
    flags (commitRaw r s) = [calValid s, true, false, false, false] := rfl
@[simp] theorem flags_commitTemp (tc tf : F64) (s : State) :
    flags (commitTemp tc tf s) = [calValid s, rawValid s, true, true, false] := rfl
@[simp] theorem flags_commitPress (x : F64) (s : State) :
    flags (commitPress x s) = [calValid s, rawValid s, fineValid s, tempValid s, true] := rfl
@[simp] theorem flags_dropPress (s : State) :
    flags (dropPress s) = [calValid s, rawValid s, fineValid s, tempValid s, false] := rfl

/-- The flags of the inputs of `ACQ`'s pressure step, after its `RDRAW` and its `CMPT` step (R160). -/
@[simp] theorem inputFlags_commitTemp_commitRaw (tc tf : F64) (r : RawSample) (s : State) :
    calValid (commitTemp tc tf (commitRaw r s)) = calValid s ∧ rawValid (commitTemp tc tf (commitRaw r s)) = true ∧
    fineValid (commitTemp tc tf (commitRaw r s)) = true ∧ tempValid (commitTemp tc tf (commitRaw r s)) = true :=
  ⟨rfl, rfl, rfl, rfl⟩

/-! ### The row of each command -/

/-- Two answers of `exec` to one command are the same state. -/
theorem exec_next_unique {i : Instr} {s t u : State} (ht : exec i s = .next t) (hu : exec i s = .next u) : t = u :=
  Host.Outcome.next.inj (ht.symm.trans hu)

/-- R18: every ending of every command is the row of the table for its status. -/
theorem exec_flags (i : Instr) (s t : State) (h : s.seq = .idle) (ht : exec i s = .next t) :
    flags t = flagsAfter i t.status s := by
  cases i with
  | ldcal =>
    rcases exec_ldcal_cases s h with ⟨k, -, e⟩ | ⟨c, e⟩ <;>
      obtain rfl := exec_next_unique ht e <;> simp [flagsAfter, errCode, codeOk]
  | apctl ot op m =>
    obtain ⟨u, e, hu⟩ := exec_apctl_cases ot op m s h
    obtain rfl := exec_next_unique ht e
    rcases hu with rfl | rfl | rfl | rfl <;> simp [flagsAfter]
  | apflt sb f w =>
    obtain ⟨u, e, hu⟩ := exec_apflt_cases sb f w s h
    obtain rfl := exec_next_unique ht e
    rcases hu with rfl | rfl | rfl | rfl <;> simp [flagsAfter]
  | config ot op m sb f w =>
    obtain ⟨u, e, hu⟩ := exec_config_cases ot op m sb f w s h
    obtain rfl := exec_next_unique ht e
    rcases hu with rfl | rfl | rfl | rfl | rfl | rfl | rfl <;> simp [flagsAfter]
  | rdraw =>
    rcases exec_rdraw_cases s h with e | ⟨bs, r, -, -, e⟩ <;>
      obtain rfl := exec_next_unique ht e <;> simp [flagsAfter, errCode, codeOk]
  | cmpt =>
    rcases exec_cmpt_cases s h with ⟨-, e⟩ | ⟨c, -, -, e⟩ | ⟨c, r, -, -, e⟩ <;>
      obtain rfl := exec_next_unique ht e <;> simp [flagsAfter, errCode, codeOk]
  | cmpp =>
    rcases exec_cmpp_cases s h with ⟨-, e⟩ | ⟨c, -, -, e⟩ | ⟨c, r, tf, -, -, -, ⟨-, e⟩ | ⟨x, -, e⟩⟩ <;>
      obtain rfl := exec_next_unique ht e <;> simp [flagsAfter, errCode, codeOk]
  | acq =>
    rcases exec_acq_cases s h with ⟨-, e⟩ | ⟨c, -, e | ⟨bs, r, -, -, ⟨-, e⟩ | ⟨x, -, e⟩⟩⟩ <;>
      obtain rfl := exec_next_unique ht e <;> simp [flagsAfter, errCode, codeOk]
  | encctl ot op m => obtain rfl := exec_next_unique ht (exec_encctl ot op m s h); simp [flagsAfter]
  | encflt sb f w => obtain rfl := exec_next_unique ht (exec_encflt sb f w s h); simp [flagsAfter]
  | decctl b =>
    rcases exec_decctl_cases b s h with ⟨ot, op, m, -, e⟩ | ⟨-, e⟩ <;>
      obtain rfl := exec_next_unique ht e <;> simp [flagsAfter]
  | decflt b =>
    rcases exec_decflt_cases b s h with ⟨sb, f, w, -, e⟩ | ⟨-, e⟩ <;>
      obtain rfl := exec_next_unique ht e <;> simp [flagsAfter]
  | rdctl =>
    rcases exec_rdctl_cases s h with e | ⟨b, -, ⟨ot, op, m, -, e⟩ | ⟨-, e⟩⟩ <;>
      obtain rfl := exec_next_unique ht e <;> simp [flagsAfter]
  | rdflt =>
    rcases exec_rdflt_cases s h with e | ⟨b, -, ⟨sb, f, w, -, e⟩ | ⟨-, e⟩⟩ <;>
      obtain rfl := exec_next_unique ht e <;> simp [flagsAfter]

/-! ### The refusals -/

/-- R142: which flag `CMPT` needs, and in which order it asks. -/
theorem exec_cmpt_refusals (s t : State) (h : s.seq = .idle) (ht : exec .cmpt s = .next t) :
    (t.status = 4 ↔ calValid s = false) ∧ (t.status = 5 ↔ calValid s = true ∧ rawValid s = false) := by
  rcases exec_cmpt_cases s h with ⟨hc, e⟩ | ⟨c, hc, hr, e⟩ | ⟨c, r, hc, hr, e⟩ <;>
    obtain rfl := exec_next_unique ht e
  · simp [calValid, errCode, hc]
  · simp [calValid, rawValid, errCode, hc, hr]
  · simp [calValid, rawValid, codeOk, hc, hr]

/-- R145: which flags `CMPP` needs, and in which order it asks. -/
theorem exec_cmpp_refusals (s t : State) (h : s.seq = .idle) (ht : exec .cmpp s = .next t) :
    (t.status = 4 ↔ calValid s = false) ∧
      (t.status = 5 ↔ calValid s = true ∧ (rawValid s = false ∨ fineValid s = false)) := by
  rcases exec_cmpp_cases s h with
      ⟨hc, e⟩ | ⟨c, hc, hm, e⟩ | ⟨c, r, tf, hc, hr, hf, ⟨-, e⟩ | ⟨x, -, e⟩⟩ <;>
    obtain rfl := exec_next_unique ht e
  · simp [calValid, errCode, hc]
  · simp [calValid, rawValid, fineValid, errCode, hc, hm]
  · simp [calValid, rawValid, fineValid, errCode, hc, hr, hf]
  · simp [calValid, rawValid, fineValid, codeOk, hc, hr, hf]

/-- R160, R161: `ACQ` refuses for a missing calibration only, before any bus traffic. -/
theorem exec_acq_refusal (s t : State) (h : s.seq = .idle) (ht : exec .acq s = .next t) :
    (t.status = 4 ↔ calValid s = false) ∧ (t.status = 4 → t.trace = s.trace) := by
  rcases exec_acq_cases s h with ⟨hc, e⟩ | ⟨c, hc, e | ⟨bs, r, -, -, ⟨-, e⟩ | ⟨x, -, e⟩⟩⟩ <;>
    obtain rfl := exec_next_unique ht e
  · simp [calValid, errCode, hc]
  · simp [calValid, errCode, hc]
  · simp [calValid, errCode, hc]
  · simp [calValid, codeOk, hc]

/-- Settles O18: the row of the table by `exec_flags`, the needed flags command by command, and the flags after reset
by their definition. -/
theorem flagTable : Obligations.FlagTable := by
  refine ⟨fun i s t h ht => ⟨exec_flags i s t h ht, ?_, ?_, ?_⟩, fun _ => rfl, rfl⟩
  · rintro rfl; exact exec_cmpt_refusals s t h ht
  · rintro rfl; exact exec_cmpp_refusals s t h ht
  · rintro rfl; exact exec_acq_refusal s t h ht

end Sys2Proof.Machine
end

section
/-! PROOF. The requests of a command are those of R54's table (R58): what each shared operation adds to the bus trace,
what the end of a command makes of it, and the table's row command by command. -/

namespace Sys2Proof.Machine

/-! ### The requests between two states -/

/-- From `s` to `t` exactly the requests `qs` were made, in this order, each recorded once in the bus trace. -/
def Requested (qs : List Request) (s t : State) : Prop :=
  ∃ es : List BusEntry,
    t.trace = es.reverse ++ s.trace ∧ t.draws = s.draws + es.length ∧ es.map (·.request) = qs

theorem requested_nil (s : State) : Requested [] s s := ⟨[], rfl, rfl, rfl⟩

/-- One transport transaction is one request more (R47, R64). -/
theorem Requested.transport {qs : List Request} {s t : State} (h : Requested qs s t) (r : Request) :
    Requested (qs ++ [r]) s (transport r t).2 := by
  obtain ⟨es, htr, hdr, rfl⟩ := h
  refine ⟨es ++ [⟨r, replyTo t r (nextAnswer t)⟩], ?_, ?_, ?_⟩
  · simp [htr]
  · simp [hdr, Nat.add_assoc]
  · simp

/-- The two requests of `WriteVerify` (R118). -/
def verifyRequests (a : Addr) (b : Byte) : List Request := [.writeByte a b, .readByte a]

theorem Requested.afterVerify {qs : List Request} {s t : State} (h : Requested qs s t) (a : Addr) (b : Byte) :
    Requested (qs ++ verifyRequests a b) s (afterVerify a b t) := by
  simpa [verifyRequests] using (h.transport (.writeByte a b)).transport (.readByte a)

/-- The reads of `LDCAL` are block reads of two bytes at rising addresses (R102). -/
theorem requested_readsFrom (p : Params) (n j : Nat) (s : State) :
    Requested ((List.range' j n).map fun k => .readBlock (p.calBase + BitVec.ofNat 8 (2 * k)) 2) s
      (readsFrom p j n s) := by
  obtain ⟨es, h, hq⟩ := readsFrom_frame p n j s
  have hlen : es.length = n := by simpa using congrArg List.length hq
  exact ⟨es, by rw [h], by rw [h, hlen], hq⟩

/-! A register written is no request. -/

theorem Requested.commitCal {qs : List Request} {s t : State} (h : Requested qs s t) (c : Cal) :
    Requested qs s (commitCal c t) := h
theorem Requested.commitRaw {qs : List Request} {s t : State} (h : Requested qs s t) (r : RawSample) :
    Requested qs s (commitRaw r t) := h
theorem Requested.commitTemp {qs : List Request} {s t : State} (h : Requested qs s t) (tc tf : F64) :
    Requested qs s (commitTemp tc tf t) := h
theorem Requested.commitPress {qs : List Request} {s t : State} (h : Requested qs s t) (x : F64) :
    Requested qs s (commitPress x t) := h
theorem Requested.dropPress {qs : List Request} {s t : State} (h : Requested qs s t) :
    Requested qs s (dropPress t) := h

/-! ### The end of a command -/

/-- R54 between the state before and the state after a command whose row of the table is `row`: the requests made are a
prefix of the row, and the whole row where the status is `OK`. -/
def FollowsRow (row : List Request) (s t : State) : Prop :=
  ∃ es : List BusEntry,
    t.trace = es.reverse ++ s.trace ∧ t.draws = s.draws + es.length ∧
    es.map (·.request) <+: row ∧ (t.status = 0 → es.map (·.request) = row)

theorem errCode_ne_zero (e : Err) : errCode e ≠ 0 := by cases e <;> decide

/-- A command may raise an error after any part of its row. -/
theorem Requested.followsRow_raise {qs row : List Request} {s t : State} (h : Requested qs s t) (e : Err)
    (hrow : qs <+: row) : FollowsRow row s (raiseError e t) := by
  obtain ⟨es, htr, hdr, rfl⟩ := h
  exact ⟨es, htr, hdr, hrow, fun h0 => absurd h0 (errCode_ne_zero e)⟩

/-- A command responds `OK` after the whole row. -/
theorem Requested.followsRow_respond {row : List Request} {s t : State} (h : Requested row s t) (p : Payload) :
    FollowsRow row s (respondOk p t) := by
  obtain ⟨es, htr, hdr, rfl⟩ := h
  exact ⟨es, htr, hdr, List.prefix_refl _, fun _ => rfl⟩

/-- The endings of a verified write that is the last part of a command, after the requests `qs` of the parts before. -/
theorem followsRow_writeVerify {qs : List Request} {a : Addr} {b : Byte} {s u t : State}
    (hu : Requested qs s u)
    (ht : t = raiseError .transportError (transport (.writeByte a b) u).2 ∨
      t = raiseError .transportError (afterVerify a b u) ∨
      t = raiseError .verificationFailed (afterVerify a b u) ∨
      t = respondOk .none (afterVerify a b u)) : FollowsRow (qs ++ verifyRequests a b) s t := by
  have write := hu.transport (.writeByte a b)
  have verify := hu.afterVerify a b
  rcases ht with rfl | rfl | rfl | rfl
  · exact write.followsRow_raise _ (by simp [verifyRequests])
  · exact verify.followsRow_raise _ (List.prefix_refl _)
  · exact verify.followsRow_raise _ (List.prefix_refl _)
  · exact verify.followsRow_respond _

/-- The endings of a command that is two verified writes (`CONFIG`): those in the first, else those of the second. -/
theorem followsRow_writeVerify_twice {a a' : Addr} {b b' : Byte} {s t : State}
    (ht : t = raiseError .transportError (transport (.writeByte a b) s).2 ∨
      t = raiseError .transportError (afterVerify a b s) ∨
      t = raiseError .verificationFailed (afterVerify a b s) ∨
      t = raiseError .transportError (transport (.writeByte a' b') (afterVerify a b s)).2 ∨
      t = raiseError .transportError (afterVerify a' b' (afterVerify a b s)) ∨
      t = raiseError .verificationFailed (afterVerify a' b' (afterVerify a b s)) ∨
      t = respondOk .none (afterVerify a' b' (afterVerify a b s))) :
    FollowsRow (verifyRequests a b ++ verifyRequests a' b') s t := by
  have write := (requested_nil s).transport (.writeByte a b)
  have verify := (requested_nil s).afterVerify a b
  rcases ht with rfl | rfl | rfl | second
  · exact write.followsRow_raise _ (by simp [verifyRequests])
  · exact verify.followsRow_raise _ (List.prefix_append _ _)
  · exact verify.followsRow_raise _ (List.prefix_append _ _)
  · exact followsRow_writeVerify verify second

/-! ### The row of each command -/

/-- The row of `CONFIG` is that of its two verified writes, in `CONFIGURE_ORDER` (R54, R117). -/
theorem requestsOf_config (p : Params) (ot op : Osrs) (m : Mode) (sb : Standby) (f : Filter) (w : Bool) :
    requestsOf p (.config ot op m sb f w) =
      verifyRequests (configWrites p ot op m sb f w).1.1 (configWrites p ot op m sb f w).1.2 ++
      verifyRequests (configWrites p ot op m sb f w).2.1 (configWrites p ot op m sb f w).2.2 := by
  unfold requestsOf configWrites
  cases p.order <;> rfl

theorem exec_ldcal_followsRow (s t : State) (h : s.seq = .idle) (ht : exec .ldcal s = .next t) :
    FollowsRow (requestsOf s.params .ldcal) s t := by
  rw [requestsOf, List.range_eq_range']
  rcases exec_ldcal_cases s h with ⟨k, hk, e⟩ | ⟨c, e⟩ <;> obtain rfl := exec_next_unique ht e
  · have hpre : List.range' 0 (k + 1) <+: List.range' 0 12 :=
      ⟨List.range' (0 + (k + 1)) (11 - k), by rw [List.range'_append_1]; congr 1; omega⟩
    exact (requested_readsFrom s.params (k + 1) 0 s).followsRow_raise _ (hpre.map _)
  · exact ((requested_readsFrom s.params 12 0 s).commitCal c).followsRow_respond _

/-- R54, R58: every ending of every command follows its row of the table. -/
theorem exec_followsRow (i : Instr) (s t : State) (h : s.seq = .idle) (ht : exec i s = .next t) :
    FollowsRow (requestsOf s.params i) s t := by
  have nil := requested_nil s
  have one := nil.transport
  cases i with
  | ldcal => exact exec_ldcal_followsRow s t h ht
  | apctl ot op m =>
    obtain ⟨u, e, hu⟩ := exec_apctl_cases ot op m s h
    obtain rfl := exec_next_unique ht e
    exact followsRow_writeVerify nil hu
  | apflt sb f w =>
    obtain ⟨u, e, hu⟩ := exec_apflt_cases sb f w s h
    obtain rfl := exec_next_unique ht e
    exact followsRow_writeVerify nil hu
  | config ot op m sb f w =>
    obtain ⟨u, e, hu⟩ := exec_config_cases ot op m sb f w s h
    obtain rfl := exec_next_unique ht e
    rw [requestsOf_config]
    exact followsRow_writeVerify_twice hu
  | rdraw =>
    have burst := one (.readBlock s.params.dataBase 6)
    rcases exec_rdraw_cases s h with e | ⟨bs, r, -, -, e⟩ <;> obtain rfl := exec_next_unique ht e
    · exact burst.followsRow_raise _ (List.prefix_refl _)
    · exact (burst.commitRaw r).followsRow_respond _
  | cmpt =>
    rcases exec_cmpt_cases s h with ⟨-, e⟩ | ⟨c, -, -, e⟩ | ⟨c, r, -, -, e⟩ <;> obtain rfl := exec_next_unique ht e
    · exact nil.followsRow_raise _ List.nil_prefix
    · exact nil.followsRow_raise _ List.nil_prefix
    · exact (nil.commitTemp _ _).followsRow_respond _
  | cmpp =>
    rcases exec_cmpp_cases s h with ⟨-, e⟩ | ⟨c, -, -, e⟩ | ⟨c, r, tf, -, -, -, ⟨-, e⟩ | ⟨x, -, e⟩⟩ <;>
      obtain rfl := exec_next_unique ht e
    · exact nil.followsRow_raise _ List.nil_prefix
    · exact nil.followsRow_raise _ List.nil_prefix
    · exact nil.dropPress.followsRow_raise _ List.nil_prefix
    · exact (nil.commitPress x).followsRow_respond _
  | acq =>
    have burst := one (.readBlock s.params.dataBase 6)
    rcases exec_acq_cases s h with ⟨-, e⟩ | ⟨c, -, e | ⟨bs, r, -, -, ⟨-, e⟩ | ⟨x, -, e⟩⟩⟩ <;>
      obtain rfl := exec_next_unique ht e
    · exact nil.followsRow_raise _ List.nil_prefix
    · exact burst.followsRow_raise _ (List.prefix_refl _)
    · exact ((burst.commitRaw r).commitTemp _ _).dropPress.followsRow_raise _ (List.prefix_refl _)
    · exact (((burst.commitRaw r).commitTemp _ _).commitPress x).followsRow_respond _
  | encctl ot op m =>
    obtain rfl := exec_next_unique ht (exec_encctl ot op m s h)
    exact nil.followsRow_respond _
  | encflt sb f w =>
    obtain rfl := exec_next_unique ht (exec_encflt sb f w s h)
    exact nil.followsRow_respond _
  | decctl b =>
    rcases exec_decctl_cases b s h with ⟨ot, op, m, -, e⟩ | ⟨-, e⟩ <;> obtain rfl := exec_next_unique ht e
    · exact nil.followsRow_respond _
    · exact nil.followsRow_raise _ List.nil_prefix
  | decflt b =>
    rcases exec_decflt_cases b s h with ⟨sb, f, w, -, e⟩ | ⟨-, e⟩ <;> obtain rfl := exec_next_unique ht e
    · exact nil.followsRow_respond _
    · exact nil.followsRow_raise _ List.nil_prefix
  | rdctl =>
    have read := one (.readByte s.params.ctrlAddr)
    rcases exec_rdctl_cases s h with e | ⟨b, -, ⟨ot, op, m, -, e⟩ | ⟨-, e⟩⟩ <;> obtain rfl := exec_next_unique ht e
    · exact read.followsRow_raise _ (List.prefix_refl _)
    · exact read.followsRow_respond _
    · exact read.followsRow_raise _ (List.prefix_refl _)
  | rdflt =>
    have read := one (.readByte s.params.configAddr)
    rcases exec_rdflt_cases s h with e | ⟨b, -, ⟨sb, f, w, -, e⟩ | ⟨-, e⟩⟩ <;> obtain rfl := exec_next_unique ht e
    · exact read.followsRow_raise _ (List.prefix_refl _)
    · exact read.followsRow_respond _
    · exact read.followsRow_raise _ (List.prefix_refl _)

/-- Settles O12, by the row of each command (`exec_followsRow`). -/
theorem requestsFollowTheTable : Obligations.RequestsFollowTheTable := exec_followsRow

end Sys2Proof.Machine
end

section
/-! PROOF. The calibration load: the signed mapping of a pattern (R71, R104), what a read of `LDCAL` and its commit do
(R100 to R103), and that nothing is kept of a load that fails (R101). -/

namespace Sys2Proof.Machine

/-! ### Patterns -/

/-- R71: the signed reading up to 32767 is the pattern itself. -/
theorem s16_of_le {r : Pattern} (h : r.toNat ≤ 32767) : s16 r = r.toNat := if_pos h

/-- R71: the signed reading above 32767 is the pattern minus 65536. -/
theorem s16_of_gt {r : Pattern} (h : 32767 < r.toNat) : s16 r = (r.toNat : Int) - 65536 := if_neg (by omega)

/-- R104: taking the signed reading back to 16 bits gives the pattern, so no two patterns share one. -/
theorem s16_injective : Function.Injective s16 := fun r r' h => by
  have hmod : (r.toNat : Int) = r'.toNat := by rw [← s16_emod r, ← s16_emod r', h]
  exact BitVec.eq_of_toNat_eq (by exact_mod_cast hmod)

/-- R71: the bytes of a pattern are its remainder and its quotient by 256. -/
theorem pattern16_inj {lo hi lo' hi' : Byte} (h : pattern16 lo hi = pattern16 lo' hi') : lo = lo' ∧ hi = hi' := by
  have hnum : lo.toNat + 256 * hi.toNat = lo'.toNat + 256 * hi'.toNat := by
    rw [← pattern16_toNat, ← pattern16_toNat, h]
  have hlo := lo.isLt
  have hlo' := lo'.isLt
  exact ⟨BitVec.eq_of_toNat_eq (by omega), BitVec.eq_of_toNat_eq (by omega)⟩

/-- Settles O31, by the two ranges of `s16`, its remainder and the remainder of a pattern by 256. -/
theorem signedMappingReencodes : Obligations.SignedMappingReencodes := fun r =>
  ⟨s16_of_le, s16_of_gt, s16_emod r, fun _ h => s16_injective h, fun _ _ _ _ => pattern16_inj⟩

/-! ### The commit -/

/-- The bytes of `n` good reads, in the order in which `LDCAL` gathers them (R70, R100). -/
def gathered {n : Nat} (lo hi : Fin n → Byte) : List Byte := (List.ofFn fun k => [lo k, hi k]).flatten

theorem gathered_succ {n : Nat} (lo hi : Fin (n + 1) → Byte) :
    gathered lo hi = [lo 0, hi 0] ++ gathered (fun k => lo k.succ) (fun k => hi k.succ) := by
  simp [gathered, List.ofFn_succ]

/-- R70, R71: the set gathered from twelve byte pairs has the pattern of pair `k` in `CAL[k]`. -/
theorem calOfBytes_gathered (lo hi : Fin 12 → Byte) :
    ∃ c, calOfBytes (gathered lo hi) = some c ∧
      ∀ k : Fin 12, (calReg c k).toNat = (lo k).toNat + 256 * (hi k).toNat := by
  refine ⟨_, rfl, fun k => ?_⟩
  fin_cases k <;> exact pattern16_toNat _ _

/-- The last micro-step of `LDCAL`, given bytes that are a set, writes the set and responds with it (R100, R101). -/
theorem ldcalCommit_of_some {tmp : List Byte} {c : Cal} (h : calOfBytes tmp = some c) (s : State) :
    ldcalCommit tmp s = .respond (.coefficients c) (commitCal c s) := by
  rw [ldcalCommit, h]

/-! ### Good reads -/

/-- The record of read `k` of `LDCAL`, answered with two bytes (R64, R102). -/
def goodRead (p : Params) (k : Nat) (lo hi : Byte) : BusEntry where
  request := .readBlock (p.calBase + BitVec.ofNat 8 (2 * k)) 2
  reply := .ok [lo, hi]

/-- A read of `LDCAL` that gets its two bytes gathers them; only the records of the bus change (R45, R100). -/
theorem ldcalRead_good (p : Params) (k : Nat) (tmp : List Byte) (s : State) {lo hi : Byte} {rest : List Answer}
    (h : s.answers = .ok [lo, hi] :: rest) :
    ldcalRead p k tmp s = .next (tmp ++ [lo, hi]) { s with
      answers := rest, draws := s.draws + 1, trace := goodRead p k lo hi :: s.trace } := by
  simp [ldcalRead, memRead, transport, nextAnswer, h, replyTo, goodRead]

/-- The state of `LDCAL` at micro-step `j + n`, when the reads `j` to `j + n - 1` were good and `tmp` was gathered
before them. -/
def afterGoodReads (p : Params) (j : Nat) {n : Nat} (lo hi : Fin n → Byte) (tmp : List Byte) (rest : List Answer)
    (s : State) : State :=
  { s with
    seq := .busy .ldcal (j + n) (tmp ++ gathered lo hi)
    answers := rest
    draws := s.draws + n
    trace := (List.ofFn fun k : Fin n => goodRead p (j + k) (lo k) (hi k)).reverse ++ s.trace }

/-- The induction over the good reads of `LDCAL`: whatever micro-steps follow, they go on from `afterGoodReads`. -/
theorem runFrom_goodReads (p : Params) (ms : List MicroStep) (rest : List Answer) :
    ∀ (n j : Nat) (lo hi : Fin n → Byte) (tmp : List Byte) (s : State),
      s.seq = .busy .ldcal j tmp → s.answers = (List.ofFn fun k => Answer.ok [lo k, hi k]) ++ rest →
      runFrom .ldcal ((List.range' j n).map (ldcalRead p) ++ ms) j tmp s =
        runFrom .ldcal ms (j + n) (tmp ++ gathered lo hi) (afterGoodReads p j lo hi tmp rest s)
  | 0, j, lo, hi, tmp, s, hs, ha => by
    have hrest : s.answers = rest := by simpa using ha
    simp [afterGoodReads, gathered, ← hs, ← hrest]
  | n + 1, j, lo, hi, tmp, s, hs, ha => by
    rw [List.ofFn_succ, List.cons_append] at ha
    rw [List.range'_succ, List.map_cons, List.cons_append, runFrom_cons, ldcalRead_good p j tmp s ha]
    dsimp only
    rw [runFrom_goodReads p ms rest n (j + 1) (fun k => lo k.succ) (fun k => hi k.succ) _ _ rfl rfl]
    simp [afterGoodReads, gathered_succ, List.ofFn_succ, Nat.add_assoc, Nat.add_comm 1]

/-- The micro-steps of `LDCAL` are its twelve reads and the commit (R100). -/
theorem microSteps_ldcal (p : Params) :
    microSteps p .ldcal = (List.range' 0 12).map (ldcalRead p) ++ [ldcalCommit] := rfl

/-- Settles O32: the twelve reads by `runFrom_goodReads`, then the commit of the set they gathered. -/
theorem ldcalLoadsTwelveCoefficients : Obligations.LdcalLoadsTwelveCoefficients := by
  intro s lo hi rest hs ha
  obtain ⟨c, hc, hregs⟩ := calOfBytes_gathered lo hi
  refine ⟨c, ?_, hregs⟩
  rw [exec_eq_run, runCommand_idle _ _ _ hs, microSteps_ldcal,
    runFrom_goodReads s.params [ldcalCommit] rest 12 0 lo hi [] (accept .ldcal s) rfl ha, runFrom_cons,
    List.nil_append, ldcalCommit_of_some hc]
  simp [afterGoodReads, respondOk, commitCal, accept, goodRead, codeOk, hs]

/-! ### All or nothing -/

/-- R101: a whole `LDCAL` ends with a new set in `CAL` after its twelfth read, or with every register as before. -/
theorem exec_ldcal_allOrNothing (s t : State) (hs : s.seq = .idle) (ht : exec .ldcal s = .next t) :
    (t.status = 0 ∧ t.draws = s.draws + 12 ∧
      (∃ c, t.cal = some c ∧ t.outputs = .response 0 (.coefficients c) :: s.outputs) ∧
      t.raw = s.raw ∧ t.tFine = none ∧ t.tempC = none ∧ t.press = none) ∨
    (t.status = 1 ∧ t.outputs = .response 1 .none :: s.outputs ∧ t.cal = s.cal ∧ t.raw = s.raw ∧
      t.tFine = s.tFine ∧ t.tempC = s.tempC ∧ t.press = s.press) := by
  rcases exec_ldcal_cases s hs with ⟨k, -, e⟩ | ⟨c, e⟩ <;> obtain rfl := exec_next_unique ht e
  · obtain ⟨es, hreads, -⟩ := readsFrom_frame s.params (k + 1) 0 s
    exact .inr (by simp [hreads, errCode])
  · obtain ⟨es, hreads, -⟩ := readsFrom_frame s.params 12 0 s
    exact .inl (by simp [hreads, codeOk])

/-- R101: micro-steps 0 to 11 of `LDCAL` write no register; each gathers two bytes or ends the command. -/
theorem microStep_ldcal_read (s t : State) (k : Nat) (tmp : List Byte) (hs : s.seq = .busy .ldcal k tmp)
    (hk : k < 12) (ht : microStep s = some t) :
    t.cal = s.cal ∧ t.raw = s.raw ∧ t.tFine = s.tFine ∧ t.tempC = s.tempC ∧ t.press = s.press ∧
    ((∃ lo hi, t.seq = .busy .ldcal (k + 1) (tmp ++ [lo, hi]) ∧ t.status = s.status ∧ t.outputs = s.outputs) ∨
      (t.seq = .idle ∧ t.status = 1 ∧ t.outputs = .response 1 .none :: s.outputs)) := by
  rw [microStep_busy s _ _ _ _ hs (ldcal_read_at s.params k hk)] at ht
  obtain rfl := Option.some.inj ht
  rcases ldcalRead_cases s.params k tmp s with ⟨lo, hi, e⟩ | e <;> rw [e]
  · exact ⟨rfl, rfl, rfl, rfl, rfl, .inl ⟨lo, hi, rfl, rfl, rfl⟩⟩
  · exact ⟨rfl, rfl, rfl, rfl, rfl, .inr ⟨rfl, rfl, rfl⟩⟩

/-- R101: micro-step 12 of `LDCAL` writes the set of the gathered bytes, whole, in one step. -/
theorem microStep_ldcal_commit (s : State) {tmp : List Byte} {c : Cal} (hs : s.seq = .busy .ldcal 12 tmp)
    (hc : calOfBytes tmp = some c) :
    microStep s = some (respondOk (.coefficients c) (commitCal c s)) := by
  rw [microStep_busy s _ _ _ ldcalCommit hs rfl, ldcalCommit_of_some hc, settle_respond]

/-- Settles O33: the two endings of the whole command, then its reads and its commit as single micro-steps. -/
theorem ldcalIsAllOrNothing : Obligations.LdcalIsAllOrNothing := by
  refine ⟨exec_ldcal_allOrNothing, microStep_ldcal_read, fun s lo hi hs => ?_⟩
  obtain ⟨c, hc, hregs⟩ := calOfBytes_gathered lo hi
  exact ⟨c, hregs, microStep_ldcal_commit s hs hc⟩

end Sys2Proof.Machine
end

section
/-! PROOF. The configuration codec: the code tables and the control bytes are inverse (R110 to R114, R121), and what
`ENCCTL`, `ENCFLT`, `DECCTL`, `DECFLT` and the decoded reads (R119, R120) answer. -/

namespace Sys2Proof.Machine

/-! ### The code tables (R110) -/

/-- A table that is searched in listing order for the first member with a given code decodes an injective coding. -/
theorem isPartialInv_of_find? {α κ : Type} [DecidableEq κ] {code : α → κ} {dec : κ → Option α}
    (members : List α) (hdec : ∀ c, dec c = members.find? (fun x => c = code x)) (hall : ∀ x, x ∈ members)
    (hnodup : (members.map code).Nodup) : Function.IsPartialInv code dec := by
  intro x c
  rw [hdec]
  constructor
  · intro hfind
    simpa [eq_comm] using List.find?_some hfind
  · rintro rfl
    obtain ⟨y, hy⟩ : ∃ y, members.find? (fun y => code x = code y) = some y := by
      rw [← Option.isSome_iff_exists, List.find?_isSome]
      exact ⟨x, hall x, by simp⟩
    have hxy : code x = code y := by simpa using List.find?_some hy
    rw [hy, List.inj_on_of_nodup_map hnodup (hall x) (hall y) hxy]

/-- The search as the chain of comparisons the tables are written in. -/
theorem find?_code_cons {α κ : Type} [DecidableEq κ] (code : α → κ) (c : κ) (x : α) (l : List α) :
    (x :: l).find? (fun y => c = code y) = if c = code x then some x else l.find? (fun y => c = code y) := by
  split_ifs with h <;> simp [h]

theorem decOsrs_isPartialInv {p : Params} (h : p.osrs.codes.Nodup) :
    Function.IsPartialInv (codeOsrs p) (decOsrs p) :=
  isPartialInv_of_find? [.skip, .x1, .x2, .x4, .x8, .x16]
    (fun c => by simp only [find?_code_cons]; rfl) (fun x => by cases x <;> decide) h

theorem decMode_isPartialInv {p : Params} (h : p.mode.codes.Nodup) :
    Function.IsPartialInv (codeMode p) (decMode p) :=
  isPartialInv_of_find? [.sleep, .forced, .normal]
    (fun c => by simp only [find?_code_cons]; rfl) (fun x => by cases x <;> decide) h

theorem decFilter_isPartialInv {p : Params} (h : p.filter.codes.Nodup) :
    Function.IsPartialInv (codeFilter p) (decFilter p) :=
  isPartialInv_of_find? [.off, .c2, .c4, .c8, .c16]
    (fun c => by simp only [find?_code_cons]; rfl) (fun x => by cases x <;> decide) h

theorem decTsb_isPartialInv {p : Params} (h : p.tsb.codes.Nodup) :
    Function.IsPartialInv (codeTsb p) (decTsb p) :=
  isPartialInv_of_find? [.sb0, .sb1, .sb2, .sb3, .sb4, .sb5, .sb6, .sb7]
    (fun c => by simp only [find?_code_cons]; rfl) (fun x => by cases x <;> decide) h

theorem decSpi3w_isPartialInv : Function.IsPartialInv codeSpi3w decSpi3w :=
  isPartialInv_of_find? [false, true]
    (fun c => by simp only [find?_code_cons]; rfl) (fun x => by cases x <;> decide) (by decide)

theorem codesWf_iff (p : Params) : p.codesWf = true ↔
    p.osrs.codes.Nodup ∧ p.mode.codes.Nodup ∧ p.filter.codes.Nodup ∧ p.tsb.codes.Nodup := by
  simp [Params.codesWf, and_assoc]

/-! ### The control bytes (R78, R111 to R114) -/

/-- R78: a byte is packed from three fields exactly when they are its slices. -/
theorem packFields_eq_iff {a b : BitVec 3} {c : BitVec 2} {x : Byte} :
    packFields a b c = x ↔ a = x.extractLsb' 5 3 ∧ b = x.extractLsb' 2 3 ∧ c = x.extractLsb' 0 2 := by
  constructor
  · rintro rfl
    obtain ⟨ha, hb, hc⟩ := packFields_slices a b c
    exact ⟨ha.symm, hb.symm, hc.symm⟩
  · rintro ⟨rfl, rfl, rfl⟩
    exact packFields_of_slices x

/-- R78: the fields of a packed byte as quotients and remainders. -/
theorem packFields_eq_iff_toNat {a b : BitVec 3} {c : BitVec 2} {x : Byte} :
    packFields a b c = x ↔ a.toNat = x.toNat / 32 ∧ b.toNat = x.toNat / 4 % 8 ∧ c.toNat = x.toNat % 4 := by
  obtain ⟨ha, hb, hc⟩ := slices_toNat x
  rw [packFields_eq_iff, ← ha, ← hb, ← hc, BitVec.toNat_inj, BitVec.toNat_inj, BitVec.toNat_inj]

/-- R121: for injective code tables the settings a control byte unpacks to are those it is packed from. -/
theorem unpackCtrl_eq_some_iff {p : Params} (h : p.codesWf = true) {b : Byte} {ot op : Osrs} {m : Mode} :
    unpackCtrl p b = (some ot, some op, some m) ↔ packCtrl p ot op m = b := by
  obtain ⟨hosrs, hmode, -, -⟩ := (codesWf_iff p).mp h
  simp only [unpackCtrl, packCtrl, packFields_eq_iff, Prod.mk.injEq, decOsrs_isPartialInv hosrs _ _,
    decMode_isPartialInv hmode _ _]

/-- R121: for injective code tables the settings a filter byte unpacks to are those it is packed from. -/
theorem unpackCfg_eq_some_iff {p : Params} (h : p.codesWf = true) {b : Byte} {sb : Standby} {f : Filter} {w : Bool} :
    unpackCfg p b = (some sb, some f, some w) ↔ packCfg p sb f w = b := by
  obtain ⟨-, -, hfilter, htsb⟩ := (codesWf_iff p).mp h
  simp only [unpackCfg, packCfg, packFields_eq_iff, Prod.mk.injEq, decTsb_isPartialInv htsb _ _,
    decFilter_isPartialInv hfilter _ _, decSpi3w_isPartialInv _ _]

/-- Settles O23: unpacking to given settings and packing them are one relation, read in both directions. -/
theorem codecRoundTrips : Obligations.CodecRoundTrips := fun _ h =>
  ⟨fun _ _ _ => (unpackCtrl_eq_some_iff h).mpr rfl, fun _ _ _ => (unpackCfg_eq_some_iff h).mpr rfl,
    fun _ _ _ _ => (unpackCtrl_eq_some_iff h).mp, fun _ _ _ _ => (unpackCfg_eq_some_iff h).mp⟩

/-! ### The end of a command -/

/-- R8, R30: a response of an idle block writes `STATUS` and nothing else but the response. -/
theorem respondOk_of_idle {s : State} (h : s.seq = .idle) (p : Payload) :
    respondOk p s = { s with status := 0, outputs := .response 0 p :: s.outputs } := by
  simp [respondOk, codeOk, h]

/-- R176: an error of an idle block writes `STATUS` and nothing else but the empty response. -/
theorem raiseError_of_idle {s : State} (h : s.seq = .idle) (e : Err) :
    raiseError e s = { s with status := errCode e, outputs := .response (errCode e) .none :: s.outputs } := by
  simp [raiseError, h]

/-- R80: the opcode of a command's word. -/
theorem encode_opcode (i : Instr) : (encode i).extractLsb' 16 8 = i.opcode :=
  BitVec.extractLsb'_append_eq_left

/-- R80, R86: an opcode before an operand field of two bytes, or the three bytes in a row. -/
theorem append_three (x y z : BitVec 8) : x ++ (y ++ z) = x ++ y ++ z := by
  rw [BitVec.append_assoc, BitVec.cast_eq]

/-- Settles O19: the byte is the packed one, a number by `packFields_toNat`. -/
theorem encctlAnswersThePackedByte : Obligations.EncctlAnswersThePackedByte := by
  intro s ot op m hs
  refine ⟨encode_opcode _, packCtrl s.params ot op m, ?_, packFields_toNat _ _ _⟩
  rw [exec_encctl ot op m s hs, respondOk_of_idle hs]

theorem codeSpi3w_toNat (w : Bool) : (codeSpi3w w).toNat = w.toNat := by cases w <;> rfl

/-- R77, R112: bit 1 of a packed filter byte is 0. -/
theorem packCfg_bit_one (p : Params) (sb : Standby) (f : Filter) (w : Bool) :
    (packCfg p sb f w).getLsbD 1 = false := by
  have hslice : (packCfg p sb f w).extractLsb' 0 2 = codeSpi3w w := (packFields_slices _ _ _).2.2
  have hbit : ((packCfg p sb f w).extractLsb' 0 2).getLsbD 1 = (packCfg p sb f w).getLsbD 1 := by simp
  rw [← hbit, hslice]
  cases w <;> rfl

/-- Settles O20: the byte is the packed one, a number by `packFields_toNat`. -/
theorem encfltAnswersThePackedByte : Obligations.EncfltAnswersThePackedByte := by
  intro s sb f w hs
  refine ⟨encode_opcode _, packCfg s.params sb f w, ?_, ?_, packCfg_bit_one _ _ _ _⟩
  · rw [exec_encflt sb f w s hs, respondOk_of_idle hs]
  · rw [packCfg, packFields_toNat, codeSpi3w_toNat]

/-! ### The decoder -/

/-- The decoding of a byte with a member in every field ends a command with its settings (R113). -/
theorem settle_decodeCtrl_of_some {cmd : Instr} {i : Nat} {b : Byte} {s : State} {q : Seq} {ot op : Osrs} {m : Mode}
    (h : unpackCtrl s.params b = (some ot, some op, some m)) :
    settle cmd i (decodeCtrl b { s with seq := q }) = respondOk (.control ot op m) s := by
  rw [decodeCtrl, h]
  rfl

/-- The decoding of a byte with a reserved code ends a command with `ReservedCode` (R113). -/
theorem settle_decodeCtrl_of_reserved {cmd : Instr} {i : Nat} {b : Byte} {s : State} {q : Seq}
    (h : ∀ ot op m, unpackCtrl s.params b ≠ (some ot, some op, some m)) :
    settle cmd i (decodeCtrl b { s with seq := q }) = raiseError .reservedCode s := by
  rcases decodeCtrl_cases b { s with seq := q } with ⟨ot, op, m, hsome, -⟩ | ⟨-, e⟩
  · exact absurd hsome (h ot op m)
  · rw [e, settle_raise, raiseError_with_seq]

/-- The decoding of a byte with a member in every field ends a command with its settings (R114). -/
theorem settle_decodeCfg_of_some {cmd : Instr} {i : Nat} {b : Byte} {s : State} {q : Seq} {sb : Standby} {f : Filter}
    {w : Bool} (h : unpackCfg s.params b = (some sb, some f, some w)) :
    settle cmd i (decodeCfg b { s with seq := q }) = respondOk (.filter sb f w) s := by
  rw [decodeCfg, h]
  rfl

/-- The decoding of a byte with a reserved code ends a command with `ReservedCode` (R114). -/
theorem settle_decodeCfg_of_reserved {cmd : Instr} {i : Nat} {b : Byte} {s : State} {q : Seq}
    (h : ∀ sb f w, unpackCfg s.params b ≠ (some sb, some f, some w)) :
    settle cmd i (decodeCfg b { s with seq := q }) = raiseError .reservedCode s := by
  rcases decodeCfg_cases b { s with seq := q } with ⟨sb, f, w, hsome, -⟩ | ⟨-, e⟩
  · exact absurd hsome (h sb f w)
  · rw [e, settle_raise, raiseError_with_seq]

/-- The last micro-step of a command ends the run as it settles (R30). -/
theorem runFrom_singleton (cmd : Instr) (m : MicroStep) (i : Nat) (tmp : List Byte) (s : State) :
    runFrom cmd [m] i tmp s = settle cmd i (m tmp s) := by
  rw [runFrom_cons]
  cases m tmp s <;> rfl

/-- A command of one micro-step ends as that micro-step does (R30). -/
theorem exec_of_one_microStep {i : Instr} {s : State} {m : MicroStep} (hs : s.seq = .idle)
    (hm : microSteps s.params i = [m]) : exec i s = .next (settle i 0 (m [] (accept i s))) := by
  rw [exec_eq_run, runCommand_idle _ _ _ hs, hm, runFrom_singleton]

theorem exec_decctl_eq (b : Byte) (s : State) (hs : s.seq = .idle) :
    exec (.decctl b) s = .next (settle (.decctl b) 0 (decodeCtrl b { s with seq := .busy (.decctl b) 0 [] })) :=
  exec_of_one_microStep (m := fun _ s => decodeCtrl b s) hs rfl

theorem exec_decflt_eq (b : Byte) (s : State) (hs : s.seq = .idle) :
    exec (.decflt b) s = .next (settle (.decflt b) 0 (decodeCfg b { s with seq := .busy (.decflt b) 0 [] })) :=
  exec_of_one_microStep (m := fun _ s => decodeCfg b s) hs rfl

/-- Settles O21: the byte is the packed one of the members exactly when its fields are their codes. -/
theorem decctlAnswersTheMembersOrReservedCode : Obligations.DecctlAnswersTheMembersOrReservedCode := by
  intro s b hs hwf
  have members (ot op m) : unpackCtrl s.params b = (some ot, some op, some m) ↔
      (codeOsrs s.params ot).toNat = b.toNat / 32 ∧ (codeOsrs s.params op).toNat = b.toNat / 4 % 8 ∧
        (codeMode s.params m).toNat = b.toNat % 4 :=
    (unpackCtrl_eq_some_iff hwf).trans packFields_eq_iff_toNat
  refine ⟨append_three _ _ _, fun ot op m h₁ h₂ h₃ => ?_, fun hreserved => ?_⟩
  · rw [exec_decctl_eq b s hs, settle_decodeCtrl_of_some ((members ot op m).mpr ⟨h₁, h₂, h₃⟩),
      respondOk_of_idle hs]
  · have hnone (ot op m) : unpackCtrl s.params b ≠ (some ot, some op, some m) := by
      intro hsome
      obtain ⟨h₁, h₂, h₃⟩ := (members ot op m).mp hsome
      rcases hreserved with h | h | h
      · exact h ot h₁
      · exact h op h₂
      · exact h m h₃
    rw [exec_decctl_eq b s hs, settle_decodeCtrl_of_reserved hnone, raiseError_of_idle hs]
    rfl

/-- Settles O22: as for the control byte; `spi3w` has no member for the codes 2 and 3. -/
theorem decfltAnswersTheMembersOrReservedCode : Obligations.DecfltAnswersTheMembersOrReservedCode := by
  intro s b hs hwf
  have members (sb f w) : unpackCfg s.params b = (some sb, some f, some w) ↔
      (codeTsb s.params sb).toNat = b.toNat / 32 ∧ (codeFilter s.params f).toNat = b.toNat / 4 % 8 ∧
        (codeSpi3w w).toNat = b.toNat % 4 :=
    (unpackCfg_eq_some_iff hwf).trans packFields_eq_iff_toNat
  refine ⟨append_three _ _ _, fun sb f w h₁ h₂ h₃ => ?_, fun hreserved => ?_⟩
  · rw [exec_decflt_eq b s hs, settle_decodeCfg_of_some ((members sb f w).mpr ⟨h₁, h₂, h₃⟩),
      respondOk_of_idle hs]
  · have hnone (sb f w) : unpackCfg s.params b ≠ (some sb, some f, some w) := by
      intro hsome
      obtain ⟨-, h₂, h₃⟩ := (members sb f w).mp hsome
      rcases hreserved with h | h
      · exact h f h₂
      · have hw := w.toNat_lt
        rw [codeSpi3w_toNat] at h₃
        omega
    rw [exec_decflt_eq b s hs, settle_decodeCfg_of_reserved hnone, raiseError_of_idle hs]
    rfl

/-! ### The decoded reads -/

/-- The state after a byte read: the records of the bus only (R53, R64; log entry 25). -/
def afterRead (a : Addr) (reply : Reply) (rest : List Answer) (s : State) : State :=
  { s with
    answers := rest
    draws := s.draws + 1
    trace := { request := .readByte a, reply := reply } :: s.trace }

/-- A byte read that the transport or the device answers with one byte (R44). -/
theorem transport_readByte_answered {a : Addr} {r : Byte} {rest : List Answer} {s : State}
    (h : s.answers = .ok [r] :: rest ∨ s.answers = .device :: rest ∧ s.device.byteAt a.toNat = some r) :
    transport (.readByte a) s = (.ok [r], afterRead a (.ok [r]) rest s) := by
  rcases h with h | ⟨h, hbyte⟩
  · simp [transport, nextAnswer, replyTo, afterRead, h]
  · simp [transport, nextAnswer, replyTo, afterRead, h, deviceByte, hbyte]

/-- A byte read that fails (R44). -/
theorem transport_readByte_err {a : Addr} {l : Bool} {rest : List Answer} {s : State}
    (h : s.answers = .err l :: rest) : transport (.readByte a) s = (.err, afterRead a .err rest s) := by
  simp [transport, nextAnswer, replyTo, afterRead, h]

section DecodedRead

variable {i : Instr} {s u : State} {a : Addr} {last : MicroStep}

/-- A command that reads one byte and hands it to its last micro-step (R119, R120), when the byte arrives. -/
theorem exec_readThen_of_ok {r : Byte} (hs : s.seq = .idle)
    (hm : microSteps s.params i = [fun _ s => memReadByte a (fun b s' => .next [b] s') s, last])
    (hread : transport (.readByte a) s = (.ok [r], u)) :
    exec i s = .next (settle i 1 (last [r] { u with seq := .busy i 1 [r] })) := by
  rw [exec_eq_run, runCommand_idle _ _ _ hs, hm, runFrom_cons, memReadByte, accept, transport_with_seq, hread]
  exact congrArg _ (runFrom_singleton i last 1 [r] _)

/-- A command that begins with the read of one byte, when the read fails (R119, R120). -/
theorem exec_readThen_of_err (hs : s.seq = .idle)
    (hm : microSteps s.params i = [fun _ s => memReadByte a (fun b s' => .next [b] s') s, last])
    (hread : transport (.readByte a) s = (.err, u)) : exec i s = .next (raiseError .transportError u) := by
  rw [exec_eq_run, runCommand_idle _ _ _ hs, hm, runFrom_cons, memReadByte, accept, transport_with_seq, hread]
  rfl

theorem exec_rdctl_of_some {r : Byte} {ot op : Osrs} {m : Mode} (hs : s.seq = .idle)
    (hread : transport (.readByte s.params.ctrlAddr) s = (.ok [r], u))
    (h : unpackCtrl u.params r = (some ot, some op, some m)) :
    exec .rdctl s = .next (respondOk (.control ot op m) u) :=
  (exec_readThen_of_ok (i := .rdctl) hs rfl hread :).trans (congrArg _ (settle_decodeCtrl_of_some h))

theorem exec_rdctl_of_reserved {r : Byte} (hs : s.seq = .idle)
    (hread : transport (.readByte s.params.ctrlAddr) s = (.ok [r], u))
    (h : ∀ ot op m, unpackCtrl u.params r ≠ (some ot, some op, some m)) :
    exec .rdctl s = .next (raiseError .reservedCode u) :=
  (exec_readThen_of_ok (i := .rdctl) hs rfl hread :).trans (congrArg _ (settle_decodeCtrl_of_reserved h))

theorem exec_rdflt_of_some {r : Byte} {sb : Standby} {f : Filter} {w : Bool} (hs : s.seq = .idle)
    (hread : transport (.readByte s.params.configAddr) s = (.ok [r], u))
    (h : unpackCfg u.params r = (some sb, some f, some w)) :
    exec .rdflt s = .next (respondOk (.filter sb f w) u) :=
  (exec_readThen_of_ok (i := .rdflt) hs rfl hread :).trans (congrArg _ (settle_decodeCfg_of_some h))

theorem exec_rdflt_of_reserved {r : Byte} (hs : s.seq = .idle)
    (hread : transport (.readByte s.params.configAddr) s = (.ok [r], u))
    (h : ∀ sb f w, unpackCfg u.params r ≠ (some sb, some f, some w)) :
    exec .rdflt s = .next (raiseError .reservedCode u) :=
  (exec_readThen_of_ok (i := .rdflt) hs rfl hread :).trans (congrArg _ (settle_decodeCfg_of_reserved h))

end DecodedRead

/-- Settles O29: the read, then the decoding of the byte that was read. -/
theorem rdctlReadsAndDecodes : Obligations.RdctlReadsAndDecodes := by
  intro s r l rest hs
  have idle (reply) : (afterRead s.params.ctrlAddr reply rest s).seq = .idle := hs
  refine ⟨rfl, fun ot op m ha hsome => ?_, fun ha hnone => ?_, fun herr => ?_⟩
  · rw [exec_rdctl_of_some hs (transport_readByte_answered ha) hsome, respondOk_of_idle (idle _)]
    rfl
  · rw [exec_rdctl_of_reserved hs (transport_readByte_answered ha) hnone, raiseError_of_idle (idle _)]
    rfl
  · rw [exec_readThen_of_err hs rfl (transport_readByte_err herr), raiseError_of_idle (idle _)]
    rfl

/-- Settles O30: the read, then the decoding of the byte that was read. -/
theorem rdfltReadsAndDecodes : Obligations.RdfltReadsAndDecodes := by
  intro s r l rest hs
  have idle (reply) : (afterRead s.params.configAddr reply rest s).seq = .idle := hs
  refine ⟨rfl, fun sb f w ha hsome => ?_, fun ha hnone => ?_, fun herr => ?_⟩
  · rw [exec_rdflt_of_some hs (transport_readByte_answered ha) hsome, respondOk_of_idle (idle _)]
    rfl
  · rw [exec_rdflt_of_reserved hs (transport_readByte_answered ha) hnone, raiseError_of_idle (idle _)]
    rfl
  · rw [exec_readThen_of_err hs rfl (transport_readByte_err herr), raiseError_of_idle (idle _)]
    rfl

end Sys2Proof.Machine
end

section
/-! PROOF. `CONFIG` is its two verified writes (R117): what a verified write (R118) ends with does not depend on the
sequencer, `STATUS` and the outputs, in which alone `CONFIG` differs from `APCTL` and `APFLT` one after the other. -/

namespace Sys2Proof.Machine

/-! ### The outcome of a verified write -/

/-- What a verified write ends with (R118): the error it raises, if any, and the state after its requests. -/
def verifyEnd (a : Addr) (b : Byte) (s : State) : Option Err × State :=
  match transport (.writeByte a b) s with
  | (.err, s') => (some .transportError, s')
  | (.ok _, s') =>
    match transport (.readByte a) s' with
    | (.ok [r], s'') => (if r = b then none else some .verificationFailed, s'')
    | (_, s'') => (some .transportError, s'')

/-- How a command goes on after a verified write: an error ends it, else `k` follows. -/
def ifVerified (k : State → State) : Option Err × State → State
  | (some e, s) => raiseError e s
  | (none, s) => k s

/-- The two micro-steps of `WriteVerify` end as `verifyEnd` says. -/
theorem runFrom_writeVerify (cmd : Instr) (a : Addr) (b : Byte) (k : State → Micro) (ms : List MicroStep) (i : Nat)
    (tmp : List Byte) (s : State) :
    runFrom cmd (writeVerify a b k ++ ms) i tmp s =
      ifVerified (fun u => runFrom cmd ((fun _ => k) :: ms) (i + 1) [] { u with seq := .busy cmd (i + 1) [] })
        (verifyEnd a b s) := by
  simp only [writeVerify, List.cons_append, List.nil_append, runFrom_cons, memWrite, memReadByte, verifyEnd]
  rcases transport (.writeByte a b) s with ⟨_ | _, u⟩
  · rfl
  · simp only [transport_with_seq]
    rcases transport (.readByte a) u with ⟨_ | ⟨_ | ⟨r, _ | _⟩⟩, v⟩
    · rfl
    · rfl
    · by_cases hr : r = b <;> simp [hr, ifVerified]
    · rfl

/-- The state with what the host's port and the sequencer show replaced: `STATUS`, `SEQ` and the outputs. -/
def withPort (st : BitVec 4) (q : Seq) (os : List Output) (s : State) : State :=
  { s with status := st, seq := q, outputs := os }

/-- A request does not depend on the port, and leaves it as it was. -/
theorem transport_withPort (r : Request) (st : BitVec 4) (q : Seq) (os : List Output) (s : State) :
    transport r (withPort st q os s) = ((transport r s).1, withPort st q os (transport r s).2) := by
  have hreply : replyTo (withPort st q os s) r (nextAnswer s) = replyTo s r (nextAnswer s) := by
    cases nextAnswer s <;> cases r <;> rfl
  simp only [transport, show nextAnswer (withPort st q os s) = nextAnswer s from rfl, hreply]
  rfl

/-- A verified write does not depend on the port, and leaves it as it was. -/
theorem verifyEnd_withPort (a : Addr) (b : Byte) (st : BitVec 4) (q : Seq) (os : List Output) (s : State) :
    verifyEnd a b (withPort st q os s) = ((verifyEnd a b s).1, withPort st q os (verifyEnd a b s).2) := by
  simp only [verifyEnd, transport_withPort]
  rcases transport (.writeByte a b) s with ⟨_ | _, u⟩
  · rfl
  · simp only [transport_withPort]
    rcases transport (.readByte a) u with ⟨_ | ⟨_ | ⟨r, _ | _⟩⟩, v⟩ <;> rfl

/-- The requests of a verified write are its write, or its write and its read-back. -/
theorem verifyEnd_snd (a : Addr) (b : Byte) (s : State) :
    (verifyEnd a b s).2 = (transport (.writeByte a b) s).2 ∨ (verifyEnd a b s).2 = afterVerify a b s := by
  unfold verifyEnd afterVerify
  rcases transport (.writeByte a b) s with ⟨_ | _, u⟩
  · exact .inl rfl
  · dsimp only
    rcases transport (.readByte a) u with ⟨_ | ⟨_ | ⟨r, _ | _⟩⟩, v⟩ <;> exact .inr rfl

@[simp] theorem verifyEnd_params (a : Addr) (b : Byte) (s : State) : (verifyEnd a b s).2.params = s.params := by
  rcases verifyEnd_snd a b s with h | h <;> simp [h]

@[simp] theorem verifyEnd_outputs (a : Addr) (b : Byte) (s : State) : (verifyEnd a b s).2.outputs = s.outputs := by
  rcases verifyEnd_snd a b s with h | h <;> simp [h]

/-! ### The commands -/

/-- A verified write as a whole command (R115, R116). -/
def verifiedWrite (w : Addr × Byte) (s : State) : State := ifVerified (respondOk .none) (verifyEnd w.1 w.2 s)

/-- Of the port before it, a verified write keeps the outputs only, behind its own response. -/
theorem verifiedWrite_withPort (w : Addr × Byte) (st : BitVec 4) (q : Seq) (os : List Output) (s : State) :
    verifiedWrite w (withPort st q os s) =
      { verifiedWrite w s with outputs := .response (verifiedWrite w s).status .none :: os } := by
  unfold verifiedWrite
  rw [verifyEnd_withPort]
  rcases verifyEnd w.1 w.2 s with ⟨_ | e, u⟩ <;> rfl

/-- A verified write adds one response to the outputs. -/
theorem verifiedWrite_outputs (w : Addr × Byte) (s : State) :
    (verifiedWrite w s).outputs = .response (verifiedWrite w s).status .none :: s.outputs :=
  congrArg State.outputs (verifiedWrite_withPort w s.status s.seq s.outputs s)

theorem verifiedWrite_params (w : Addr × Byte) (s : State) : (verifiedWrite w s).params = s.params := by
  rw [← verifyEnd_params w.1 w.2 s, verifiedWrite]
  rcases verifyEnd w.1 w.2 s with ⟨_ | e, u⟩ <;> rfl

theorem verifiedWrite_seq (w : Addr × Byte) (s : State) : (verifiedWrite w s).seq = .idle := by
  unfold verifiedWrite
  rcases verifyEnd w.1 w.2 s with ⟨_ | e, u⟩ <;> rfl

/-- A verified write does not depend on the sequencer. -/
theorem verifiedWrite_with_seq (w : Addr × Byte) (s : State) (q : Seq) :
    verifiedWrite w { s with seq := q } = verifiedWrite w s := by
  rw [show ({ s with seq := q } : State) = withPort s.status q s.outputs s from rfl, verifiedWrite_withPort,
    ← verifiedWrite_outputs]

/-- A verified write as the last part of a command. -/
theorem runFrom_verifiedWrite (cmd : Instr) (w : Addr × Byte) (i : Nat) (tmp : List Byte) (s : State) :
    runFrom cmd (writeVerify w.1 w.2 fun s => .respond .none s) i tmp s = verifiedWrite w s := by
  rw [← List.append_nil (writeVerify _ _ _), runFrom_writeVerify]
  rfl

/-- A verified write that another follows in the same command (R117). -/
theorem runFrom_verifiedWrite_twice (cmd : Instr) (w w' : Addr × Byte) (i : Nat) (tmp : List Byte) (s : State) :
    runFrom cmd (writeVerify w.1 w.2 (fun s => .next [] s) ++ writeVerify w'.1 w'.2 fun s => .respond .none s) i tmp s =
      ifVerified (verifiedWrite w') (verifyEnd w.1 w.2 s) := by
  rw [runFrom_writeVerify]
  congr 1
  funext u
  rw [runFrom_cons]
  dsimp only
  rw [runFrom_verifiedWrite, verifiedWrite_with_seq, verifiedWrite_with_seq]

/-- R117: two verified writes in one command end as the same two commands one after the other, the second only if the
first ended `OK`, but for the outputs, which hold one response. -/
theorem ifVerified_verifiedWrite (w w' : Addr × Byte) (s : State) :
    ifVerified (verifiedWrite w') (verifyEnd w.1 w.2 s) =
      let t₁ := verifiedWrite w s
      let t₂ := verifiedWrite w' t₁
      if t₁.status = 0 then { t₂ with outputs := .response t₂.status .none :: s.outputs } else t₁ := by
  have hout := verifyEnd_outputs w.1 w.2 s
  have hfirst : verifiedWrite w s = ifVerified (respondOk .none) (verifyEnd w.1 w.2 s) := rfl
  generalize verifyEnd w.1 w.2 s = ending at hout hfirst ⊢
  rcases ending with ⟨_ | e, u⟩
  · have hok : verifiedWrite w s = withPort codeOk .idle (.response codeOk .none :: u.outputs) u := hfirst
    dsimp only at hout ⊢
    rw [hok, if_pos (show (withPort codeOk _ _ u).status = 0 from rfl), verifiedWrite_withPort, ← hout,
      ← verifiedWrite_outputs]
    rfl
  · have herr : verifiedWrite w s = raiseError e u := hfirst
    dsimp only
    rw [herr, raiseError_status, if_neg (errCode_ne_zero e)]
    rfl

theorem exec_apctl_eq (ot op : Osrs) (m : Mode) {s : State} (hs : s.seq = .idle) :
    exec (.apctl ot op m) s = .next (verifiedWrite (s.params.ctrlAddr, packCtrl s.params ot op m) s) := by
  rw [exec_eq_run, runCommand_idle _ _ _ hs, ← verifiedWrite_with_seq _ s (.busy (.apctl ot op m) 0 [])]
  exact congrArg _ (runFrom_verifiedWrite _ (_, _) _ _ _)

theorem exec_apflt_eq (sb : Standby) (f : Filter) (w : Bool) {s : State} (hs : s.seq = .idle) :
    exec (.apflt sb f w) s = .next (verifiedWrite (s.params.configAddr, packCfg s.params sb f w) s) := by
  rw [exec_eq_run, runCommand_idle _ _ _ hs, ← verifiedWrite_with_seq _ s (.busy (.apflt sb f w) 0 [])]
  exact congrArg _ (runFrom_verifiedWrite _ (_, _) _ _ _)

/-- `CONFIG` is its two verified writes one after the other, with one response (R117). -/
theorem exec_config_eq (ot op : Osrs) (m : Mode) (sb : Standby) (f : Filter) (w : Bool) {s : State}
    (hs : s.seq = .idle) :
    exec (.config ot op m sb f w) s = .next (
      let t₁ := verifiedWrite (configWrites s.params ot op m sb f w).1 s
      let t₂ := verifiedWrite (configWrites s.params ot op m sb f w).2 t₁
      if t₁.status = 0 then { t₂ with outputs := .response t₂.status .none :: s.outputs } else t₁) := by
  rw [exec_eq_run, runCommand_idle _ _ _ hs, microSteps, configSteps_eq, runFrom_verifiedWrite_twice,
    ifVerified_verifiedWrite, accept, verifiedWrite_with_seq]

/-- R84: bit 15 of the operand field of `CONFIG`, below its opcode, is 0. -/
theorem encode_config_head (ot op : Osrs) (m : Mode) (sb : Standby) (f : Filter) (w : Bool) :
    (encode (.config ot op m sb f w)).extractLsb' 15 9 = 0x04#8 ++ 0#1 := by
  have happend (x : BitVec 8) (y : BitVec 16) : (x ++ y).extractLsb' 15 9 = x ++ y.extractLsb' 15 1 := by
    rw [BitVec.extractLsb'_append_eq_ite]
    simp
  have hzero : (encodeS ot op m sb f w).extractLsb' 15 1 = 0#1 := by
    unfold encodeS
    iterate 6 rw [BitVec.extractLsb'_append_eq_of_le (by decide)]
    rfl
  exact (happend _ _).trans (congrArg _ hzero)

/-- Settles O26: the state after `CONFIG` by `exec_config_eq`, in each order of the two halves. -/
theorem configIsTheTwoVerifiedWrites : Obligations.ConfigIsTheTwoVerifiedWrites := by
  intro s t₁ t₂ ot op m sb f w hs first second
  refine ⟨encode_config_head ot op m sb f w, fun h₁ h₂ => ?_⟩
  rw [exec_config_eq ot op m sb f w hs]
  cases horder : s.params.order with
  | controlFirst =>
    simp only [first, second, horder, configWrites] at h₁ h₂ ⊢
    obtain rfl := exec_next_unique h₁ (exec_apctl_eq ot op m hs)
    have hsecond := exec_apflt_eq sb f w (verifiedWrite_seq (s.params.ctrlAddr, packCtrl s.params ot op m) s)
    rw [verifiedWrite_params] at hsecond
    obtain rfl := exec_next_unique h₂ hsecond
    rfl
  | filterFirst =>
    simp only [first, second, horder, configWrites] at h₁ h₂ ⊢
    obtain rfl := exec_next_unique h₁ (exec_apflt_eq sb f w hs)
    have hsecond := exec_apctl_eq ot op m (verifiedWrite_seq (s.params.configAddr, packCfg s.params sb f w) s)
    rw [verifiedWrite_params] at hsecond
    obtain rfl := exec_next_unique h₂ hsecond
    rfl

end Sys2Proof.Machine
end

section
/-! PROOF. The raw sample reader: the 20-bit extraction (R131), what the burst of `RDRAW` and `ACQ` ends with (R45,
R132), and what `RDRAW` commits (R130). -/

namespace Sys2Proof.Machine

/-! ### The extraction -/

/-- R131: the mask of the XLSB byte clears its low nibble. -/
theorem highNibble_toNat (b : Byte) : (b &&& 0xF0#8).toNat = b.toNat / 16 * 16 := by
  revert b; decide +kernel

/-- R131: the three bytes occupy disjoint bits, so their or is a sum, which the final shift divides by 16. -/
theorem extract20_toNat (msb lsb xlsb : Byte) :
    (extract20 msb lsb xlsb).toNat = msb.toNat * 4096 + lsb.toNat * 16 + xlsb.toNat / 16 := by
  have hm := msb.isLt
  have hl := lsb.isLt
  have hx := xlsb.isLt
  have hor : msb.toNat * 2 ^ 16 ||| lsb.toNat * 2 ^ 8 ||| xlsb.toNat / 16 * 16 =
      msb.toNat * 2 ^ 16 + (lsb.toNat * 2 ^ 8 + xlsb.toNat / 16 * 16) := by
    rw [Nat.or_assoc, or_eq_add _ _ 8 (by omega), or_eq_add _ _ 16 (by omega)]
  simp only [extract20, BitVec.toNat_setWidth, BitVec.toNat_ushiftRight, BitVec.toNat_or, BitVec.toNat_shiftLeft,
    highNibble_toNat, Nat.shiftLeft_eq, Nat.shiftRight_eq_div_pow]
  simp (disch := omega) only [Nat.mod_eq_of_lt, hor]
  omega

/-- Settles O36: the three terms of `extract20_toNat` are digits of the count, so they can be read back from it. -/
theorem extract20AlignsTheBytes : Obligations.Extract20AlignsTheBytes := by
  refine fun msb lsb xlsb => ⟨extract20_toNat msb lsb xlsb, fun msb' lsb' xlsb' => ?_⟩
  have hl := lsb.isLt
  have hl' := lsb'.isLt
  have hx := xlsb.isLt
  have hx' := xlsb'.isLt
  simp only [← BitVec.toNat_inj, extract20_toNat]
  omega

/-! ### The block read -/

/-- The state after a block read: the records of the bus only (R53, R64; log entry 25). -/
def afterReadBlock (a : Addr) (n : Nat) (reply : Reply) (rest : List Answer) (s : State) : State :=
  { s with
    answers := rest
    draws := s.draws + 1
    trace := { request := .readBlock a n, reply := reply } :: s.trace }

/-- A block read that the transport answers with bytes, of whatever number (R45). -/
theorem transport_readBlock_ok {a : Addr} {n : Nat} {bs : List Byte} {rest : List Answer} {s : State}
    (h : s.answers = .ok bs :: rest) : transport (.readBlock a n) s = (.ok bs, afterReadBlock a n (.ok bs) rest s) := by
  simp [transport, nextAnswer, replyTo, afterReadBlock, h]

/-- A block read that fails (R45). -/
theorem transport_readBlock_err {a : Addr} {n : Nat} {l : Bool} {rest : List Answer} {s : State}
    (h : s.answers = .err l :: rest) : transport (.readBlock a n) s = (.err, afterReadBlock a n .err rest s) := by
  simp [transport, nextAnswer, replyTo, afterReadBlock, h]

/-! ### The burst and the commit -/

/-- The burst that gets its six bytes hands them on as temporaries (R45, R130). -/
theorem burstStep_of_six {p : Params} {bs : List Byte} {s u : State}
    (hread : transport (.readBlock p.dataBase 6) s = (.ok bs, u)) (hlen : bs.length = 6) (tmp : List Byte) :
    burstStep p tmp s = .next bs u := by
  simp only [burstStep, memRead, hread, if_pos hlen]

/-- A raw sample is decoded from six bytes and from no other number of bytes (R72, R130). -/
theorem sampleOfBytes_length {bs : List Byte} {r : RawSample} (h : sampleOfBytes bs = some r) : bs.length = 6 := by
  unfold sampleOfBytes at h
  split at h
  · rfl
  · cases h

/-- The commit, given bytes that are a sample, writes it and goes on (R130). -/
theorem sampleStep_of_some {tmp : List Byte} {r : RawSample} (h : sampleOfBytes tmp = some r)
    (k : RawSample → State → Micro) (s : State) : sampleStep k tmp s = k r (commitRaw r s) := by
  rw [sampleStep, h]

/-- R130: `RDRAW` whose burst is a sample commits it and responds with it. -/
theorem exec_rdraw_of_some {bs : List Byte} {r : RawSample} {s u : State} (hs : s.seq = .idle)
    (hread : transport (.readBlock s.params.dataBase 6) s = (.ok bs, u)) (hr : sampleOfBytes bs = some r) :
    exec .rdraw s = .next (respondOk (.sample r.adcP r.adcT) (commitRaw r u)) := by
  have hread' : transport (.readBlock s.params.dataBase 6) (accept .rdraw s) =
      (.ok bs, { u with seq := .busy .rdraw 0 [] }) := by rw [accept, transport_with_seq, hread]
  rw [exec_eq_run, runCommand_idle _ _ _ hs, microSteps, rdrawSteps, runFrom_cons,
    burstStep_of_six hread' (sampleOfBytes_length hr)]
  dsimp only
  rw [runFrom_singleton, sampleStep_of_some hr, settle_respond, commitRaw_with_seq, respondOk_with_seq]

/-- R45, R130: `RDRAW` whose burst is not six bytes ends with `TransportError`. -/
theorem exec_rdraw_of_bad {reply : Reply} {s u : State} (hs : s.seq = .idle)
    (hread : transport (.readBlock s.params.dataBase 6) s = (reply, u))
    (hbad : ∀ bs, reply = .ok bs → bs.length ≠ 6) : exec .rdraw s = .next (raiseError .transportError u) := by
  rcases exec_rdraw_cases s hs with e | ⟨bs, r, hok, hr, -⟩
  · rw [e, hread]
  · rw [hread] at hok
    exact absurd (sampleOfBytes_length hr) (hbad bs hok)

/-- Settles O37: the one block read, then the commit of its six bytes or the error. -/
theorem rdrawReadsOneBurst : Obligations.RdrawReadsOneBurst := by
  intro s rest hs
  have idle (reply) : (afterReadBlock s.params.dataBase 6 reply rest s).seq = .idle := hs
  refine ⟨rfl, fun b0 b1 b2 b3 b4 b5 ha => ?_, fun bs hlen ha => ?_, fun l ha => ?_⟩
  · rw [exec_rdraw_of_some hs (transport_readBlock_ok ha) rfl, respondOk_of_idle ((commitRaw_seq _ _).trans (idle _))]
    rfl
  · rw [exec_rdraw_of_bad hs (transport_readBlock_ok ha) (by rintro _ ⟨⟩; exact hlen), raiseError_of_idle (idle _)]
    rfl
  · rw [exec_rdraw_of_bad hs (transport_readBlock_err ha) (by rintro _ ⟨⟩), raiseError_of_idle (idle _)]
    rfl

end Sys2Proof.Machine
end

section
/-! PROOF. The compensation commands: what the temperature step (R142) and the pressure step (R145) do in each case of
the registers they read, and with it all endings of `CMPT` and `CMPP`. -/

namespace Sys2Proof.Machine

/-! ### The steps, case by case -/

/-- R142: without a calibration there is no temperature, whatever else there is. -/
theorem tempStep_of_noCal {s : State} (hc : s.cal = none) (k : F64 → F64 → State → Micro) :
    tempStep k s = .raise .calibrationMissing s := by
  rw [tempStep, hc]

/-- R142: a calibration without a sample is no temperature. -/
theorem tempStep_of_noSample {s : State} {c : Cal} (hc : s.cal = some c) (hr : s.raw = none)
    (k : F64 → F64 → State → Micro) : tempStep k s = .raise .operandMissing s := by
  rw [tempStep, hc, hr]

/-- R142: with a calibration and a sample both results of `comp_T` are committed and handed on. -/
theorem tempStep_of_sample {s : State} {c : Cal} {r : RawSample} (hc : s.cal = some c) (hr : s.raw = some r)
    (k : F64 → F64 → State → Micro) :
    tempStep k s = k (compT r.adcT c.t1 c.t2 c.t3).1 (compT r.adcT c.t1 c.t2 c.t3).2
      (commitTemp (compT r.adcT c.t1 c.t2 c.t3).1 (compT r.adcT c.t1 c.t2 c.t3).2 s) := by
  rw [tempStep, hc, hr]

/-- R145: without a calibration there is no pressure, whatever else there is. -/
theorem pressStep_of_noCal {s : State} (hc : s.cal = none) (k : F64 → State → Micro) :
    pressStep k s = .raise .calibrationMissing s := by
  rw [pressStep, hc]

/-- R145: a calibration without a sample, or without a fine temperature, is no pressure. -/
theorem pressStep_of_noOperand {s : State} {c : Cal} (hc : s.cal = some c) (hm : s.raw = none ∨ s.tFine = none)
    (k : F64 → State → Micro) : pressStep k s = .raise .operandMissing s := by
  rw [pressStep, hc]
  rcases hm with hr | hf
  · rw [hr]
  · rw [hf]
    cases s.raw <;> rfl

/-- R145, R147: where `comp_P` has no value, the old pressure is dropped. -/
theorem pressStep_of_noValue {s : State} {c : Cal} {r : RawSample} {tf : F64} (hc : s.cal = some c)
    (hr : s.raw = some r) (hf : s.tFine = some tf) (hx : compP r.adcP tf c = none) (k : F64 → State → Micro) :
    pressStep k s = .raise .arithmeticError (dropPress s) := by
  simp only [pressStep, hc, hr, hf, hx]

/-- R145: where `comp_P` has a value, it is committed and handed on. -/
theorem pressStep_of_value {s : State} {c : Cal} {r : RawSample} {tf x : F64} (hc : s.cal = some c)
    (hr : s.raw = some r) (hf : s.tFine = some tf) (hx : compP r.adcP tf c = some x) (k : F64 → State → Micro) :
    pressStep k s = k x (commitPress x s) := by
  simp only [pressStep, hc, hr, hf, hx]

/-! ### The commands

Each is one micro-step (`exec_of_one_microStep`). Where it ends in the registers of `u`, the sequencer back at idle, the
state after the command is `u` with `STATUS` and the response written. -/

/-- R176: a command of one micro-step that raises an error. -/
theorem exec_of_one_raise {i : Instr} {s : State} {m : MicroStep} (e : Err) (u : State) (hs : s.seq = .idle)
    (hu : u.seq = .idle) (hm : microSteps s.params i = [m]) (h : m [] (accept i s) = .raise e (accept i u)) :
    exec i s = .next { u with status := errCode e, outputs := .response (errCode e) .none :: u.outputs } := by
  rw [exec_of_one_microStep hs hm, h, settle_raise, accept, raiseError_with_seq, raiseError_of_idle hu]

/-- R8, R30: a command of one micro-step that responds `OK`. -/
theorem exec_of_one_respond {i : Instr} {s : State} {m : MicroStep} {p : Payload} (u : State) (hs : s.seq = .idle)
    (hu : u.seq = .idle) (hm : microSteps s.params i = [m]) (h : m [] (accept i s) = .respond p (accept i u)) :
    exec i s = .next { u with status := 0, outputs := .response 0 p :: u.outputs } := by
  rw [exec_of_one_microStep hs hm, h, settle_respond, accept, respondOk_with_seq, respondOk_of_idle hu]

/-- Settles O43, by the three cases of the temperature step. -/
theorem cmptComputesTheTemperature : Obligations.CmptComputesTheTemperature := fun s _ _ hs =>
  ⟨rfl,
    fun hc hr =>
      exec_of_one_respond (commitTemp _ _ s) hs hs rfl (tempStep_of_sample (s := accept .cmpt s) hc hr _),
    fun hc =>
      exec_of_one_raise .calibrationMissing s hs hs rfl (tempStep_of_noCal (s := accept .cmpt s) hc _),
    fun hc hr =>
      exec_of_one_raise .operandMissing s hs hs rfl (tempStep_of_noSample (s := accept .cmpt s) hc hr _)⟩

/-- Settles O44, by the four cases of the pressure step. -/
theorem cmppComputesThePressure : Obligations.CmppComputesThePressure := fun s _ _ _ hs =>
  ⟨rfl,
    fun x hc hr hf hx =>
      exec_of_one_respond (commitPress x s) hs hs rfl (pressStep_of_value (s := accept .cmpp s) hc hr hf hx _),
    fun hc hr hf hx =>
      exec_of_one_raise .arithmeticError (dropPress s) hs hs rfl
        (pressStep_of_noValue (s := accept .cmpp s) hc hr hf hx _),
    fun hc =>
      exec_of_one_raise .calibrationMissing s hs hs rfl (pressStep_of_noCal (s := accept .cmpp s) hc _),
    fun hc hm =>
      exec_of_one_raise .operandMissing s hs hs rfl (pressStep_of_noOperand (s := accept .cmpp s) hc hm _)⟩

end Sys2Proof.Machine
end

section
/-! PROOF. `ACQ`: its calibration check (R161), its burst (R45, R132), and the commits of its sample, temperature and
pressure, one ending each (R160). -/

namespace Sys2Proof.Machine

/-! ### The micro-steps -/

/-- R161: the check passes every block that holds a calibration. -/
theorem acqCheck_of_cal {s : State} {c : Cal} (hc : s.cal = some c) (tmp : List Byte) :
    acqCheck tmp s = .next [] s := by
  rw [acqCheck, hc]

/-- R161: the check stops a block without a calibration. -/
theorem acqCheck_of_noCal {s : State} (hc : s.cal = none) (tmp : List Byte) :
    acqCheck tmp s = .raise .calibrationMissing s := by
  rw [acqCheck, hc]

/-- R45: a burst that fails, or gets another number of bytes, is a transport error. -/
theorem burstStep_of_bad {p : Params} {reply : Reply} {s u : State}
    (hread : transport (.readBlock p.dataBase 6) s = (reply, u)) (hbad : ∀ bs, reply = .ok bs → bs.length ≠ 6)
    (tmp : List Byte) : burstStep p tmp s = .raise .transportError u := by
  cases reply with
  | ok bs => simp only [burstStep, memRead, hread, if_neg (hbad bs rfl)]
  | err => simp only [burstStep, memRead, hread]

/-- R160: with a temperature in the block, the reading is the pressure and that temperature. -/
theorem acqRespond_of_temp {s : State} {tc : F64} (ht : s.tempC = some tc) (x : F64) :
    acqRespond x s = .respond (.reading x tc) s := by
  rw [acqRespond, ht]

/-! ### The command -/

/-- R161: without a calibration `ACQ` ends before any request. -/
theorem exec_acq_of_noCal {s : State} (hs : s.seq = .idle) (hc : s.cal = none) :
    exec .acq s = .next (raiseError .calibrationMissing s) := by
  rw [exec_eq_run, runCommand_idle _ _ _ hs, microSteps, acqSteps, runFrom_cons,
    acqCheck_of_noCal (s := accept .acq s) hc]
  rfl

/-- R160, R161: with a calibration `ACQ` goes on to the burst, the registers as they were. -/
theorem exec_acq_of_cal {s : State} {c : Cal} (hs : s.seq = .idle) (hc : s.cal = some c) :
    exec .acq s = .next (runFrom .acq (acqSteps s.params).tail 1 [] { s with seq := .busy .acq 1 [] }) := by
  rw [exec_eq_run, runCommand_idle _ _ _ hs, microSteps, acqSteps, runFrom_cons,
    acqCheck_of_cal (s := accept .acq s) hc]
  rfl

/-- R45, R160: `ACQ` whose burst is not six bytes ends with `TransportError`. -/
theorem exec_acq_of_bad {reply : Reply} {s u : State} {c : Cal} (hs : s.seq = .idle) (hc : s.cal = some c)
    (hread : transport (.readBlock s.params.dataBase 6) s = (reply, u))
    (hbad : ∀ bs, reply = .ok bs → bs.length ≠ 6) : exec .acq s = .next (raiseError .transportError u) := by
  have hread' : transport (.readBlock s.params.dataBase 6) { s with seq := .busy .acq 1 [] } =
      (reply, { u with seq := .busy .acq 1 [] }) := by rw [transport_with_seq, hread]
  rw [exec_acq_of_cal hs hc, acqSteps, List.tail_cons, runFrom_cons, burstStep_of_bad hread' hbad]
  rfl

/-! ### The sample committed -/

/-- The state after the sample `r` and the temperature computed from it are committed (R130, R142). -/
def afterSample (c : Cal) (r : RawSample) (s : State) : State :=
  commitTemp (compT r.adcT c.t1 c.t2 c.t3).1 (compT r.adcT c.t1 c.t2 c.t3).2 (commitRaw r s)

@[simp] theorem afterSample_raw (c : Cal) (r : RawSample) (s : State) : (afterSample c r s).raw = some r := rfl
@[simp] theorem afterSample_tFine (c : Cal) (r : RawSample) (s : State) :
    (afterSample c r s).tFine = some (compT r.adcT c.t1 c.t2 c.t3).2 := rfl
@[simp] theorem afterSample_tempC (c : Cal) (r : RawSample) (s : State) :
    (afterSample c r s).tempC = some (compT r.adcT c.t1 c.t2 c.t3).1 := rfl
@[simp] theorem afterSample_seq (c : Cal) (r : RawSample) (s : State) : (afterSample c r s).seq = s.seq := rfl

section
variable {bs : List Byte} {s u : State} {c : Cal} {r : RawSample} (hs : s.seq = .idle) (hc : s.cal = some c)
  (hread : transport (.readBlock s.params.dataBase 6) s = (.ok bs, u)) (hr : sampleOfBytes bs = some r)
include hc hread

/-- The burst leaves the calibration as it was. -/
theorem cal_afterBurst : u.cal = some c := by
  rw [← hc, ← transport_cal (.readBlock s.params.dataBase 6) s, hread]

include hs hr

/-- R160: `ACQ` whose burst is a sample commits it and its temperature, and ends as the pressure step does. -/
theorem exec_acq_of_sample : exec .acq s =
    .next (settle .acq 4 (pressStep acqRespond { afterSample c r u with seq := .busy .acq 4 [] })) := by
  have hread' : transport (.readBlock s.params.dataBase 6) { s with seq := .busy .acq 1 [] } =
      (.ok bs, { u with seq := .busy .acq 1 [] }) := by rw [transport_with_seq, hread]
  have htemp := tempStep_of_sample (s := { commitRaw r u with seq := .busy .acq 3 [] })
    (cal_afterBurst (u := u) hc hread) rfl
  rw [exec_acq_of_cal hs hc, acqSteps, List.tail_cons, runFrom_cons,
    burstStep_of_six hread' (sampleOfBytes_length hr)]
  dsimp only
  rw [runFrom_cons, sampleStep_of_some hr]
  dsimp only [commitRaw_with_seq]
  rw [runFrom_cons, htemp]
  dsimp only
  rw [runFrom_singleton]
  rfl

/-- R160: `ACQ` ends `OK` with the reading when the new sample has a pressure. -/
theorem exec_acq_of_value {x : F64} (hx : compP r.adcP (compT r.adcT c.t1 c.t2 c.t3).2 c = some x) :
    exec .acq s = .next
      (respondOk (.reading x (compT r.adcT c.t1 c.t2 c.t3).1) (commitPress x (afterSample c r u))) := by
  rw [exec_acq_of_sample hs hc hread hr,
    pressStep_of_value (s := { afterSample c r u with seq := .busy .acq 4 [] }) (cal_afterBurst (u := u) hc hread)
      (afterSample_raw c r u) (afterSample_tFine c r u) hx,
    acqRespond_of_temp (s := commitPress x { afterSample c r u with seq := .busy .acq 4 [] }) (afterSample_tempC c r u),
    settle_respond, commitPress_with_seq, respondOk_with_seq]

/-- R147, R160: `ACQ` ends with `ArithmeticError`, the old pressure dropped, when the new sample has none. -/
theorem exec_acq_of_noValue (hx : compP r.adcP (compT r.adcT c.t1 c.t2 c.t3).2 c = none) :
    exec .acq s = .next (raiseError .arithmeticError (dropPress (afterSample c r u))) := by
  rw [exec_acq_of_sample hs hc hread hr,
    pressStep_of_noValue (s := { afterSample c r u with seq := .busy .acq 4 [] }) (cal_afterBurst (u := u) hc hread)
      (afterSample_raw c r u) (afterSample_tFine c r u) hx,
    settle_raise, dropPress_with_seq, raiseError_with_seq]

end

/-- Settles O48: the calibration check, then the burst, then the pressure of the sample just committed. -/
theorem acqAnswersTheReading : Obligations.AcqAnswersTheReading := by
  intro s c b0 b1 b2 b3 b4 b5 rest hs
  have idle (reply) : (afterReadBlock s.params.dataBase 6 reply rest s).seq = .idle := hs
  refine ⟨rfl, fun x hc ha hx => ?_, fun hc ha hx => ?_, fun bs hlen hc ha => ?_, fun l hc ha => ?_, fun hc => ?_⟩
  · rw [exec_acq_of_value hs hc (transport_readBlock_ok ha) rfl hx,
      respondOk_of_idle ((commitPress_seq _ _).trans ((afterSample_seq _ _ _).trans (idle _)))]
    rfl
  · rw [exec_acq_of_noValue hs hc (transport_readBlock_ok ha) rfl hx,
      raiseError_of_idle ((dropPress_seq _).trans ((afterSample_seq _ _ _).trans (idle _)))]
    rfl
  · rw [exec_acq_of_bad hs hc (transport_readBlock_ok ha) (by rintro _ ⟨⟩; exact hlen), raiseError_of_idle (idle _)]
    rfl
  · rw [exec_acq_of_bad hs hc (transport_readBlock_err ha) (by rintro _ ⟨⟩), raiseError_of_idle (idle _)]
    rfl
  · rw [exec_acq_of_noCal hs hc, raiseError_of_idle hs]
    rfl

end Sys2Proof.Machine
end

section
/-! PROOF. The reset event (R200 to R202): the step it makes is the same whether the block is idle or busy, and what
that step leaves of the state is R31's values for the block and everything else as it was. -/

namespace Sys2Proof.Machine

/-- R200: an idle block takes the reset event as its step. -/
theorem idleStep_reset {s : State} {es : List Event} (he : s.events = .reset :: es) :
    idleStep s = .next (resetEvent { s with events := es }) := by
  rw [idleStep, he]

/-- R201: a busy block takes the reset event in place of its next micro-step. -/
theorem busyStep_reset {s : State} {es : List Event} (he : s.events = .reset :: es) :
    busyStep s = .next (resetEvent { s with events := es }) := by
  rw [busyStep, he]

/-- R200, R201: the step of a reset is the reset event, whatever the sequencer holds. -/
theorem step_reset {s : State} {es : List Event} (he : s.events = .reset :: es) :
    step s = .next (resetEvent { s with events := es }) := by
  cases hs : s.seq with
  | idle => exact (step_idle s hs).trans (hs ▸ idleStep_reset he)
  | busy c i tmp => exact (step_busy s c i tmp hs).trans (hs ▸ busyStep_reset he)

/-- R31, R202: the reset event writes the block's registers, `STATUS` and the sequencer, and no other field. -/
theorem resetEvent_eq_with (s : State) :
    resetEvent s = { s with
      cal := none, raw := none, tFine := none, tempC := none, press := none, status := 0, seq := .idle } := rfl

/-- Settles O51: the step is the reset event, idle or busy, and the reset event writes the block's state only. -/
theorem resetEventResetsTheBlockOnly : Obligations.ResetEventResetsTheBlockOnly := by
  intro s es he
  rw [step_reset he, resetEvent_eq_with]

end Sys2Proof.Machine
end

section
/-! PROOF. The command words (R80 to R90): a word is the encoding of a command exactly when its slices are the command's
opcode and operand fields, so decoding and encoding are one relation. -/

namespace Sys2Proof

/-! ### Slices of a word -/

/-- Two bit strings in a row are a slice exactly when each is its part of the slice. -/
theorem append_eq_slice_iff {k m n : Nat} (s : Nat) (x : BitVec m) (y : BitVec n) (z : BitVec k) :
    x ++ y = z.extractLsb' s (m + n) ↔ x = z.extractLsb' (s + n) m ∧ y = z.extractLsb' s n := by
  rw [← BitVec.extractLsb'_append_extractLsb'_eq_extractLsb' (start₁ := s) (len₁ := n) (len₂ := m) rfl]
  constructor
  · intro h
    exact ⟨by simpa only [BitVec.extractLsb'_append_eq_left] using congrArg (BitVec.extractLsb' n m) h,
      by simpa only [BitVec.extractLsb'_append_eq_right] using congrArg (BitVec.extractLsb' 0 n) h⟩
  · rintro ⟨rfl, rfl⟩
    rfl

/-- R82: the operand field of format `C` by its slices. -/
theorem encodeC_eq_iff {ot op : Osrs} {m : Mode} {arg : BitVec 16} :
    encodeC ot op m = arg ↔ arg.extractLsb' 8 8 = 0 ∧ ot.ord = arg.extractLsb' 5 3 ∧
      op.ord = arg.extractLsb' 2 3 ∧ m.ord = arg.extractLsb' 0 2 := by
  rw [encodeC, ← BitVec.extractLsb'_eq_self (x := arg), append_eq_slice_iff, append_eq_slice_iff,
    append_eq_slice_iff, BitVec.extractLsb'_eq_self, and_assoc, and_assoc, eq_comm (a := 0#8)]
  rfl

/-- R83: the operand field of format `F` by its slices. -/
theorem encodeF_eq_iff {sb : Standby} {f : Filter} {w : Bool} {arg : BitVec 16} :
    encodeF sb f w = arg ↔ arg.extractLsb' 8 8 = 0 ∧ arg.extractLsb' 1 1 = 0 ∧ sb.ord = arg.extractLsb' 5 3 ∧
      f.ord = arg.extractLsb' 2 3 ∧ bitOfBool w = arg.extractLsb' 0 1 := by
  rw [encodeF, ← BitVec.extractLsb'_eq_self (x := arg), append_eq_slice_iff, append_eq_slice_iff,
    append_eq_slice_iff, append_eq_slice_iff, BitVec.extractLsb'_eq_self, eq_comm (a := 0#8), eq_comm (a := 0#1)]
  tauto

/-- R84: the operand field of format `S` by its slices. -/
theorem encodeS_eq_iff {ot op : Osrs} {m : Mode} {sb : Standby} {f : Filter} {w : Bool} {arg : BitVec 16} :
    encodeS ot op m sb f w = arg ↔ arg.extractLsb' 15 1 = 0 ∧ ot.ord = arg.extractLsb' 12 3 ∧
      op.ord = arg.extractLsb' 9 3 ∧ m.ord = arg.extractLsb' 7 2 ∧ sb.ord = arg.extractLsb' 4 3 ∧
      f.ord = arg.extractLsb' 1 3 ∧ bitOfBool w = arg.extractLsb' 0 1 := by
  rw [encodeS, ← BitVec.extractLsb'_eq_self (x := arg)]
  iterate 6 rw [append_eq_slice_iff]
  simp only [BitVec.extractLsb'_eq_self, eq_comm (a := 0#1), and_assoc]
  rfl

/-- R86: the operand field of format `B` by its slices. -/
theorem encodeB_eq_iff {b : Byte} {arg : BitVec 16} :
    0#8 ++ b = arg ↔ arg.extractLsb' 8 8 = 0 ∧ b = arg.extractLsb' 0 8 := by
  rw [← BitVec.extractLsb'_eq_self (x := arg), append_eq_slice_iff, BitVec.extractLsb'_eq_self, eq_comm (a := 0#8)]
  rfl

/-- R80: the word of a command by its slices. -/
theorem encode_eq_iff {i : Instr} {w : Word} :
    encode i = w ↔ i.opcode = w.extractLsb' 16 8 ∧ i.arg = w.extractLsb' 0 16 := by
  rw [encode, ← BitVec.extractLsb'_eq_self (x := w), append_eq_slice_iff, BitVec.extractLsb'_eq_self]

/-! ### The ordinals (R87) -/

theorem osrsOfOrd_eq_ok_iff {c : BitVec 3} {x : Osrs} : osrsOfOrd c = .ok x ↔ x.ord = c := by
  revert c; cases x <;> decide
theorem modeOfOrd_eq_ok_iff {c : BitVec 2} {x : Mode} : modeOfOrd c = .ok x ↔ x.ord = c := by
  revert c; cases x <;> decide
theorem filterOfOrd_eq_ok_iff {c : BitVec 3} {x : Filter} : filterOfOrd c = .ok x ↔ x.ord = c := by
  revert c; cases x <;> decide
theorem standbyOfOrd_eq_iff {c : BitVec 3} {x : Standby} : standbyOfOrd c = x ↔ x.ord = c := by
  revert c; cases x <;> decide
theorem boolOfBit_eq_iff {c : BitVec 1} {x : Bool} : boolOfBit c = x ↔ bitOfBool x = c := by
  revert c; cases x <;> decide

/-! ### The formats (R81 to R84, R86) -/

/-- A decoding in two parts succeeds exactly when both parts do. -/
theorem bind_eq_ok_iff {ε α β : Type} {x : Except ε α} {f : α → Except ε β} {b : β} :
    (x >>= f) = .ok b ↔ ∃ a, x = .ok a ∧ f a = .ok b := by
  cases x with
  | error e => exact ⟨nofun, nofun⟩
  | ok a => exact ⟨fun h => ⟨a, rfl, h⟩, fun ⟨_, rfl, h⟩ => h⟩

theorem decodeN_eq_ok_iff {arg : BitVec 16} {i j : Instr} : decodeN arg j = .ok i ↔ arg = 0 ∧ j = i := by
  unfold decodeN
  split_ifs with h
  · simp [h]
  · exact ⟨nofun, fun ⟨h0, _⟩ => absurd h0 h⟩

theorem decodeC_eq_ok_iff {arg : BitVec 16} {mk : Osrs → Osrs → Mode → Instr} {i : Instr} :
    decodeC arg mk = .ok i ↔ ∃ ot op m, encodeC ot op m = arg ∧ mk ot op m = i := by
  simp only [decodeC, encodeC_eq_iff]
  split_ifs with h
  · exact ⟨nofun, fun ⟨_, _, _, ⟨h0, _⟩, _⟩ => absurd h0 h⟩
  · simp only [not_not.mp h, bind_eq_ok_iff, osrsOfOrd_eq_ok_iff, modeOfOrd_eq_ok_iff, pure, Except.pure,
      Except.ok.injEq, true_and, and_assoc, exists_and_left]

theorem decodeF_eq_ok_iff {arg : BitVec 16} {mk : Standby → Filter → Bool → Instr} {i : Instr} :
    decodeF arg mk = .ok i ↔ ∃ sb f w, encodeF sb f w = arg ∧ mk sb f w = i := by
  simp only [decodeF, encodeF_eq_iff, ← standbyOfOrd_eq_iff, ← boolOfBit_eq_iff]
  split_ifs with h
  · exact ⟨nofun, fun ⟨_, _, _, ⟨h8, h1, _⟩, _⟩ => (h.elim (· h8) (· h1)).elim⟩
  · obtain ⟨h8, h1⟩ : arg.extractLsb' 8 8 = 0 ∧ arg.extractLsb' 1 1 = 0 := by simpa using h
    simp only [h8, h1, bind_eq_ok_iff, filterOfOrd_eq_ok_iff, pure, Except.pure, Except.ok.injEq]
    simp

theorem decodeS_eq_ok_iff {arg : BitVec 16} {mk : Osrs → Osrs → Mode → Standby → Filter → Bool → Instr}
    {i : Instr} : decodeS arg mk = .ok i ↔
      ∃ ot op m sb f w, encodeS ot op m sb f w = arg ∧ mk ot op m sb f w = i := by
  simp only [decodeS, encodeS_eq_iff, ← standbyOfOrd_eq_iff, ← boolOfBit_eq_iff]
  split_ifs with h
  · exact ⟨nofun, fun ⟨_, _, _, _, _, _, ⟨h0, _⟩, _⟩ => absurd h0 h⟩
  · simp only [not_not.mp h, bind_eq_ok_iff, osrsOfOrd_eq_ok_iff, modeOfOrd_eq_ok_iff, filterOfOrd_eq_ok_iff, pure,
      Except.pure, Except.ok.injEq]
    simp [and_assoc]

theorem decodeB_eq_ok_iff {arg : BitVec 16} {mk : Byte → Instr} {i : Instr} :
    decodeB arg mk = .ok i ↔ ∃ b, 0#8 ++ b = arg ∧ mk b = i := by
  simp only [decodeB, encodeB_eq_iff]
  split_ifs with h
  · exact ⟨nofun, fun ⟨_, ⟨h0, _⟩, _⟩ => absurd h0 h⟩
  · simp [not_not.mp h]

/-! ### The decoder (R85) -/

/-- R80, R85, R90: a word decodes to a command exactly when it is the command's encoding. -/
theorem decode_eq_ok_iff {w : Word} {i : Instr} : decode w = .ok i ↔ encode i = w := by
  rw [encode_eq_iff]
  constructor
  · intro h
    have opcode {k : Nat} (hop : (w.extractLsb' 16 8).toNat = k) : BitVec.ofNat 8 k = w.extractLsb' 16 8 := by
      rw [← hop, BitVec.ofNat_toNat, BitVec.setWidth_eq]
    unfold decode at h
    dsimp only at h
    split at h
    case h_1 hop | h_5 hop | h_6 hop | h_7 hop | h_8 hop | h_13 hop | h_14 hop =>
      obtain ⟨harg, rfl⟩ := decodeN_eq_ok_iff.mp h
      exact ⟨opcode hop, harg.symm⟩
    case h_2 hop | h_9 hop =>
      obtain ⟨ot, op, m, harg, rfl⟩ := decodeC_eq_ok_iff.mp h
      exact ⟨opcode hop, harg⟩
    case h_3 hop | h_10 hop =>
      obtain ⟨sb, f, w, harg, rfl⟩ := decodeF_eq_ok_iff.mp h
      exact ⟨opcode hop, harg⟩
    case h_4 hop =>
      obtain ⟨ot, op, m, sb, f, w, harg, rfl⟩ := decodeS_eq_ok_iff.mp h
      exact ⟨opcode hop, harg⟩
    case h_11 hop | h_12 hop =>
      obtain ⟨b, harg, rfl⟩ := decodeB_eq_ok_iff.mp h
      exact ⟨opcode hop, harg⟩
    case h_15 => cases h
  · rintro ⟨hop, harg⟩
    unfold decode
    rw [← hop, ← harg]
    cases i with
    | ldcal | rdraw | cmpt | cmpp | acq | rdctl | rdflt => exact decodeN_eq_ok_iff.mpr ⟨rfl, rfl⟩
    | apctl ot op m | encctl ot op m => exact decodeC_eq_ok_iff.mpr ⟨ot, op, m, rfl, rfl⟩
    | apflt sb f w | encflt sb f w => exact decodeF_eq_ok_iff.mpr ⟨sb, f, w, rfl, rfl⟩
    | config ot op m sb f w => exact decodeS_eq_ok_iff.mpr ⟨ot, op, m, sb, f, w, rfl, rfl⟩
    | decctl b | decflt b => exact decodeB_eq_ok_iff.mpr ⟨b, rfl, rfl⟩

/-- Settles O1: one direction of `decode_eq_ok_iff`. -/
theorem decodeInvertsEncode : Obligations.DecodeInvertsEncode := fun _ _ => decode_eq_ok_iff.mpr rfl

/-- Settles O2: the other direction of `decode_eq_ok_iff`. -/
theorem legalWordIsTheEncodingOfItsCommand : Obligations.LegalWordIsTheEncodingOfItsCommand :=
  fun _ _ => decode_eq_ok_iff.mp

/-! ### The legal words (R89) -/

/-- A coding of listed members has a member for every code that is in the list of their codes. -/
theorem exists_code_of_mem {α κ : Type} {code : α → κ} {c : κ} (members : List α) (h : c ∈ members.map code) :
    ∃ x, code x = c := by
  obtain ⟨x, -, hx⟩ := List.mem_map.mp h
  exact ⟨x, hx⟩

theorem exists_osrs_ord_iff (c : BitVec 3) : (∃ x : Osrs, x.ord = c) ↔ c.toNat ≤ 5 := by
  constructor
  · rintro ⟨x, rfl⟩
    cases x <;> decide
  · intro h
    exact exists_code_of_mem [.skip, .x1, .x2, .x4, .x8, .x16] (by revert c; decide)

theorem exists_mode_ord_iff (c : BitVec 2) : (∃ x : Mode, x.ord = c) ↔ c.toNat ≤ 2 := by
  constructor
  · rintro ⟨x, rfl⟩
    cases x <;> decide
  · intro h
    exact exists_code_of_mem [.sleep, .forced, .normal] (by revert c; decide)

theorem exists_filter_ord_iff (c : BitVec 3) : (∃ x : Filter, x.ord = c) ↔ c.toNat ≤ 4 := by
  constructor
  · rintro ⟨x, rfl⟩
    cases x <;> decide
  · intro h
    exact exists_code_of_mem [.off, .c2, .c4, .c8, .c16] (by revert c; decide)

/-- A slice of an operand field as a number. -/
theorem slice_toNat {n : Nat} (x : BitVec n) (s m : Nat) : (x.extractLsb' s m).toNat = x.toNat / 2 ^ s % 2 ^ m := by
  rw [BitVec.extractLsb'_toNat, Nat.shiftRight_eq_div_pow]

/-- A slice of an operand field is zero exactly when its number is. -/
theorem slice_eq_zero_iff {n : Nat} (x : BitVec n) (s m : Nat) :
    x.extractLsb' s m = 0 ↔ x.toNat / 2 ^ s % 2 ^ m = 0 := by
  rw [← BitVec.toNat_inj, slice_toNat]
  simp only [BitVec.ofNat_eq_ofNat, BitVec.toNat_ofNat, Nat.zero_mod]

/-- R82: the operand fields of format `C`. -/
theorem exists_encodeC_iff (arg : BitVec 16) : (∃ ot op m, encodeC ot op m = arg) ↔
    arg.toNat / 256 = 0 ∧ arg.toNat / 32 % 8 ≤ 5 ∧ arg.toNat / 4 % 8 ≤ 5 ∧ arg.toNat % 4 ≤ 2 := by
  have h := arg.isLt
  simp only [encodeC_eq_iff, exists_and_left, exists_and_right, exists_osrs_ord_iff, exists_mode_ord_iff,
    slice_eq_zero_iff, slice_toNat]
  omega

/-- R83: the operand fields of format `F`. -/
theorem exists_encodeF_iff (arg : BitVec 16) : (∃ sb f w, encodeF sb f w = arg) ↔
    arg.toNat / 256 = 0 ∧ arg.toNat / 2 % 2 = 0 ∧ arg.toNat / 4 % 8 ≤ 4 := by
  have h := arg.isLt
  simp only [encodeF_eq_iff, ← standbyOfOrd_eq_iff, ← boolOfBit_eq_iff, exists_and_left, exists_and_right,
    exists_filter_ord_iff, slice_eq_zero_iff, slice_toNat, exists_eq', and_true, true_and]
  omega

/-- R84: the operand fields of format `S`. -/
theorem exists_encodeS_iff (arg : BitVec 16) : (∃ ot op m sb f w, encodeS ot op m sb f w = arg) ↔
    arg.toNat / 32768 = 0 ∧ arg.toNat / 4096 % 8 ≤ 5 ∧ arg.toNat / 512 % 8 ≤ 5 ∧ arg.toNat / 128 % 4 ≤ 2 ∧
      arg.toNat / 2 % 8 ≤ 4 := by
  have h := arg.isLt
  simp only [encodeS_eq_iff, ← standbyOfOrd_eq_iff, ← boolOfBit_eq_iff, exists_and_left, exists_and_right,
    exists_osrs_ord_iff, exists_mode_ord_iff, exists_filter_ord_iff, slice_eq_zero_iff, slice_toNat, exists_eq',
    and_true, true_and]
  omega

/-- R86: the operand fields of format `B`. -/
theorem exists_encodeB_iff (arg : BitVec 16) : (∃ b : Byte, 0#8 ++ b = arg) ↔ arg.toNat / 256 = 0 := by
  have h := arg.isLt
  simp only [encodeB_eq_iff, exists_and_left, exists_eq, and_true, slice_eq_zero_iff]
  omega

/-- R89: the legal words are the encodings of commands. -/
theorem exists_encode_iff (w : Word) : (∃ i, encode i = w) ↔ Machine.LegalWord w := by
  have hw := w.isLt
  have op_eq : w.toNat / 65536 = (w.extractLsb' 16 8).toNat := by rw [slice_toNat]; omega
  have arg_eq : w.toNat % 65536 = (w.extractLsb' 0 16).toNat := by rw [slice_toNat]; omega
  have opcode {k : Nat} (hop : (w.extractLsb' 16 8).toNat = k) : BitVec.ofNat 8 k = w.extractLsb' 16 8 := by
    rw [← hop, BitVec.ofNat_toNat, BitVec.setWidth_eq]
  have argument (h : (w.extractLsb' 0 16).toNat = 0) : 0 = w.extractLsb' 0 16 := BitVec.eq_of_toNat_eq h.symm
  unfold Machine.LegalWord
  simp only [encode_eq_iff, op_eq, arg_eq]
  rw [← exists_encodeC_iff, ← exists_encodeF_iff, ← exists_encodeS_iff, ← exists_encodeB_iff]
  constructor
  · rintro ⟨i, hop, harg⟩
    rw [← hop]
    cases i with
    | ldcal | rdraw | cmpt | cmpp | acq | rdctl | rdflt =>
      exact .inl ⟨by simp [Instr.opcode], congrArg BitVec.toNat harg.symm⟩
    | apctl ot op m | encctl ot op m => exact .inr (.inl ⟨by simp [Instr.opcode], ot, op, m, harg⟩)
    | apflt sb f w | encflt sb f w => exact .inr (.inr (.inl ⟨by simp [Instr.opcode], sb, f, w, harg⟩))
    | config ot op m sb f w => exact .inr (.inr (.inr (.inl ⟨rfl, ot, op, m, sb, f, w, harg⟩)))
    | decctl b | decflt b => exact .inr (.inr (.inr (.inr ⟨by simp [Instr.opcode], b, harg⟩)))
  · simp only [List.mem_cons, List.not_mem_nil, or_false]
    rintro (⟨h | h | h | h | h | h | h, harg⟩ | ⟨h | h, ot, op, m, harg⟩ | ⟨h | h, sb, f, w, harg⟩ |
      ⟨h, ot, op, m, sb, f, w, harg⟩ | ⟨h | h, b, harg⟩)
    · exact ⟨.ldcal, opcode h, argument harg⟩
    · exact ⟨.rdraw, opcode h, argument harg⟩
    · exact ⟨.cmpt, opcode h, argument harg⟩
    · exact ⟨.cmpp, opcode h, argument harg⟩
    · exact ⟨.acq, opcode h, argument harg⟩
    · exact ⟨.rdctl, opcode h, argument harg⟩
    · exact ⟨.rdflt, opcode h, argument harg⟩
    · exact ⟨.apctl ot op m, opcode h, harg⟩
    · exact ⟨.encctl ot op m, opcode h, harg⟩
    · exact ⟨.apflt sb f w, opcode h, harg⟩
    · exact ⟨.encflt sb f w, opcode h, harg⟩
    · exact ⟨.config ot op m sb f w, opcode h, harg⟩
    · exact ⟨.decctl b, opcode h, harg⟩
    · exact ⟨.decflt b, opcode h, harg⟩

/-- Settles O3: a word decodes to the commands it is the encoding of. -/
theorem decoderAcceptsExactlyTheLegalWords : Obligations.DecoderAcceptsExactlyTheLegalWords := fun w => by
  simp only [decode_eq_ok_iff, exists_encode_iff]

/-- Settles O4: the words are the encodings of their commands; the opcodes 0x00 and 0x0F are not in the map. -/
theorem wordsOfTheSpecDecode : Obligations.WordsOfTheSpecDecode :=
  ⟨decode_eq_ok_iff.mpr rfl, decode_eq_ok_iff.mpr rfl, decode_eq_ok_iff.mpr rfl, decode_eq_ok_iff.mpr rfl,
    decode_eq_ok_iff.mpr rfl, decode_eq_ok_iff.mpr rfl, decode_eq_ok_iff.mpr rfl, decode_eq_ok_iff.mpr rfl, rfl, rfl⟩

end Sys2Proof
end

section
/-! PROOF. What a micro-step can do to the state (R30): requests and the commits of R18, nothing else. A predicate these
keep is kept by every micro-step; and a command is the run of its micro-steps, whose last one ends it. -/

namespace Sys2Proof.Machine

/-! ### What a micro-step keeps -/

/-- The state a micro-step ends in, before the sequencer moves and a response goes out. -/
def Micro.state : Micro → State
  | .next _ s => s
  | .raise _ s => s
  | .respond _ s => s

/-- A predicate that requests and the commits of R18 keep, each commit with what was computed for it. -/
structure KeptByWork (P : State → Prop) : Prop where
  transport (r : Request) (s : State) : P s → P (transport r s).2
  commitCal (c : Cal) (s : State) : P s → P (commitCal c s)
  commitRaw (r : RawSample) (s : State) : P s → P (commitRaw r s)
  commitTemp (s : State) (c : Cal) (r : RawSample) : s.cal = some c → s.raw = some r → P s →
    P (commitTemp (compT r.adcT c.t1 c.t2 c.t3).1 (compT r.adcT c.t1 c.t2 c.t3).2 s)
  commitPress (s : State) (c : Cal) (r : RawSample) (tf x : F64) : s.cal = some c → s.raw = some r →
    s.tFine = some tf → compP r.adcP tf c = some x → P s → P (commitPress x s)
  dropPress (s : State) : P s → P (dropPress s)

section Primitives

variable {P : State → Prop} (hP : KeptByWork P) {s : State} (hs : P s)
include hP hs

theorem memRead_keeps {a : Addr} {n : Nat} {k : List Byte → State → Micro} (hk : ∀ bs u, P u → P (k bs u).state) :
    P (memRead a n k s).state := by
  have after := hP.transport (.readBlock a n) s hs
  rcases memRead_cases a n k s with e | ⟨bs, -, -, e⟩ <;> rw [e]
  · exact after
  · exact hk _ _ after

theorem memReadByte_keeps {a : Addr} {k : Byte → State → Micro} (hk : ∀ b u, P u → P (k b u).state) :
    P (memReadByte a k s).state := by
  have after := hP.transport (.readByte a) s hs
  rcases memReadByte_cases a k s with e | ⟨b, -, e⟩ <;> rw [e]
  · exact after
  · exact hk _ _ after

theorem memWrite_keeps {a : Addr} {v : Byte} {k : State → Micro} (hk : ∀ u, P u → P (k u).state) :
    P (memWrite a v k s).state := by
  have after := hP.transport (.writeByte a v) s hs
  rcases memWrite_cases a v k s with e | e <;> rw [e]
  · exact after
  · exact hk _ after

theorem sampleStep_keeps {tmp : List Byte} {k : RawSample → State → Micro} (hk : ∀ r u, P u → P (k r u).state) :
    P (sampleStep k tmp s).state := by
  unfold sampleStep
  split
  · exact hk _ _ (hP.commitRaw _ _ hs)
  · exact hs

theorem tempStep_keeps {k : F64 → F64 → State → Micro} (hk : ∀ tc tf u, P u → P (k tc tf u).state) :
    P (tempStep k s).state := by
  rcases tempStep_cases k s with ⟨-, e⟩ | ⟨c, -, -, e⟩ | ⟨c, r, hc, hr, e⟩ <;> rw [e]
  · exact hs
  · exact hs
  · exact hk _ _ _ (hP.commitTemp s c r hc hr hs)

theorem pressStep_keeps {k : F64 → State → Micro} (hk : ∀ x u, P u → P (k x u).state) :
    P (pressStep k s).state := by
  rcases pressStep_cases k s with ⟨-, e⟩ | ⟨c, -, -, e⟩ | ⟨c, r, tf, hc, hr, hf, ⟨-, e⟩ | ⟨x, hx, e⟩⟩ <;> rw [e]
  · exact hs
  · exact hs
  · exact hP.dropPress s hs
  · exact hk _ _ (hP.commitPress s c r tf x hc hr hf hx hs)

theorem ldcalCommit_keeps {tmp : List Byte} : P (ldcalCommit tmp s).state := by
  unfold ldcalCommit
  split
  · exact hP.commitCal _ _ hs
  · exact hs

theorem writeVerify_keeps {a : Addr} {b : Byte} {k : State → Micro} (hk : ∀ u, P u → P (k u).state) {m : MicroStep}
    (hm : m ∈ writeVerify a b k) {tmp : List Byte} : P (m tmp s).state := by
  rcases List.mem_pair.mp hm with rfl | rfl
  · exact memWrite_keeps hP hs fun _ h => h
  · refine memReadByte_keeps hP hs fun r u h => ?_
    split_ifs
    · exact hk u h
    · exact h

end Primitives

/-- The decoding of a control byte changes no state. -/
@[simp] theorem decodeCtrl_state (b : Byte) (s : State) : (decodeCtrl b s).state = s := by
  rcases decodeCtrl_cases b s with ⟨ot, op, m, -, e⟩ | ⟨-, e⟩ <;> rw [e] <;> rfl

/-- The decoding of a filter byte changes no state. -/
@[simp] theorem decodeCfg_state (b : Byte) (s : State) : (decodeCfg b s).state = s := by
  rcases decodeCfg_cases b s with ⟨sb, f, w, -, e⟩ | ⟨-, e⟩ <;> rw [e] <;> rfl

/-- The response of `ACQ` changes no state. -/
@[simp] theorem acqRespond_state (x : F64) (s : State) : (acqRespond x s).state = s := by
  unfold acqRespond
  split <;> rfl

/-- The micro-steps of a command keep what requests and commits keep. -/
theorem microSteps_keep {P : State → Prop} (hP : KeptByWork P) (p : Params) (cmd : Instr) {m : MicroStep}
    (hm : m ∈ microSteps p cmd) (tmp : List Byte) {s : State} (hs : P s) : P (m tmp s).state := by
  cases cmd with
  | ldcal =>
    rw [microSteps_ldcal, List.mem_append, List.mem_map, List.mem_singleton] at hm
    rcases hm with ⟨k, -, rfl⟩ | rfl
    · exact memRead_keeps hP hs fun _ _ h => h
    · exact ldcalCommit_keeps hP hs
  | apctl ot op m => exact writeVerify_keeps hP hs (fun _ => id) hm
  | apflt sb f w => exact writeVerify_keeps hP hs (fun _ => id) hm
  | config ot op m sb f w =>
    rw [microSteps, configSteps_eq, List.mem_append] at hm
    rcases hm with hm | hm
    · exact writeVerify_keeps hP hs (fun _ => id) hm
    · exact writeVerify_keeps hP hs (fun _ => id) hm
  | rdraw =>
    rcases List.mem_pair.mp hm with rfl | rfl
    · exact memRead_keeps hP hs fun _ _ h => h
    · exact sampleStep_keeps hP hs fun _ _ h => h
  | cmpt =>
    rw [List.mem_singleton.mp hm]
    exact tempStep_keeps hP hs fun _ _ _ h => h
  | cmpp =>
    rw [List.mem_singleton.mp hm]
    exact pressStep_keeps hP hs fun _ _ h => h
  | acq =>
    simp only [microSteps, acqSteps, List.mem_cons, List.not_mem_nil, or_false] at hm
    rcases hm with rfl | rfl | rfl | rfl | rfl
    · unfold acqCheck
      split <;> exact hs
    · exact memRead_keeps hP hs fun _ _ h => h
    · exact sampleStep_keeps hP hs fun _ _ h => h
    · exact tempStep_keeps hP hs fun _ _ _ h => h
    · exact pressStep_keeps hP hs fun _ _ h => by simpa using h
  | encctl ot op m =>
    rw [List.mem_singleton.mp hm]
    exact hs
  | encflt sb f w =>
    rw [List.mem_singleton.mp hm]
    exact hs
  | decctl b =>
    rw [List.mem_singleton.mp hm]
    simpa using hs
  | decflt b =>
    rw [List.mem_singleton.mp hm]
    simpa using hs
  | rdctl =>
    rcases List.mem_pair.mp hm with rfl | rfl
    · exact memReadByte_keeps hP hs fun _ _ h => h
    · dsimp only
      split
      · simpa using hs
      · exact hs
  | rdflt =>
    rcases List.mem_pair.mp hm with rfl | rfl
    · exact memReadByte_keeps hP hs fun _ _ h => h
    · dsimp only
      split
      · simpa using hs
      · exact hs

/-! ### The last micro-step ends the command -/

/-- A micro-step that ends its command: it raises an error or responds. -/
def Micro.Ends : Micro → Prop
  | .next _ _ => False
  | .raise _ _ => True
  | .respond _ _ => True

/-- A verified write ends a command where what follows the comparison does (R118). -/
theorem memReadByte_verify_ends (a : Addr) (b : Byte) (s : State) :
    (memReadByte a (fun r u => if r = b then .respond .none u else .raise .verificationFailed u) s).Ends := by
  rcases memReadByte_cases a (fun r u => if r = b then .respond .none u else .raise .verificationFailed u) s with
    e | ⟨r, -, e⟩ <;> rw [e]
  · trivial
  · split_ifs <;> trivial

theorem decodeCtrl_ends (b : Byte) (s : State) : (decodeCtrl b s).Ends := by
  rcases decodeCtrl_cases b s with ⟨ot, op, m, -, e⟩ | ⟨-, e⟩ <;> rw [e] <;> trivial

theorem decodeCfg_ends (b : Byte) (s : State) : (decodeCfg b s).Ends := by
  rcases decodeCfg_cases b s with ⟨sb, f, w, -, e⟩ | ⟨-, e⟩ <;> rw [e] <;> trivial

theorem acqRespond_ends (x : F64) (s : State) : (acqRespond x s).Ends := by
  unfold acqRespond
  split <;> trivial

theorem pressStep_ends {k : F64 → State → Micro} (hk : ∀ x u, (k x u).Ends) (s : State) : (pressStep k s).Ends := by
  rcases pressStep_cases k s with ⟨-, e⟩ | ⟨c, -, -, e⟩ | ⟨c, r, tf, -, -, -, ⟨-, e⟩ | ⟨x, -, e⟩⟩ <;> rw [e]
  · trivial
  · trivial
  · trivial
  · exact hk _ _

/-- R30: the list of micro-steps of a command has a last one, which ends the command. -/
theorem microSteps_last (p : Params) (cmd : Instr) :
    ∃ init last, microSteps p cmd = init ++ [last] ∧ ∀ tmp s, (last tmp s).Ends := by
  cases cmd with
  | ldcal =>
    refine ⟨_, _, microSteps_ldcal p, fun tmp s => ?_⟩
    unfold ldcalCommit
    split <;> trivial
  | apctl ot op m | apflt sb f w => exact ⟨[_], _, rfl, fun _ _ => memReadByte_verify_ends _ _ _⟩
  | config ot op m sb f w =>
    exact ⟨[_, _, _], _, configSteps_eq p ot op m sb f w, fun _ _ => memReadByte_verify_ends _ _ _⟩
  | rdraw =>
    refine ⟨[_], _, rfl, fun tmp s => ?_⟩
    unfold sampleStep
    split <;> trivial
  | cmpt =>
    refine ⟨[], _, rfl, fun tmp s => ?_⟩
    rcases tempStep_cases (fun tc tf s' => .respond (.temperature tc tf) s') s with
      ⟨-, e⟩ | ⟨c, -, -, e⟩ | ⟨c, r, -, -, e⟩ <;> rw [e] <;> trivial
  | cmpp =>
    exact ⟨[], _, rfl, fun _ _ => pressStep_ends (k := fun x u => .respond (.pressure x) u) (fun _ _ => trivial) _⟩
  | acq => exact ⟨[_, _, _, _], _, rfl, fun _ _ => pressStep_ends acqRespond_ends _⟩
  | encctl ot op m | encflt sb f w => exact ⟨[], _, rfl, fun _ _ => trivial⟩
  | decctl b => exact ⟨[], _, rfl, fun _ _ => decodeCtrl_ends _ _⟩
  | decflt b => exact ⟨[], _, rfl, fun _ _ => decodeCfg_ends _ _⟩
  | rdctl =>
    refine ⟨[_], _, rfl, fun tmp s => ?_⟩
    split
    · exact decodeCtrl_ends _ _
    · trivial
  | rdflt =>
    refine ⟨[_], _, rfl, fun tmp s => ?_⟩
    split
    · exact decodeCfg_ends _ _
    · trivial

/-- R221: no command has more than 13 micro-steps. -/
theorem microSteps_length_le (p : Params) (cmd : Instr) : (microSteps p cmd).length ≤ 13 := by
  cases cmd with
  | config ot op m sb f w =>
    rw [microSteps, configSteps_eq]
    exact (by decide : 4 ≤ 13)
  | ldcal => exact (by decide : 13 ≤ 13)
  | acq => exact (by decide : 5 ≤ 13)
  | apctl ot op m | apflt sb f w | rdraw | rdctl | rdflt => exact (by decide : 2 ≤ 13)
  | cmpt | cmpp | encctl ot op m | encflt sb f w | decctl b | decflt b => exact (by decide : 1 ≤ 13)

/-- A micro-step that hands on is not the last of its command (R30). -/
theorem succ_lt_of_next {p : Params} {cmd : Instr} {i : Nat} {m : MicroStep} (hm : (microSteps p cmd)[i]? = some m)
    {tmp tmp' : List Byte} {s u : State} (h : m tmp s = .next tmp' u) : i + 1 < (microSteps p cmd).length := by
  obtain ⟨init, last, hl, hends⟩ := microSteps_last p cmd
  obtain ⟨hi, -⟩ := List.getElem?_eq_some_iff.mp hm
  rw [hl, List.length_append, List.length_singleton] at hi ⊢
  by_contra hge
  have hlast : m = last := by
    rw [hl, show i = init.length by omega, List.getElem?_concat_length] at hm
    exact (Option.some.inj hm).symm
  subst hlast
  have := hends tmp s
  rw [h] at this
  exact this

/-! ### A command is the run of its micro-steps -/

/-- `n` micro-steps of `cmd`, from index `i` on, lead from `s` to `t`, where the block is idle for the first time. -/
def RunsTo (cmd : Instr) (i n : Nat) (s t : State) : Prop :=
  ∃ run : Nat → State, run 0 = s ∧
    (∀ k < n, microStep (run k) = some (run (k + 1)) ∧ ∃ tmp, (run k).seq = .busy cmd (i + k) tmp) ∧
    t.seq = .idle ∧ t = run n

/-- A micro-step that ends the command is a run of its own. -/
theorem runsTo_one {cmd : Instr} {i : Nat} {tmp : List Byte} {s t : State} (hs : s.seq = .busy cmd i tmp)
    (hstep : microStep s = some t) (ht : t.seq = .idle) : RunsTo cmd i 1 s t := by
  refine ⟨fun k => if k = 0 then s else t, rfl, fun k hk => ?_, ht, rfl⟩
  obtain rfl : k = 0 := by omega
  exact ⟨hstep, tmp, hs⟩

/-- A micro-step before a run makes a run with one micro-step more. -/
theorem RunsTo.cons {cmd : Instr} {i n : Nat} {tmp : List Byte} {s u t : State} (h : RunsTo cmd (i + 1) n u t)
    (hs : s.seq = .busy cmd i tmp) (hstep : microStep s = some u) : RunsTo cmd i (n + 1) s t := by
  obtain ⟨run, rfl, hrun, ht, rfl⟩ := h
  refine ⟨fun k => k.casesOn s run, rfl, fun k hk => ?_, ht, rfl⟩
  cases k with
  | zero => exact ⟨hstep, tmp, hs⟩
  | succ k =>
    obtain ⟨hk, tmp', hseq⟩ := hrun k (by omega)
    exact ⟨hk, tmp', hseq.trans (by rw [Nat.add_assoc, Nat.add_comm 1])⟩

/-- Requests and commits change neither the parameters nor `STATUS` nor the outputs. -/
theorem keptByWork_of_frame (P : Params → BitVec 4 → List Output → Prop) :
    KeptByWork fun s => P s.params s.status s.outputs :=
  ⟨fun _ _ => id, fun _ _ => id, fun _ _ => id, fun _ _ _ _ _ => id, fun _ _ _ _ _ _ _ _ _ => id, fun _ => id⟩

theorem keptByWork_params (p : Params) : KeptByWork fun s => s.params = p := keptByWork_of_frame fun q _ _ => q = p

/-- The induction over the micro-steps from index `i` on: one after the other they lead to the end of the command. -/
theorem runsTo_runFrom {cmd : Instr} {p : Params} {last : MicroStep} (hends : ∀ tmp s, (last tmp s).Ends) :
    ∀ (init : List MicroStep) (i : Nat) (tmp : List Byte) (s : State),
      (microSteps p cmd).drop i = init ++ [last] → s.params = p → s.seq = .busy cmd i tmp →
      ∃ n, 1 ≤ n ∧ n ≤ (init ++ [last]).length ∧ RunsTo cmd i n s (runFrom cmd (init ++ [last]) i tmp s) := by
  have step {i : Nat} {m : MicroStep} {ms : List MicroStep} {tmp : List Byte} {s : State}
      (hdrop : (microSteps p cmd).drop i = m :: ms) (hp : s.params = p) (hs : s.seq = .busy cmd i tmp) :
      microStep s = some (settle cmd i (m tmp s)) := by
    refine microStep_busy s cmd i tmp m hs ?_
    rw [hp, ← List.head?_drop, hdrop, List.head?_cons]
  intro init
  induction init with
  | nil =>
    intro i tmp s hdrop hp hs
    have hstep := step hdrop hp hs
    have hend := hends tmp s
    refine ⟨1, le_rfl, le_rfl, ?_⟩
    rw [List.nil_append, runFrom_singleton]
    refine runsTo_one hs hstep ?_
    cases h : last tmp s with
    | next tmp' u => rw [h] at hend; exact hend.elim
    | raise e u => rfl
    | respond r u => rfl
  | cons m ms ih =>
    intro i tmp s hdrop hp hs
    have hstep := step hdrop hp hs
    have hkeep : (m tmp s).state.params = p :=
      microSteps_keep (keptByWork_params p) p cmd (List.mem_of_mem_drop (by rw [hdrop]; exact List.mem_cons_self)) tmp hp
    rw [List.cons_append, runFrom_cons]
    generalize m tmp s = out at hstep hkeep ⊢
    cases out with
    | raise e u => exact ⟨1, le_rfl, by simp, runsTo_one hs hstep rfl⟩
    | respond r u => exact ⟨1, le_rfl, by simp, runsTo_one hs hstep rfl⟩
    | next tmp' u =>
      obtain ⟨n, -, hn, hrun⟩ := ih (i + 1) tmp' { u with seq := .busy cmd (i + 1) tmp' }
        (by rw [← List.drop_drop, hdrop]; rfl) hkeep rfl
      exact ⟨n + 1, by omega, by simpa using hn, hrun.cons hs hstep⟩

/-- R30, R221: from `Busy(cmd, 0)` at most 13 micro-steps lead to the state `exec` answers. -/
theorem exec_runsTo (i : Instr) (s : State) (hs : s.seq = .idle) :
    ∃ n t, 1 ≤ n ∧ n ≤ 13 ∧ RunsTo i 0 n (accept i s) t ∧ exec i s = .next t := by
  obtain ⟨init, last, hl, hends⟩ := microSteps_last s.params i
  obtain ⟨n, h1, hn, hrun⟩ := runsTo_runFrom hends init 0 [] (accept i s) hl rfl rfl
  rw [← hl] at hn hrun
  exact ⟨n, _, h1, hn.trans (microSteps_length_le _ _), hrun,
    by rw [exec_eq_run, runCommand_idle _ _ _ hs]⟩

/-- Settles O8, by `exec_runsTo`. -/
theorem commandIsItsSequenceOfMicroSteps : Obligations.CommandIsItsSequenceOfMicroSteps := by
  intro i s hs
  obtain ⟨n, t, h1, hn, ⟨run, h0, hrun, hidle, rfl⟩, hexec⟩ := exec_runsTo i s hs
  refine ⟨n, run, h1, hn, h0, fun k hk => ?_, hidle, hexec⟩
  obtain ⟨hk, tmp, hseq⟩ := hrun k hk
  exact ⟨hk, tmp, by rw [hseq, Nat.zero_add]⟩

end Sys2Proof.Machine
end

section
/-! PROOF. The step: everything it can do, what every step keeps, and that only a host's read of a register without a
value is recorded as a fault (R30, R32, R89, R180, R186). -/

namespace Sys2Proof.Machine

/-! ### The end of a command -/

/-- `t` is `u` after the end of a command: an error raised (R176) or a response (R88). -/
def CommandEnd (u t : State) : Prop := (∃ e, t = raiseError e u) ∨ ∃ p, t = respondOk p u

theorem CommandEnd.seq {u t : State} (h : CommandEnd u t) : t.seq = .idle := by
  rcases h with ⟨e, rfl⟩ | ⟨p, rfl⟩ <;> rfl

/-- R88, R176: one response, with the status of the command, and a payload where that is `OK` only. -/
theorem CommandEnd.outputs {u t : State} (h : CommandEnd u t) :
    ∃ p, t.outputs = .response t.status p :: u.outputs ∧ (t.status ≠ 0 → p = .none) := by
  rcases h with ⟨e, rfl⟩ | ⟨p, rfl⟩
  · exact ⟨.none, rfl, fun _ => rfl⟩
  · exact ⟨p, rfl, fun h => absurd rfl h⟩

/-- R170: the codes of `STATUS` are 0 to 7. -/
theorem CommandEnd.status_le {u t : State} (h : CommandEnd u t) : t.status.toNat ≤ 7 := by
  rcases h with ⟨e, rfl⟩ | ⟨p, rfl⟩
  · rw [raiseError_status]
    cases e <;> decide
  · exact (by decide : codeOk.toNat ≤ 7)

/-- A run of micro-steps up to a last one that ends the command: it ends in a state its micro-steps lead to. -/
theorem runFrom_ends {P : State → Prop} (hseq : ∀ s q, P s → P { s with seq := q }) {last : MicroStep}
    (hends : ∀ tmp s, (last tmp s).Ends) (cmd : Instr) :
    ∀ (init : List MicroStep) (i : Nat) (tmp : List Byte) (s : State),
      (∀ m ∈ init ++ [last], ∀ tmp u, P u → P (m tmp u).state) → P s →
      ∃ u, P u ∧ CommandEnd u (runFrom cmd (init ++ [last]) i tmp s) := by
  intro init
  induction init with
  | nil =>
    intro i tmp s hkeep hs
    have hP := hkeep last List.mem_cons_self tmp s hs
    have hend := hends tmp s
    rw [List.nil_append, runFrom_singleton]
    generalize last tmp s = out at hP hend ⊢
    cases out with
    | next tmp' u => exact hend.elim
    | raise e u => exact ⟨u, hP, .inl ⟨e, rfl⟩⟩
    | respond p u => exact ⟨u, hP, .inr ⟨p, rfl⟩⟩
  | cons m ms ih =>
    intro i tmp s hkeep hs
    have hP := hkeep m List.mem_cons_self tmp s hs
    rw [List.cons_append, runFrom_cons]
    generalize m tmp s = out at hP ⊢
    cases out with
    | next tmp' u => exact ih (i + 1) tmp' _ (fun m' h => hkeep m' (List.mem_cons_of_mem _ h)) (hseq _ _ hP)
    | raise e u => exact ⟨u, hP, .inl ⟨e, rfl⟩⟩
    | respond p u => exact ⟨u, hP, .inr ⟨p, rfl⟩⟩

/-- Every command an idle block takes ends, in a state its requests and commits lead to. -/
theorem exec_ends {P : State → Prop} (hP : KeptByWork P) (hseq : ∀ s q, P s → P { s with seq := q }) {i : Instr}
    {s t : State} (hs : s.seq = .idle) (h : exec i s = .next t) (hPs : P s) : ∃ u, P u ∧ CommandEnd u t := by
  obtain ⟨init, last, hl, hends⟩ := microSteps_last s.params i
  rw [exec_eq_run, runCommand_idle _ _ _ hs, hl] at h
  obtain rfl := Host.Outcome.next.inj h
  exact runFrom_ends hseq hends i init 0 [] _
    (fun m hm tmp u => microSteps_keep hP s.params i (hl ▸ hm) tmp) (hseq _ _ hPs)

/-! ### Everything a step can do -/

/-- The step of an idle block: it takes the event at the head of the host's list, if there is one. -/
inductive IdleMove (s t : State) : Prop where
  | nothing (es : List Event) : t = { s with events := es } → IdleMove s t
  | command (es : List Event) (i : Instr) : exec i { s with events := es } = .next t → IdleMove s t
  | issue (es : List Event) (i : Instr) : t = accept i { s with events := es } → IdleMove s t
  | illegal (es : List Event) : t = raiseError .illegalCommand { s with events := es } → IdleMove s t
  | read (es : List Event) (r : BlockReg) : s.events = .read r :: es → t = hostRead r { s with events := es } →
    IdleMove s t

/-- A step, by what makes it: the reset event, the sensor, the next micro-step, or the move of an idle block. -/
inductive StepMove (s t : State) : Prop where
  | reset (es : List Event) : t = resetEvent { s with events := es } → StepMove s t
  | sensor (es : List Event) (a : Addr) (v : Byte) : t = sensorChange a v { s with events := es } → StepMove s t
  | micro (es : List Event) (cmd : Instr) (i : Nat) (tmp : List Byte) (m : MicroStep) :
    s.seq = .busy cmd i tmp → (microSteps s.params cmd)[i]? = some m →
    t = settle cmd i (m tmp { s with events := es }) → StepMove s t
  | idle : s.seq = .idle → IdleMove s t → StepMove s t

/-- A word the host waits for ends as its command or as an illegal one (R89). -/
theorem runWord_cases (w : Word) (s : State) :
    (∃ i, decode w = .ok i ∧ runWord w s = exec i s) ∨
    ((∀ i, decode w ≠ .ok i) ∧ runWord w s = .next (raiseError .illegalCommand s)) := by
  unfold runWord
  cases decode w with
  | ok i => exact .inl ⟨i, rfl, rfl⟩
  | error e => exact .inr ⟨fun _ h => (by cases h), rfl⟩

/-- A word issued for its micro-steps is accepted or ends as an illegal one (R89). -/
theorem issueWord_cases (w : Word) (s : State) :
    (∃ i, decode w = .ok i ∧ issueWord w s = accept i s) ∨
    ((∀ i, decode w ≠ .ok i) ∧ issueWord w s = raiseError .illegalCommand s) := by
  unfold issueWord
  cases decode w with
  | ok i => exact .inl ⟨i, rfl, rfl⟩
  | error e => exact .inr ⟨fun _ h => (by cases h), rfl⟩

/-- R30: the micro-step of a busy block whose sequencer names one. -/
theorem microOutcome_of_some {s : State} {cmd : Instr} {i : Nat} {tmp : List Byte} {m : MicroStep}
    (hs : s.seq = .busy cmd i tmp) (hm : (microSteps s.params cmd)[i]? = some m) :
    microOutcome s = .next (settle cmd i (m tmp s)) := by
  rw [microOutcome, microStep_busy s cmd i tmp m hs hm]

theorem microOutcome_eq_next {s t : State} {cmd : Instr} {i : Nat} {tmp : List Byte} (hs : s.seq = .busy cmd i tmp)
    (h : microOutcome s = .next t) : ∃ m, (microSteps s.params cmd)[i]? = some m ∧ t = settle cmd i (m tmp s) := by
  cases hm : (microSteps s.params cmd)[i]? with
  | none =>
    simp only [microOutcome, microStep, hs, hm] at h
    cases h
  | some m =>
    rw [microOutcome_of_some hs hm] at h
    exact ⟨m, rfl, (Host.Outcome.next.inj h).symm⟩

theorem idleStep_move {s t : State} (hs : s.seq = .idle) (h : idleStep s = .next t) : StepMove s t := by
  unfold idleStep at h
  split at h
  case h_1 he =>
    obtain rfl := Host.Outcome.next.inj h
    exact .idle hs (.nothing s.events rfl)
  case h_2 w es he =>
    rcases runWord_cases w { s with events := es } with ⟨i, -, e⟩ | ⟨-, e⟩ <;> rw [e] at h
    · exact .idle hs (.command es i h)
    · exact .idle hs (.illegal es (Host.Outcome.next.inj h).symm)
  case h_3 w es he =>
    rcases issueWord_cases w { s with events := es } with ⟨i, -, e⟩ | ⟨-, e⟩ <;> rw [e] at h
    · exact .idle hs (.issue es i (Host.Outcome.next.inj h).symm)
    · exact .idle hs (.illegal es (Host.Outcome.next.inj h).symm)
  case h_4 es he => exact .idle hs (.nothing es (Host.Outcome.next.inj h).symm)
  case h_5 r es he => exact .idle hs (.read es r he (Host.Outcome.next.inj h).symm)
  case h_6 es he => exact .reset es (Host.Outcome.next.inj h).symm
  case h_7 a v es he => exact .sensor es a v (Host.Outcome.next.inj h).symm

theorem busyStep_move {s t : State} {cmd : Instr} {i : Nat} {tmp : List Byte} (hs : s.seq = .busy cmd i tmp)
    (h : busyStep s = .next t) : StepMove s t := by
  unfold busyStep at h
  split at h
  case h_1 es he => exact .reset es (Host.Outcome.next.inj h).symm
  case h_2 a v es he => exact .sensor es a v (Host.Outcome.next.inj h).symm
  case h_3 es he =>
    obtain ⟨m, hm, ht⟩ := microOutcome_eq_next (s := { s with events := es }) hs h
    exact .micro es cmd i tmp m hs hm ht
  case h_4 =>
    obtain ⟨m, hm, ht⟩ := microOutcome_eq_next hs h
    exact .micro s.events cmd i tmp m hs hm ht

/-- Everything a step can do. -/
theorem step_move {s t : State} (h : step s = .next t) : StepMove s t := by
  cases hs : s.seq with
  | idle => exact idleStep_move hs (step_idle s hs ▸ h)
  | busy cmd i tmp => exact busyStep_move hs (step_busy s cmd i tmp hs ▸ h)

/-! ### What every step keeps -/

/-- A predicate of the registers, the device and the records of the bus, which the port and the host's list are not part
of, and which a reset and the sensor keep too. -/
structure KeptByBlock (P : State → Prop) : Prop extends KeptByWork P where
  port (st : BitVec 4) (q : Seq) (os : List Output) (s : State) : P s → P (withPort st q os s)
  events (es : List Event) (s : State) : P s → P { s with events := es }
  reset (s : State) : P s → P (resetEvent s)
  sensor (a : Addr) (v : Byte) (s : State) : P s → P (sensorChange a v s)

section

variable {P : State → Prop} (hP : KeptByBlock P)
include hP

theorem commandEnd_keeps {u t : State} (h : CommandEnd u t) (hu : P u) : P t := by
  rcases h with ⟨e, rfl⟩ | ⟨p, rfl⟩ <;> exact hP.port _ _ _ u hu

theorem settle_keeps {m : Micro} (cmd : Instr) (i : Nat) (hm : P m.state) : P (settle cmd i m) := by
  cases m with
  | next tmp u => exact hP.port u.status _ u.outputs u hm
  | raise e u => exact hP.port _ _ _ u hm
  | respond p u => exact hP.port _ _ _ u hm

theorem exec_keeps {i : Instr} {s t : State} (hs : s.seq = .idle) (h : exec i s = .next t) (hPs : P s) : P t := by
  obtain ⟨u, hu, hend⟩ := exec_ends hP.toKeptByWork (fun s q => hP.port s.status q s.outputs s) hs h hPs
  exact commandEnd_keeps hP hend hu

/-- A read of the host changes no register (R32). -/
theorem hostRead_keeps (r : BlockReg) {s : State} (hs : P s) : P (hostRead r s) := by
  unfold hostRead
  split <;> exact hP.port s.status s.seq _ s hs

/-- The induction step of every invariant of the block: a step keeps what the block's operations keep. -/
theorem step_keeps {s t : State} (h : step s = .next t) (hs : P s) : P t := by
  have events (es) := hP.events es s hs
  cases step_move h with
  | reset es ht => exact ht ▸ hP.reset _ (events es)
  | sensor es a v ht => exact ht ▸ hP.sensor a v _ (events es)
  | micro es cmd i tmp m hseq hm ht =>
    exact ht ▸ settle_keeps hP cmd i
      (microSteps_keep hP.toKeptByWork s.params cmd (List.mem_of_getElem? hm) tmp (events es))
  | idle hseq hmove =>
    cases hmove with
    | nothing es ht => exact ht ▸ events es
    | command es i h => exact exec_keeps (s := { s with events := es }) hP hseq h (events es)
    | issue es i ht => exact ht ▸ hP.port s.status (.busy i 0 []) s.outputs _ (events es)
    | illegal es ht => exact ht ▸ hP.port _ _ _ _ (events es)
    | read es r he ht => exact ht ▸ hostRead_keeps hP r (events es)

end

/-! ### The sequencer (R30) -/

/-- The write of a verified write hands on no bytes. -/
theorem memWrite_next_nil {a : Addr} {v : Byte} {s u : State} {tmp : List Byte}
    (h : memWrite a v (fun s' => .next [] s') s = .next tmp u) : tmp = [] := by
  rcases memWrite_cases a v (fun s' => .next [] s') s with e | e <;> rw [e] at h <;> cases h
  rfl

/-- The read-back of a verified write hands on no bytes. -/
theorem verify_next_nil {a : Addr} {b : Byte} {s u : State} {tmp : List Byte}
    (h : memReadByte a (fun r s' => if r = b then .next [] s' else .raise .verificationFailed s') s = .next tmp u) :
    tmp = [] := by
  rcases memReadByte_cases a (fun r s' => if r = b then .next [] s' else .raise .verificationFailed s') s with
    e | ⟨r, -, e⟩ <;> rw [e] at h
  · cases h
  · split_ifs at h
    cases h
    rfl

/-- The burst hands on six bytes (R130). -/
theorem burstStep_next_length {p : Params} {tmp tmp' : List Byte} {s u : State}
    (h : burstStep p tmp s = .next tmp' u) : tmp'.length = 6 := by
  rcases memRead_cases p.dataBase 6 (fun bs s' => .next bs s') s with e | ⟨bs, hl, -, e⟩ <;>
    rw [burstStep, e] at h <;> cases h
  exact hl

/-- The temperature step of `ACQ` hands on no bytes. -/
theorem tempStep_next_nil {s u : State} {tmp : List Byte} (h : tempStep (fun _ _ s' => .next [] s') s = .next tmp u) :
    tmp = [] := by
  rcases tempStep_cases (fun _ _ s' => .next [] s') s with ⟨-, e⟩ | ⟨c, -, -, e⟩ | ⟨c, r, -, -, e⟩ <;>
    rw [e] at h <;> cases h
  rfl

/-- The read of a decoded read hands on its byte (R119, R120). -/
theorem readByte_next_length {a : Addr} {s u : State} {tmp : List Byte}
    (h : memReadByte a (fun b s' => .next [b] s') s = .next tmp u) : tmp.length = 1 := by
  rcases memReadByte_cases a (fun b s' => .next [b] s') s with e | ⟨b, -, e⟩ <;> rw [e] at h <;> cases h
  rfl

/-- R30: a micro-step hands on the bytes the next one expects. -/
theorem tmpLength_of_next {p : Params} {cmd : Instr} {i : Nat} {m : MicroStep} {tmp tmp' : List Byte} {s u : State}
    (hm : (microSteps p cmd)[i]? = some m) (hl : tmp.length = tmpLength cmd i) (h : m tmp s = .next tmp' u) :
    tmp'.length = tmpLength cmd (i + 1) := by
  have hlt := succ_lt_of_next hm h
  cases cmd with
  | ldcal =>
    have hi : i < 12 := Nat.lt_of_succ_lt_succ (by simpa [microSteps, ldcalSteps] using hlt)
    obtain rfl := Option.some.inj ((ldcal_read_at p i hi).symm.trans hm)
    rcases ldcalRead_cases p i tmp s with ⟨lo, hi, e⟩ | e <;> rw [e] at h <;> cases h
    simp [hl, tmpLength, Nat.mul_add]
  | apctl ot op m' =>
    obtain rfl : i = 0 := by simpa [microSteps, apctlSteps, writeVerify] using hlt
    obtain rfl := Option.some.inj hm
    rw [memWrite_next_nil h]
    rfl
  | apflt sb f w =>
    obtain rfl : i = 0 := by simpa [microSteps, apfltSteps, writeVerify] using hlt
    obtain rfl := Option.some.inj hm
    rw [memWrite_next_nil h]
    rfl
  | config ot op m' sb f w =>
    rw [microSteps, configSteps_eq] at hm hlt
    have hi : i < 3 := Nat.lt_of_succ_lt_succ (by simpa [writeVerify] using hlt)
    interval_cases i <;> obtain rfl := Option.some.inj hm
    · rw [memWrite_next_nil h]
      rfl
    · rw [verify_next_nil h]
      rfl
    · rw [memWrite_next_nil h]
      rfl
  | rdraw =>
    obtain rfl : i = 0 := by simpa [microSteps, rdrawSteps] using hlt
    obtain rfl := Option.some.inj hm
    exact burstStep_next_length h
  | acq =>
    have hi : i < 4 := Nat.lt_of_succ_lt_succ (by simpa [microSteps, acqSteps] using hlt)
    interval_cases i <;> obtain rfl := Option.some.inj hm
    · unfold acqCheck at h
      split at h <;> cases h
      rfl
    · exact burstStep_next_length h
    · unfold sampleStep at h
      split at h <;> cases h
      rfl
    · rw [tempStep_next_nil h]
      rfl
  | rdctl =>
    obtain rfl : i = 0 := by simpa [microSteps, rdctlSteps] using hlt
    obtain rfl := Option.some.inj hm
    exact readByte_next_length h
  | rdflt =>
    obtain rfl : i = 0 := by simpa [microSteps, rdfltSteps] using hlt
    obtain rfl := Option.some.inj hm
    exact readByte_next_length h
  | cmpt | cmpp | encctl ot op m' | encflt sb f w | decctl b | decflt b => exact absurd hlt (by simp [microSteps,
      cmptSteps, cmppSteps, encctlSteps, encfltSteps, decctlSteps, decfltSteps])

/-- A busy sequencer is well formed when it names a micro-step and holds the bytes read so far. -/
theorem seqOk_of_busy {s : State} {cmd : Instr} {i : Nat} {tmp : List Byte} (hs : s.seq = .busy cmd i tmp) :
    SeqOk s ↔ i < (microSteps s.params cmd).length ∧ tmp.length = tmpLength cmd i := by
  rw [SeqOk, hs]

theorem seqOk_of_idle {s : State} (hs : s.seq = .idle) : SeqOk s := by
  rw [SeqOk, hs]
  trivial

/-- R30: a command just accepted names its first micro-step, with no byte read. -/
theorem seqOk_accept (i : Instr) (s : State) : SeqOk (accept i s) := by
  obtain ⟨init, last, hl, -⟩ := microSteps_last s.params i
  refine (seqOk_of_busy (s := accept i s) rfl).mpr ⟨?_, ?_⟩
  · rw [accept_params, hl]
    simp
  · cases i <;> rfl

/-- R30: after a micro-step the sequencer is idle, or names the next micro-step with the bytes read so far. -/
theorem seqOk_settle {p : Params} {cmd : Instr} {i : Nat} {m : MicroStep} {tmp : List Byte} {s : State}
    (hm : (microSteps p cmd)[i]? = some m) (hp : s.params = p) (hl : tmp.length = tmpLength cmd i) :
    SeqOk (settle cmd i (m tmp s)) := by
  have hparams := microSteps_keep (keptByWork_params p) p cmd (List.mem_of_getElem? hm) tmp hp
  cases h : m tmp s with
  | next tmp' u =>
    rw [h] at hparams
    refine (seqOk_of_busy (s := settle cmd i (.next tmp' u)) rfl).mpr ⟨?_, tmpLength_of_next hm hl h⟩
    rw [settle_next, show u.params = p from hparams]
    exact succ_lt_of_next hm h
  | raise e u => exact seqOk_of_idle rfl
  | respond r u => exact seqOk_of_idle rfl

/-! ### The device register space and `STATUS` -/

/-- Every step keeps the canonical form of the device register space. -/
theorem keptByBlock_deviceWf : KeptByBlock fun s => s.device.wf = true where
  transport r s := wf_deviceAfter s.device r (nextAnswer s)
  commitCal _ _ := id
  commitRaw _ _ := id
  commitTemp _ _ _ _ _ := id
  commitPress _ _ _ _ _ _ _ _ _ := id
  dropPress _ := id
  port _ _ _ _ := id
  events _ _ := id
  reset _ := id
  sensor a v s := Memory.wf_store s.device a.toNat v (addr_lt a)

/-- No micro-step writes `STATUS` but by ending the command. -/
theorem keptByWork_status (st : BitVec 4) : KeptByWork fun s => s.status = st :=
  keptByWork_of_frame fun _ st' _ => st' = st

/-- R170: after a micro-step `STATUS` is the code it was, or that of the ending. -/
theorem settle_status_le {p : Params} {cmd : Instr} {i : Nat} {m : MicroStep} {tmp : List Byte} {s : State}
    (hm : (microSteps p cmd)[i]? = some m) (hs : s.status.toNat ≤ 7) :
    (settle cmd i (m tmp s)).status.toNat ≤ 7 := by
  have hstatus := microSteps_keep (keptByWork_status s.status) p cmd (List.mem_of_getElem? hm) tmp rfl
  generalize m tmp s = out at hstatus ⊢
  cases out with
  | next tmp' u => exact hstatus ▸ hs
  | raise e u => exact CommandEnd.status_le (u := u) (.inl ⟨e, rfl⟩)
  | respond r u => exact CommandEnd.status_le (u := u) (.inr ⟨r, rfl⟩)

/-- A read of the host changes the outputs only (R32). -/
theorem hostRead_eq (r : BlockReg) (s : State) :
    hostRead r s = { s with outputs := (hostRead r s).outputs } := by
  unfold hostRead
  split <;> rfl

/-- Settles O57: the device by `step_keeps`, the sequencer and `STATUS` move by move. -/
theorem everyStepKeepsTheMachineOk : Obligations.EveryStepKeepsTheMachineOk := by
  intro s t ⟨hseq, hstatus, hdevice⟩ h
  suffices SeqOk t ∧ t.status.toNat ≤ 7 from ⟨this.1, this.2, step_keeps keptByBlock_deviceWf h hdevice⟩
  cases step_move h with
  | reset es ht => exact ht ▸ ⟨seqOk_of_idle rfl, by simp⟩
  | sensor es a v ht => exact ht ▸ ⟨hseq, hstatus⟩
  | micro es cmd i tmp m hs hm ht =>
    obtain ⟨-, hl⟩ := (seqOk_of_busy hs).mp hseq
    exact ht ▸ ⟨seqOk_settle hm rfl hl, settle_status_le hm hstatus⟩
  | idle hs hmove =>
    cases hmove with
    | nothing es ht => exact ht ▸ ⟨hseq, hstatus⟩
    | command es i h =>
      obtain ⟨u, -, hend⟩ := exec_ends (s := { s with events := es }) (keptByWork_params _) (fun _ _ => id) hs h rfl
      exact ⟨seqOk_of_idle hend.seq, hend.status_le⟩
    | issue es i ht => exact ht ▸ ⟨seqOk_accept i _, hstatus⟩
    | illegal es ht => exact ht ▸ ⟨seqOk_of_idle rfl, by simp [errCode]⟩
    | read es r he ht =>
      rw [ht, hostRead_eq]
      exact ⟨hseq, hstatus⟩

/-! ### Every step goes on; the fault of the host -/

/-- A step of a state whose sequencer is well formed goes on: no command is refused and none faults. -/
theorem step_goes_on {s : State} (h : SeqOk s) : ∃ t, step s = .next t := by
  cases hs : s.seq with
  | idle =>
    rw [step_idle s hs]
    unfold idleStep
    split
    case h_2 w es he =>
      rcases runWord_cases w { s with events := es } with ⟨i, -, e⟩ | ⟨-, e⟩ <;> rw [e]
      · exact ⟨_, exec_eq_run _ _⟩
      · exact ⟨_, rfl⟩
    all_goals exact ⟨_, rfl⟩
  | busy cmd i tmp =>
    rw [step_busy s cmd i tmp hs]
    have hm := List.getElem?_eq_getElem ((seqOk_of_busy hs).mp h).1
    unfold busyStep
    split
    case h_1 | h_2 => exact ⟨_, rfl⟩
    case h_3 es he => exact ⟨_, microOutcome_of_some (s := { s with events := es }) hs hm⟩
    case h_4 => exact ⟨_, microOutcome_of_some hs hm⟩

/-- A micro-step records no fault of the host: it leaves the outputs as they were or adds a response. -/
theorem settle_outputs_ne_hostFault {p : Params} {cmd : Instr} {i : Nat} {m : MicroStep}
    (hm : (microSteps p cmd)[i]? = some m) (tmp : List Byte) (s : State) (r : BlockReg) :
    (settle cmd i (m tmp s)).outputs ≠ .hostFault r :: s.outputs := by
  have houtputs := microSteps_keep (keptByWork_of_frame fun _ _ os => os = s.outputs) p cmd
    (List.mem_of_getElem? hm) tmp rfl
  generalize m tmp s = out at houtputs ⊢
  cases out <;> simp_all [Micro.state]

/-- A read of the host records its fault exactly where the register holds no value (R32). -/
theorem hostRead_outputs_eq_hostFault_iff (r r' : BlockReg) (s : State) :
    (hostRead r s).outputs = .hostFault r' :: s.outputs ↔ regBits s r = none ∧ r = r' := by
  unfold hostRead
  split <;> rename_i h <;> simp [h]

/-- A step that records a fault of the host is its read of a register that holds no value. -/
theorem readsNoValue_of_hostFault {s t : State} {r : BlockReg} (h : step s = .next t)
    (ht : t.outputs = .hostFault r :: s.outputs) : ReadsNoValue s := by
  cases step_move h with
  | reset es e | sensor es a v e => simp [e] at ht
  | micro es cmd i tmp m hs hm e => exact absurd (e ▸ ht) (settle_outputs_ne_hostFault hm tmp _ r)
  | idle hs hmove =>
    cases hmove with
    | nothing es e | issue es i e | illegal es e => simp [e] at ht
    | command es i he =>
      obtain ⟨u, hu, hend⟩ := exec_ends (s := { s with events := es })
        (keptByWork_of_frame fun _ _ os => os = s.outputs) (fun _ _ => id) hs he rfl
      obtain ⟨p, hp, -⟩ := hend.outputs
      simp [hp] at ht
    | read es r' he e =>
      subst e
      exact ⟨hs, r', es, he,
        regBits_with_events s es r' ▸ ((hostRead_outputs_eq_hostFault_iff r' r { s with events := es }).mp ht).1⟩

/-- Settles O58: the step goes on by `step_goes_on`; it records the fault of the host's read, and of no other move. -/
theorem everyStepGoesOnAndOnlyAForbiddenReadIsAHostFault :
    Obligations.EveryStepGoesOnAndOnlyAForbiddenReadIsAHostFault := by
  intro s hok
  obtain ⟨t, h⟩ := step_goes_on hok.seq
  refine ⟨t, h, ?_, fun ⟨r, ht⟩ => readsNoValue_of_hostFault h ht⟩
  rintro ⟨hs, r, es, he, hnone⟩
  obtain rfl := Host.Outcome.next.inj (h.symm.trans (step_read hs he))
  exact ⟨r, (hostRead_outputs_eq_hostFault_iff r r { s with events := es }).mpr
    ⟨(regBits_with_events s es r).trans hnone, rfl⟩⟩

/-! ### The steps one by one -/

/-- R7, R89: the step of an idle block whose host issues a word and waits. -/
theorem step_command {s : State} {w : Word} {es : List Event} (hs : s.seq = .idle) (he : s.events = .command w :: es) :
    step s = runWord w { s with events := es } := by
  rw [step_idle s hs, idleStep, he]

/-- R30, R89: the step of an idle block whose host issues a word for its micro-steps. -/
theorem step_issue {s : State} {w : Word} {es : List Event} (hs : s.seq = .idle) (he : s.events = .issue w :: es) :
    step s = .next (issueWord w { s with events := es }) := by
  rw [step_idle s hs, idleStep, he]

/-- Settles O5: a word that decodes runs as its command, or is accepted for its micro-steps. -/
theorem stepRunsTheDecodedCommand : Obligations.StepRunsTheDecodedCommand := by
  refine fun s w i es hs hw => ⟨fun he => ?_, fun he => ?_⟩
  · rw [step_command hs he, runWord, hw]
  · rw [step_issue hs he, issueWord, hw]
    rfl

/-- R89: a word that is not legal decodes to no command. -/
theorem decode_ne_ok_of_illegal {w : Word} (h : ¬ LegalWord w) (i : Instr) : decode w ≠ .ok i :=
  fun hi => h ((decoderAcceptsExactlyTheLegalWords w).mp ⟨i, hi⟩)

/-- Settles O6: an illegal word raises `IllegalCommand` in the step that takes it, in both ways of issuing it. -/
theorem illegalWordChangesOnlyStatus : Obligations.IllegalWordChangesOnlyStatus := by
  intro s w es hs hw he
  have hidle : ({ s with events := es } : State).seq = .idle := hs
  have hend : raiseError .illegalCommand { s with events := es } =
      { s with events := es, status := 6, outputs := .response 6 .none :: s.outputs } := raiseError_of_idle hidle _
  rcases he with he | he
  · rw [step_command hs he, ← hend]
    rcases runWord_cases w { s with events := es } with ⟨i, hi, -⟩ | ⟨-, e⟩
    · exact absurd hi (decode_ne_ok_of_illegal hw i)
    · exact e
  · rw [step_issue hs he, ← hend]
    rcases issueWord_cases w { s with events := es } with ⟨i, hi, -⟩ | ⟨-, e⟩
    · exact absurd hi (decode_ne_ok_of_illegal hw i)
    · exact congrArg _ e

/-- Settles O7: a busy step is the micro-step whatever the host has ready, or after a step that passes. -/
theorem busyStepIsOneMicroStep : Obligations.BusyStepIsOneMicroStep := by
  refine fun s cmd i tmp m w r es hs hm => ⟨fun he => ?_, fun he => ?_⟩
  · rw [step_busy s cmd i tmp hs, busyStep]
    rcases he with he | he | he | he <;> rw [he] <;> exact microOutcome_of_some hs hm
  · rw [step_busy s cmd i tmp hs, busyStep, he]
    exact microOutcome_of_some (s := { s with events := es }) hs hm

/-- Settles O9: `exec` runs a command from an idle sequencer only. -/
theorem busyBlockAcceptsNoCommand : Obligations.BusyBlockAcceptsNoCommand := by
  intro i s cmd k tmp hs
  rw [exec_eq_run, runCommand_busy _ _ _ _ _ _ hs]

/-- Settles O59: an idle block moves by an event of the host's list only. -/
theorem idleBlockDoesNothingByItself : Obligations.IdleBlockDoesNothingByItself := by
  refine fun s es hs => ⟨fun he => ?_, fun he => ?_⟩ <;> rw [step_idle s hs, idleStep, he]

/-- Settles O50, by the definition of the state after reset. -/
theorem resetLeavesNoValue : Obligations.ResetLeavesNoValue := ⟨rfl, rfl, rfl, rfl, rfl, rfl, rfl⟩

/-- Settles O55: after reset no register holds a value, the sequencer is idle and no device byte is known. -/
theorem invariantsHoldAtReset : Obligations.InvariantsHoldAtReset :=
  ⟨⟨⟨nofun, nofun, nofun⟩, nofun, nofun, nofun⟩, seqOk_of_idle rfl, by decide, by decide⟩

/-- Settles O10: the end of the command by `exec_ends`, its requests by its row of R54. -/
theorem everyCommandEndsWithOneResponse : Obligations.EveryCommandEndsWithOneResponse := by
  intro i s hs
  obtain ⟨u, hu, hend⟩ := exec_ends (keptByWork_of_frame fun _ _ os => os = s.outputs) (fun _ _ => id) hs
    (exec_eq_run i s) rfl
  obtain ⟨p, hp, hnone⟩ := hend.outputs
  obtain ⟨es, -, hdraws, hprefix, -⟩ := exec_followsRow i s _ hs (exec_eq_run i s)
  have hrow : (requestsOf s.params i).length ≤ 12 := by
    cases i with
    | config ot op m sb f w =>
      rw [requestsOf_config]
      exact (by decide : 4 ≤ 12)
    | _ => simp [requestsOf]
  have hes : es.length ≤ (requestsOf s.params i).length := by simpa using hprefix.length_le
  exact ⟨_, exec_eq_run i s, hend.seq, ⟨p, by rw [hp, hu], hnone⟩, by omega, by omega⟩

end Sys2Proof.Machine
end

section
/-! PROOF. What a command leaves and what it ends with, in one table (`Ending`), and with it the statuses of R179, the
requests of R220, the registers of R27 and the device bytes a command changes. -/

namespace Sys2Proof.Machine

/-! ### Requests change the records of the bus and the bytes they write -/

/-- `u` is `s` after `n` requests of the row `qs` of R54: nothing of the block changed, and of the device no byte but
those a write of the row addresses (log entry 25). -/
structure AfterRequests (qs : List Request) (n : Nat) (s u : State) : Prop where
  frame : u = { s with device := u.device, answers := u.answers, draws := s.draws + n, trace := u.trace }
  device (a : Nat) : (∀ ad v, .writeByte ad v ∈ qs → ad.toNat ≠ a) → u.device.byteAt a = s.device.byteAt a

theorem afterRequests_zero (qs : List Request) (s : State) : AfterRequests qs 0 s s := ⟨rfl, fun _ _ => rfl⟩

theorem AfterRequests.transport {qs : List Request} {n : Nat} {s u : State} (h : AfterRequests qs n s u) {r : Request}
    (hr : r ∈ qs) : AfterRequests qs (n + 1) s (transport r u).2 := by
  obtain ⟨hframe, hdevice⟩ := h
  refine ⟨?_, fun a ha => ?_⟩
  · rw [transport_snd, hframe, Nat.add_assoc]
  · rw [← hdevice a ha, transport_device]
    cases r with
    | readByte ad => rfl
    | readBlock ad k => rfl
    | writeByte ad v => exact byteAt_deviceAfter_write _ _ _ _ _ (ha ad v hr).symm

/-- The two requests of a verified write (R118). -/
theorem AfterRequests.afterVerify {qs : List Request} {n : Nat} {s u : State} (h : AfterRequests qs n s u) {a : Addr}
    {b : Byte} (hr : verifyRequests a b ⊆ qs) : AfterRequests qs (n + 2) s (afterVerify a b u) :=
  (h.transport (r := .writeByte a b) (hr (by simp [verifyRequests]))).transport (hr (by simp [verifyRequests]))

/-- The reads of `LDCAL` (R102). -/
theorem afterRequests_readsFrom {qs : List Request} (p : Params) (n j : Nat) (s : State) :
    AfterRequests qs n s (readsFrom p j n s) := by
  obtain ⟨es, h, -⟩ := readsFrom_frame p n j s
  rw [h]
  exact ⟨rfl, fun _ _ => rfl⟩

/-! ### The endings of a command -/

/-- Every ending of a command: the number of its requests, the registers it writes in the state `u` after them, and the
error it raises or its response. -/
def Ending (i : Instr) (n : Nat) (u t : State) : Prop :=
  match i with
  | .ldcal => (1 ≤ n ∧ n ≤ 12 ∧ t = raiseError .transportError u) ∨
      ∃ c, n = 12 ∧ t = respondOk (.coefficients c) (commitCal c u)
  | .apctl _ _ _ | .apflt _ _ _ =>
      (∃ e ∈ [Err.transportError, .verificationFailed], (n = 1 ∨ n = 2) ∧ t = raiseError e u) ∨
      (n = 2 ∧ t = respondOk .none u)
  | .config _ _ _ _ _ _ =>
      (∃ e ∈ [Err.transportError, .verificationFailed], 1 ≤ n ∧ n ≤ 4 ∧ t = raiseError e u) ∨
      (n = 4 ∧ t = respondOk .none u)
  | .rdraw => n = 1 ∧ (t = raiseError .transportError u ∨ ∃ r p, t = respondOk p (commitRaw r u))
  | .cmpt => n = 0 ∧ ((∃ e ∈ [Err.calibrationMissing, .operandMissing], t = raiseError e u) ∨
      ∃ tc tf p, t = respondOk p (commitTemp tc tf u))
  | .cmpp => n = 0 ∧ ((∃ e ∈ [Err.calibrationMissing, .operandMissing], t = raiseError e u) ∨
      t = raiseError .arithmeticError (dropPress u) ∨ ∃ x p, t = respondOk p (commitPress x u))
  | .acq => (n = 0 ∧ t = raiseError .calibrationMissing u) ∨ n = 1 ∧ (t = raiseError .transportError u ∨
      ∃ c r, t = raiseError .arithmeticError (dropPress (afterSample c r u)) ∨
        ∃ x p, t = respondOk p (commitPress x (afterSample c r u)))
  | .encctl _ _ _ | .encflt _ _ _ => n = 0 ∧ ∃ p, t = respondOk p u
  | .decctl _ | .decflt _ => n = 0 ∧ (t = raiseError .reservedCode u ∨ ∃ p, t = respondOk p u)
  | .rdctl | .rdflt => n = 1 ∧
      ((∃ e ∈ [Err.transportError, .reservedCode], t = raiseError e u) ∨ ∃ p, t = respondOk p u)

/-- The endings of one verified write, after the `k` requests before it. -/
theorem verifiedWrite_ending {qs : List Request} {k : Nat} {a : Addr} {b : Byte} {s v t : State}
    (h : AfterRequests qs k s v) (hqs : verifyRequests a b ⊆ qs)
    (ht : t = raiseError .transportError (transport (.writeByte a b) v).2 ∨
      t = raiseError .transportError (afterVerify a b v) ∨
      t = raiseError .verificationFailed (afterVerify a b v) ∨
      t = respondOk .none (afterVerify a b v)) :
    ∃ n u, AfterRequests qs n s u ∧
      ((∃ e ∈ [Err.transportError, .verificationFailed], (n = k + 1 ∨ n = k + 2) ∧ t = raiseError e u) ∨
        (n = k + 2 ∧ t = respondOk .none u)) := by
  have write := h.transport (r := .writeByte a b) (hqs (by simp [verifyRequests]))
  have verify := h.afterVerify hqs
  rcases ht with rfl | rfl | rfl | rfl
  · exact ⟨_, _, write, .inl ⟨_, by simp, .inl rfl, rfl⟩⟩
  · exact ⟨_, _, verify, .inl ⟨_, by simp, .inr rfl, rfl⟩⟩
  · exact ⟨_, _, verify, .inl ⟨_, by simp, .inr rfl, rfl⟩⟩
  · exact ⟨_, _, verify, .inr ⟨rfl, rfl⟩⟩

/-- The endings of `CONFIG`: those of its first verified write but `OK`, or those of its second (R117). -/
theorem exec_config_ending (ot op : Osrs) (m : Mode) (sb : Standby) (f : Filter) (w : Bool) {s t : State}
    (hs : s.seq = .idle) (ht : exec (.config ot op m sb f w) s = .next t) :
    ∃ n u, AfterRequests (requestsOf s.params (.config ot op m sb f w)) n s u ∧
      Ending (.config ot op m sb f w) n u t := by
  rw [requestsOf_config]
  obtain ⟨t', e, hu⟩ := exec_config_cases ot op m sb f w s hs
  obtain rfl := exec_next_unique ht e
  generalize configWrites s.params ot op m sb f w = c at hu ⊢
  have zero := afterRequests_zero (verifyRequests c.1.1 c.1.2 ++ verifyRequests c.2.1 c.2.2) s
  have first : ∀ {e : Err}, e ∈ [Err.transportError, .verificationFailed] →
      t = raiseError e (afterVerify c.1.1 c.1.2 s) →
      ∃ n u, AfterRequests _ n s u ∧ Ending (.config ot op m sb f w) n u t := fun he ht =>
    ⟨_, _, zero.afterVerify (List.subset_append_left _ _), .inl ⟨_, he, by omega, by omega, ht⟩⟩
  rcases hu with h | h | h | h
  · exact ⟨_, _, zero.transport (r := .writeByte c.1.1 c.1.2) (by simp [verifyRequests]),
      .inl ⟨_, List.mem_cons_self, le_rfl, by omega, h⟩⟩
  · exact first (by simp) h
  · exact first (by simp) h
  · obtain ⟨n, u, hn, ⟨e, he, hne, h⟩ | ⟨rfl, h⟩⟩ := verifiedWrite_ending
      (zero.afterVerify (List.subset_append_left _ _)) (List.subset_append_right _ _) h
    · exact ⟨n, u, hn, .inl ⟨e, he, by omega, by omega, h⟩⟩
    · exact ⟨_, u, hn, .inr ⟨rfl, h⟩⟩

/-- The endings of every command. -/
theorem exec_ending (i : Instr) {s t : State} (hs : s.seq = .idle) (ht : exec i s = .next t) :
    ∃ n u, AfterRequests (requestsOf s.params i) n s u ∧ Ending i n u t := by
  have zero := afterRequests_zero (requestsOf s.params i) s
  cases i with
  | ldcal =>
    rcases exec_ldcal_cases s hs with ⟨k, hk, e⟩ | ⟨c, e⟩ <;> obtain rfl := exec_next_unique ht e
    · exact ⟨k + 1, _, afterRequests_readsFrom _ _ _ _, .inl ⟨by omega, by omega, rfl⟩⟩
    · exact ⟨12, _, afterRequests_readsFrom _ _ _ _, .inr ⟨c, rfl, rfl⟩⟩
  | apctl ot op m =>
    obtain ⟨t', e, hu⟩ := exec_apctl_cases ot op m s hs
    obtain rfl := exec_next_unique ht e
    exact verifiedWrite_ending zero (List.Subset.refl _) hu
  | apflt sb f w =>
    obtain ⟨t', e, hu⟩ := exec_apflt_cases sb f w s hs
    obtain rfl := exec_next_unique ht e
    exact verifiedWrite_ending zero (List.Subset.refl _) hu
  | config ot op m sb f w => exact exec_config_ending ot op m sb f w hs ht
  | rdraw =>
    refine ⟨1, _, zero.transport List.mem_cons_self, rfl, ?_⟩
    rcases exec_rdraw_cases s hs with e | ⟨bs, r, -, -, e⟩ <;> obtain rfl := exec_next_unique ht e
    · exact .inl rfl
    · exact .inr ⟨r, _, rfl⟩
  | cmpt =>
    refine ⟨0, s, zero, rfl, ?_⟩
    rcases exec_cmpt_cases s hs with ⟨-, e⟩ | ⟨c, -, -, e⟩ | ⟨c, r, -, -, e⟩ <;> obtain rfl := exec_next_unique ht e
    · exact .inl ⟨_, by simp, rfl⟩
    · exact .inl ⟨_, by simp, rfl⟩
    · exact .inr ⟨_, _, _, rfl⟩
  | cmpp =>
    refine ⟨0, s, zero, rfl, ?_⟩
    rcases exec_cmpp_cases s hs with ⟨-, e⟩ | ⟨c, -, -, e⟩ | ⟨c, r, tf, -, -, -, ⟨-, e⟩ | ⟨x, -, e⟩⟩ <;>
      obtain rfl := exec_next_unique ht e
    · exact .inl ⟨_, by simp, rfl⟩
    · exact .inl ⟨_, by simp, rfl⟩
    · exact .inr (.inl rfl)
    · exact .inr (.inr ⟨x, _, rfl⟩)
  | acq =>
    have burst := zero.transport (r := .readBlock s.params.dataBase 6) List.mem_cons_self
    rcases exec_acq_cases s hs with ⟨-, e⟩ | ⟨c, -, e | ⟨bs, r, -, -, ⟨-, e⟩ | ⟨x, -, e⟩⟩⟩ <;>
      obtain rfl := exec_next_unique ht e
    · exact ⟨0, s, zero, .inl ⟨rfl, rfl⟩⟩
    · exact ⟨1, _, burst, .inr ⟨rfl, .inl rfl⟩⟩
    · exact ⟨1, _, burst, .inr ⟨rfl, .inr ⟨c, r, .inl rfl⟩⟩⟩
    · exact ⟨1, _, burst, .inr ⟨rfl, .inr ⟨c, r, .inr ⟨x, _, rfl⟩⟩⟩⟩
  | encctl ot op m => exact ⟨0, s, zero, rfl, _, exec_next_unique ht (exec_encctl ot op m s hs)⟩
  | encflt sb f w => exact ⟨0, s, zero, rfl, _, exec_next_unique ht (exec_encflt sb f w s hs)⟩
  | decctl b =>
    refine ⟨0, s, zero, rfl, ?_⟩
    rcases exec_decctl_cases b s hs with ⟨ot, op, m, -, e⟩ | ⟨-, e⟩ <;> obtain rfl := exec_next_unique ht e
    · exact .inr ⟨_, rfl⟩
    · exact .inl rfl
  | decflt b =>
    refine ⟨0, s, zero, rfl, ?_⟩
    rcases exec_decflt_cases b s hs with ⟨sb, f, w, -, e⟩ | ⟨-, e⟩ <;> obtain rfl := exec_next_unique ht e
    · exact .inr ⟨_, rfl⟩
    · exact .inl rfl
  | rdctl =>
    refine ⟨1, _, zero.transport List.mem_cons_self, rfl, ?_⟩
    rcases exec_rdctl_cases s hs with e | ⟨b, -, ⟨ot, op, m, -, e⟩ | ⟨-, e⟩⟩ <;> obtain rfl := exec_next_unique ht e
    · exact .inl ⟨_, by simp, rfl⟩
    · exact .inr ⟨_, rfl⟩
    · exact .inl ⟨_, by simp, rfl⟩
  | rdflt =>
    refine ⟨1, _, zero.transport List.mem_cons_self, rfl, ?_⟩
    rcases exec_rdflt_cases s hs with e | ⟨b, -, ⟨sb, f, w, -, e⟩ | ⟨-, e⟩⟩ <;> obtain rfl := exec_next_unique ht e
    · exact .inl ⟨_, by simp, rfl⟩
    · exact .inr ⟨_, rfl⟩
    · exact .inl ⟨_, by simp, rfl⟩

/-! ### The requests (R220) and the device bytes -/

theorem AfterRequests.draws_sub {qs : List Request} {n : Nat} {s u : State} (h : AfterRequests qs n s u) :
    u.draws - s.draws = n := by
  rw [h.frame]
  exact Nat.add_sub_cancel_left _ _

/-- The end of a command changes no register but `STATUS`, issues no request and stores nothing. -/
theorem CommandEnd.frame {u t : State} (h : CommandEnd u t) :
    t = { u with status := t.status, seq := .idle, outputs := t.outputs } := by
  rcases h with ⟨e, rfl⟩ | ⟨p, rfl⟩ <;> rfl

/-- Settles O13, by the number of requests in each ending. -/
theorem requestCounts : Obligations.RequestCounts := by
  intro i s t hs ht n
  obtain ⟨k, u, hreq, hend⟩ := exec_ending i hs ht
  have hk := hreq.draws_sub
  cases i with
  | ldcal =>
    rcases hend with ⟨h1, h12, rfl⟩ | ⟨c, rfl, rfl⟩
    · simpa [errCode, n, hk] using And.intro h1 h12
    · simpa [codeOk, n] using hk
  | apctl ot op m | apflt sb f w =>
    rcases hend with ⟨e, -, hn, rfl⟩ | ⟨rfl, rfl⟩
    · simpa [show errCode e ≠ 0#4 from errCode_ne_zero e, n, hk] using hn
    · simpa [codeOk, n] using hk
  | config ot op m sb f w =>
    rcases hend with ⟨e, -, h1, h4, rfl⟩ | ⟨rfl, rfl⟩
    · simpa [show errCode e ≠ 0#4 from errCode_ne_zero e, n, hk] using And.intro h1 h4
    · simpa [codeOk, n] using hk
  | rdraw => obtain ⟨rfl, rfl | ⟨r, p, rfl⟩⟩ := hend <;> exact hk
  | cmpt => obtain ⟨rfl, ⟨e, -, rfl⟩ | ⟨tc, tf, p, rfl⟩⟩ := hend <;> exact hk
  | cmpp => obtain ⟨rfl, ⟨e, -, rfl⟩ | rfl | ⟨x, p, rfl⟩⟩ := hend <;> exact hk
  | acq =>
    rcases hend with ⟨rfl, rfl⟩ | ⟨rfl, rfl | ⟨c, r, rfl | ⟨x, p, rfl⟩⟩⟩ <;>
      simpa [errCode, codeOk, afterSample, n] using hk
  | encctl ot op m | encflt sb f w => obtain ⟨rfl, p, rfl⟩ := hend; exact hk
  | decctl b | decflt b => obtain ⟨rfl, rfl | ⟨p, rfl⟩⟩ := hend <;> exact hk
  | rdctl | rdflt => obtain ⟨rfl, ⟨e, -, rfl⟩ | ⟨p, rfl⟩⟩ := hend <;> exact hk

/-- No ending of a command stores a byte: its requests have done so before. -/
theorem Ending.device {i : Instr} {n : Nat} {u t : State} (h : Ending i n u t) : t.device = u.device := by
  cases i with
  | ldcal => rcases h with ⟨-, -, rfl⟩ | ⟨c, -, rfl⟩ <;> rfl
  | apctl ot op m | apflt sb f w => rcases h with ⟨e, -, -, rfl⟩ | ⟨-, rfl⟩ <;> rfl
  | config ot op m sb f w => rcases h with ⟨e, -, -, -, rfl⟩ | ⟨-, rfl⟩ <;> rfl
  | rdraw => obtain ⟨-, rfl | ⟨r, p, rfl⟩⟩ := h <;> rfl
  | cmpt => obtain ⟨-, ⟨e, -, rfl⟩ | ⟨tc, tf, p, rfl⟩⟩ := h <;> rfl
  | cmpp => obtain ⟨-, ⟨e, -, rfl⟩ | rfl | ⟨x, p, rfl⟩⟩ := h <;> rfl
  | acq => rcases h with ⟨-, rfl⟩ | ⟨-, rfl | ⟨c, r, rfl | ⟨x, p, rfl⟩⟩⟩ <;> rfl
  | encctl ot op m | encflt sb f w => obtain ⟨-, p, rfl⟩ := h; rfl
  | decctl b | decflt b => obtain ⟨-, rfl | ⟨p, rfl⟩⟩ := h <;> rfl
  | rdctl | rdflt => obtain ⟨-, ⟨e, -, rfl⟩ | ⟨p, rfl⟩⟩ := h <;> rfl

/-- Settles O16: the requests of a command store where its row of R54 writes, and its ending stores nothing. -/
theorem commandsStoreOnlyWhereTheyWrite : Obligations.CommandsStoreOnlyWhereTheyWrite := by
  intro i s t hs ht a ha
  obtain ⟨n, u, hreq, hend⟩ := exec_ending i hs ht
  rw [hend.device]
  exact hreq.device a fun ad v hr had => ha ⟨_, hr, ad, v, rfl, had⟩

/-! ### The registers (R27) -/

/-- Settles O15, by the registers each ending writes. -/
theorem commandsWriteOnlyTheirRegisters : Obligations.CommandsWriteOnlyTheirRegisters := by
  intro i s t hs ht
  obtain ⟨n, u, ⟨hframe, -⟩, hend⟩ := exec_ending i hs ht
  rw [hframe] at hend
  cases i with
  | ldcal => rcases hend with ⟨-, -, rfl⟩ | ⟨c, -, rfl⟩ <;> simp
  | apctl ot op m | apflt sb f w => rcases hend with ⟨e, -, -, rfl⟩ | ⟨-, rfl⟩ <;> simp
  | config ot op m sb f w => rcases hend with ⟨e, -, -, -, rfl⟩ | ⟨-, rfl⟩ <;> simp
  | rdraw => obtain ⟨-, rfl | ⟨r, p, rfl⟩⟩ := hend <;> simp
  | cmpt => obtain ⟨-, ⟨e, -, rfl⟩ | ⟨tc, tf, p, rfl⟩⟩ := hend <;> simp
  | cmpp => obtain ⟨-, ⟨e, -, rfl⟩ | rfl | ⟨x, p, rfl⟩⟩ := hend <;> simp
  | acq => rcases hend with ⟨-, rfl⟩ | ⟨-, rfl | ⟨c, r, rfl | ⟨x, p, rfl⟩⟩⟩ <;> simp [afterSample]
  | encctl ot op m | encflt sb f w => obtain ⟨-, p, rfl⟩ := hend; simp
  | decctl b | decflt b => obtain ⟨-, rfl | ⟨p, rfl⟩⟩ := hend <;> simp
  | rdctl | rdflt => obtain ⟨-, ⟨e, -, rfl⟩ | ⟨p, rfl⟩⟩ := hend <;> simp

/-! ### The statuses (R179) -/

/-- R179: a command ends only with the statuses of its row. -/
theorem Ending.status_mem {i : Instr} {n : Nat} {u t : State} (h : Ending i n u t) : t.status ∈ statusesOf i := by
  cases i with
  | ldcal => rcases h with ⟨-, -, rfl⟩ | ⟨c, -, rfl⟩ <;> simp [statusesOf, errCode, codeOk]
  | apctl ot op m | apflt sb f w =>
    rcases h with ⟨e, he, -, rfl⟩ | ⟨-, rfl⟩
    · rcases List.mem_pair.mp he with rfl | rfl <;> simp [statusesOf, errCode]
    · simp [statusesOf, codeOk]
  | config ot op m sb f w =>
    rcases h with ⟨e, he, -, -, rfl⟩ | ⟨-, rfl⟩
    · rcases List.mem_pair.mp he with rfl | rfl <;> simp [statusesOf, errCode]
    · simp [statusesOf, codeOk]
  | rdraw => obtain ⟨-, rfl | ⟨r, p, rfl⟩⟩ := h <;> simp [statusesOf, errCode, codeOk]
  | cmpt =>
    obtain ⟨-, ⟨e, he, rfl⟩ | ⟨tc, tf, p, rfl⟩⟩ := h
    · rcases List.mem_pair.mp he with rfl | rfl <;> simp [statusesOf, errCode]
    · simp [statusesOf, codeOk]
  | cmpp =>
    obtain ⟨-, ⟨e, he, rfl⟩ | rfl | ⟨x, p, rfl⟩⟩ := h
    · rcases List.mem_pair.mp he with rfl | rfl <;> simp [statusesOf, errCode]
    · simp [statusesOf, errCode]
    · simp [statusesOf, codeOk]
  | acq =>
    rcases h with ⟨-, rfl⟩ | ⟨-, rfl | ⟨c, r, rfl | ⟨x, p, rfl⟩⟩⟩ <;> simp [statusesOf, errCode, codeOk]
  | encctl ot op m | encflt sb f w => obtain ⟨-, p, rfl⟩ := h; simp [statusesOf, codeOk]
  | decctl b | decflt b => obtain ⟨-, rfl | ⟨p, rfl⟩⟩ := h <;> simp [statusesOf, errCode, codeOk]
  | rdctl | rdflt =>
    obtain ⟨-, ⟨e, he, rfl⟩ | ⟨p, rfl⟩⟩ := h
    · rcases List.mem_pair.mp he with rfl | rfl <;> simp [statusesOf, errCode]
    · simp [statusesOf, codeOk]

/-- Some command with the opcode of `i` ends with status `c` from some idle block. -/
def Attains (i : Instr) (c : BitVec 4) : Prop :=
  ∃ (j : Instr) (s t : State), j.opcode = i.opcode ∧ s.seq = .idle ∧ exec j s = .next t ∧ t.status = c

/-- A command attains a status by a run that ends with it. -/
theorem attains_of_run {i : Instr} {c : BitVec 4} (j : Instr) (s : State) (hj : j.opcode = i.opcode)
    (hs : s.seq = .idle) (hc : (runCommand j (microSteps s.params j) s).status = c) : Attains i c :=
  ⟨j, s, _, hj, hs, exec_eq_run j s, hc⟩

/-- The state after reset with the answers of the transport to come. -/
def answered (as : List Answer) : State := { State.reset with answers := as }

/-- A set of coefficients that are all zero but `P1`, which decides whether `comp_P` has a value (R147). -/
def calOfP1 (p1 : Pattern) : Cal := ⟨0, 0, 0, p1, 0, 0, 0, 0, 0, 0, 0, 0⟩

/-- A block with such a set, and the answers of the transport to come. -/
def calibrated (p1 : Pattern) (as : List Answer) : State := { answered as with cal := some (calOfP1 p1) }

/-- A block with such a set, a sample and a fine temperature of zero. -/
def measured (p1 : Pattern) : State := { calibrated p1 [] with raw := some ⟨0, 0⟩, tFine := some 0 }

/-- The burst of a zero sample. -/
def zeroBurst : Answer := .ok [0, 0, 0, 0, 0, 0]

/-- R147: with `P1` zero the pressure of a zero sample is an arithmetic error. -/
theorem compP_zero_none : compP 0 0 (calOfP1 0) = none := by decide +kernel

/-- With `P1` one the pressure of a zero sample has a value. -/
theorem compP_zero_some : ∃ x, compP 0 0 (calOfP1 1) = some x :=
  Option.isSome_iff_exists.mp (by decide +kernel)

/-- The fine temperature of a zero sample is a zero. -/
theorem compT_zero : (compT 0 0 0 0).2 = 0 := by decide +kernel

/-- R142, R145: `CMPP` ends with each status of its row. -/
theorem attains_cmpp : ∀ c ∈ statusesOf .cmpp, Attains .cmpp c := by
  obtain ⟨x, hx⟩ := compP_zero_some
  refine List.forall_iff_forall_mem.mp ⟨?_, ?_, ?_, ?_⟩
  · obtain ⟨-, hok, -⟩ := cmppComputesThePressure (measured 1) (calOfP1 1) ⟨0, 0⟩ 0 rfl
    exact ⟨.cmpp, measured 1, _, rfl, rfl, hok x rfl rfl rfl hx, rfl⟩
  · obtain ⟨-, -, herr, -⟩ := cmppComputesThePressure (measured 0) (calOfP1 0) ⟨0, 0⟩ 0 rfl
    exact ⟨.cmpp, measured 0, _, rfl, rfl, herr rfl rfl rfl compP_zero_none, rfl⟩
  · exact attains_of_run .cmpp (answered []) rfl rfl rfl
  · exact attains_of_run .cmpp (calibrated 0 []) rfl rfl rfl

/-- R160: `ACQ` ends with each status of its row. -/
theorem attains_acq : ∀ c ∈ statusesOf .acq, Attains .acq c := by
  obtain ⟨x, hx⟩ := compP_zero_some
  have read (p1) : transport (.readBlock Params.default.dataBase 6) (calibrated p1 [zeroBurst]) = _ :=
    transport_readBlock_ok rfl
  have sample : sampleOfBytes [0, 0, 0, 0, 0, 0] = some ⟨0, 0⟩ := by decide
  refine List.forall_iff_forall_mem.mp ⟨?_, ?_, ?_, ?_⟩
  · exact ⟨.acq, calibrated 1 [zeroBurst], _, rfl, rfl,
      exec_acq_of_value rfl (c := calOfP1 1) rfl (read 1) sample (compT_zero.symm ▸ hx), rfl⟩
  · exact attains_of_run .acq (calibrated 0 [.err false]) rfl rfl rfl
  · exact ⟨.acq, calibrated 0 [zeroBurst], _, rfl, rfl,
      exec_acq_of_noValue rfl (c := calOfP1 0) rfl (read 0) sample (compT_zero.symm ▸ compP_zero_none), rfl⟩
  · exact attains_of_run .acq (answered []) rfl rfl rfl

/-- R179: every status of its row ends some command of each opcode. -/
theorem attains_statusesOf (i : Instr) : ∀ c ∈ statusesOf i, Attains i c := by
  cases i with
  | cmpp => exact attains_cmpp
  | acq => exact attains_acq
  | ldcal =>
    exact List.forall_iff_forall_mem.mp <|
      ⟨attains_of_run .ldcal (answered (List.replicate 12 (.ok [0, 0]))) rfl rfl rfl,
      attains_of_run .ldcal (answered [.err false]) rfl rfl rfl⟩
  | apctl ot op m =>
    exact List.forall_iff_forall_mem.mp <|
      ⟨attains_of_run (.apctl .skip .skip .sleep) (answered [.ok [], .ok [0]]) rfl rfl rfl,
      attains_of_run (.apctl .skip .skip .sleep) (answered [.err false]) rfl rfl rfl,
      attains_of_run (.apctl .skip .skip .sleep) (answered [.ok [], .ok [1]]) rfl rfl rfl⟩
  | apflt sb f w =>
    exact List.forall_iff_forall_mem.mp <|
      ⟨attains_of_run (.apflt .sb0 .off false) (answered [.ok [], .ok [0]]) rfl rfl rfl,
      attains_of_run (.apflt .sb0 .off false) (answered [.err false]) rfl rfl rfl,
      attains_of_run (.apflt .sb0 .off false) (answered [.ok [], .ok [1]]) rfl rfl rfl⟩
  | config ot op m sb f w =>
    exact List.forall_iff_forall_mem.mp <| ⟨attains_of_run (.config .skip .skip .sleep .sb0 .off false)
        (answered [.ok [], .ok [0], .ok [], .ok [0]]) rfl rfl rfl,
      attains_of_run (.config .skip .skip .sleep .sb0 .off false) (answered [.err false]) rfl rfl rfl,
      attains_of_run (.config .skip .skip .sleep .sb0 .off false) (answered [.ok [], .ok [1]]) rfl rfl rfl⟩
  | rdraw =>
    exact List.forall_iff_forall_mem.mp <| ⟨attains_of_run .rdraw (answered [zeroBurst]) rfl rfl rfl,
      attains_of_run .rdraw (answered [.err false]) rfl rfl rfl⟩
  | cmpt =>
    exact List.forall_iff_forall_mem.mp <|
      ⟨attains_of_run .cmpt (measured 0) rfl rfl rfl, attains_of_run .cmpt (answered []) rfl rfl rfl,
      attains_of_run .cmpt (calibrated 0 []) rfl rfl rfl⟩
  | encctl ot op m =>
    exact List.forall_iff_forall_mem.mp <| attains_of_run (.encctl ot op m) (answered []) rfl rfl rfl
  | encflt sb f w =>
    exact List.forall_iff_forall_mem.mp <| attains_of_run (.encflt sb f w) (answered []) rfl rfl rfl
  | decctl b =>
    exact List.forall_iff_forall_mem.mp <|
      ⟨attains_of_run (.decctl 0) (answered []) rfl rfl rfl, attains_of_run (.decctl 0xFF) (answered []) rfl rfl rfl⟩
  | decflt b =>
    exact List.forall_iff_forall_mem.mp <|
      ⟨attains_of_run (.decflt 0) (answered []) rfl rfl rfl, attains_of_run (.decflt 0xFF) (answered []) rfl rfl rfl⟩
  | rdctl =>
    exact List.forall_iff_forall_mem.mp <| ⟨attains_of_run .rdctl (answered [.ok [0]]) rfl rfl rfl,
      attains_of_run .rdctl (answered [.err false]) rfl rfl rfl,
      attains_of_run .rdctl (answered [.ok [0xFF]]) rfl rfl rfl⟩
  | rdflt =>
    exact List.forall_iff_forall_mem.mp <| ⟨attains_of_run .rdflt (answered [.ok [0]]) rfl rfl rfl,
      attains_of_run .rdflt (answered [.err false]) rfl rfl rfl,
      attains_of_run .rdflt (answered [.ok [0xFF]]) rfl rfl rfl⟩

/-- Settles O11: no other status by `Ending.status_mem`, every listed one by `attains_statusesOf`. -/
theorem statusTableIsComplete : Obligations.StatusTableIsComplete := by
  refine fun i => ⟨fun s t hs ht => ?_, attains_statusesOf i⟩
  obtain ⟨n, u, -, hend⟩ := exec_ending i hs ht
  exact hend.status_mem

end Sys2Proof.Machine
end

section
/-! PROOF. No command reads `STATUS` (R19): no micro-step depends on it, and the end of a command
overwrites it. -/

namespace Sys2Proof.Machine

/-- A micro-step's ending with another `STATUS` in the state it leads to. -/
def Micro.withStatus (st : BitVec 4) : Micro → Micro
  | .next tmp s => .next tmp { s with status := st }
  | .raise e s => .raise e { s with status := st }
  | .respond p s => .respond p { s with status := st }

/-- What follows in a micro-step does not depend on `STATUS`, and leaves it as it was. -/
def IgnoresStatus (st : BitVec 4) (k : State → Micro) : Prop := ∀ s, k { s with status := st } = (k s).withStatus st

/-- A request does not depend on `STATUS`, and leaves it as it was. -/
theorem transport_with_status (r : Request) (st : BitVec 4) (s : State) :
    transport r { s with status := st } = ((transport r s).1, { (transport r s).2 with status := st }) :=
  transport_withPort r st s.seq s.outputs s

section

variable {st : BitVec 4}

theorem memRead_ignoresStatus {a : Addr} {n : Nat} {k : List Byte → State → Micro} (hk : ∀ bs, IgnoresStatus st (k bs)) :
    IgnoresStatus st (memRead a n k) := by
  intro s
  simp only [memRead, transport_with_status]
  rcases transport (.readBlock a n) s with ⟨_ | bs, u⟩
  · rfl
  · dsimp only
    split_ifs
    · exact hk bs u
    · rfl

theorem memReadByte_ignoresStatus {a : Addr} {k : Byte → State → Micro} (hk : ∀ b, IgnoresStatus st (k b)) :
    IgnoresStatus st (memReadByte a k) := by
  intro s
  simp only [memReadByte, transport_with_status]
  rcases transport (.readByte a) s with ⟨_ | ⟨_ | ⟨b, _ | _⟩⟩, u⟩
  · rfl
  · rfl
  · exact hk b u
  · rfl

theorem memWrite_ignoresStatus {a : Addr} {v : Byte} {k : State → Micro} (hk : IgnoresStatus st k) :
    IgnoresStatus st (memWrite a v k) := by
  intro s
  simp only [memWrite, transport_with_status]
  rcases transport (.writeByte a v) s with ⟨_ | bs, u⟩
  · rfl
  · exact hk u

theorem sampleStep_ignoresStatus {k : RawSample → State → Micro} (hk : ∀ r, IgnoresStatus st (k r)) (tmp : List Byte) :
    IgnoresStatus st (sampleStep k tmp) := by
  intro s
  unfold sampleStep
  split
  · exact hk _ (commitRaw _ s)
  · rfl

theorem ldcalCommit_ignoresStatus (tmp : List Byte) : IgnoresStatus st (ldcalCommit tmp) := by
  intro s
  unfold ldcalCommit
  split <;> rfl

theorem tempStep_ignoresStatus {k : F64 → F64 → State → Micro} (hk : ∀ tc tf, IgnoresStatus st (k tc tf)) :
    IgnoresStatus st (tempStep k) := by
  intro s
  rcases tempStep_cases k s with ⟨hc, e⟩ | ⟨c, hc, hr, e⟩ | ⟨c, r, hc, hr, e⟩ <;> rw [e]
  · exact tempStep_of_noCal (s := { s with status := st }) hc k
  · exact tempStep_of_noSample (s := { s with status := st }) hc hr k
  · rw [tempStep_of_sample (s := { s with status := st }) hc hr k]
    exact hk _ _ (commitTemp _ _ s)

theorem pressStep_ignoresStatus {k : F64 → State → Micro} (hk : ∀ x, IgnoresStatus st (k x)) :
    IgnoresStatus st (pressStep k) := by
  intro s
  rcases pressStep_cases k s with ⟨hc, e⟩ | ⟨c, hc, hm, e⟩ | ⟨c, r, tf, hc, hr, hf, ⟨hx, e⟩ | ⟨x, hx, e⟩⟩ <;> rw [e]
  · exact pressStep_of_noCal (s := { s with status := st }) hc k
  · exact pressStep_of_noOperand (s := { s with status := st }) hc hm k
  · exact pressStep_of_noValue (s := { s with status := st }) hc hr hf hx k
  · rw [pressStep_of_value (s := { s with status := st }) hc hr hf hx k]
    exact hk x (commitPress x s)

theorem decodeCtrl_ignoresStatus (b : Byte) : IgnoresStatus st (decodeCtrl b) := by
  intro s
  unfold decodeCtrl
  dsimp only
  split <;> rfl

theorem decodeCfg_ignoresStatus (b : Byte) : IgnoresStatus st (decodeCfg b) := by
  intro s
  unfold decodeCfg
  dsimp only
  split <;> rfl

theorem acqCheck_ignoresStatus (tmp : List Byte) : IgnoresStatus st (acqCheck tmp) := by
  intro s
  unfold acqCheck
  dsimp only
  split <;> rfl

theorem acqRespond_ignoresStatus (x : F64) : IgnoresStatus st (acqRespond x) := by
  intro s
  unfold acqRespond
  dsimp only
  split <;> rfl

theorem writeVerify_ignoresStatus {a : Addr} {b : Byte} {k : State → Micro} (hk : IgnoresStatus st k) {m : MicroStep}
    (hm : m ∈ writeVerify a b k) (tmp : List Byte) : IgnoresStatus st (m tmp) := by
  rcases List.mem_pair.mp hm with rfl | rfl
  · exact memWrite_ignoresStatus fun _ => rfl
  · refine memReadByte_ignoresStatus fun r u => ?_
    split_ifs
    · exact hk u
    · rfl

/-- R19: no micro-step of any command depends on the port. -/
theorem microSteps_ignoreStatus (p : Params) (cmd : Instr) {m : MicroStep} (hm : m ∈ microSteps p cmd) (tmp : List Byte) :
    IgnoresStatus st (m tmp) := by
  cases cmd with
  | ldcal =>
    rw [microSteps_ldcal, List.mem_append, List.mem_map, List.mem_singleton] at hm
    rcases hm with ⟨k, -, rfl⟩ | rfl
    · exact memRead_ignoresStatus fun _ _ => rfl
    · exact ldcalCommit_ignoresStatus tmp
  | apctl ot op m | apflt sb f w => exact writeVerify_ignoresStatus (fun _ => rfl) hm tmp
  | config ot op m sb f w =>
    rw [microSteps, configSteps_eq, List.mem_append] at hm
    rcases hm with hm | hm <;> exact writeVerify_ignoresStatus (fun _ => rfl) hm tmp
  | rdraw =>
    rcases List.mem_pair.mp hm with rfl | rfl
    · exact memRead_ignoresStatus fun _ _ => rfl
    · exact sampleStep_ignoresStatus (fun _ _ => rfl) tmp
  | cmpt =>
    rw [List.mem_singleton.mp hm]
    exact tempStep_ignoresStatus fun _ _ _ => rfl
  | cmpp =>
    rw [List.mem_singleton.mp hm]
    exact pressStep_ignoresStatus fun _ _ => rfl
  | acq =>
    simp only [microSteps, acqSteps, List.mem_cons, List.not_mem_nil, or_false] at hm
    rcases hm with rfl | rfl | rfl | rfl | rfl
    · exact acqCheck_ignoresStatus tmp
    · exact memRead_ignoresStatus fun _ _ => rfl
    · exact sampleStep_ignoresStatus (fun _ _ => rfl) tmp
    · exact tempStep_ignoresStatus fun _ _ _ => rfl
    · exact pressStep_ignoresStatus acqRespond_ignoresStatus
  | encctl ot op m | encflt sb f w =>
    rw [List.mem_singleton.mp hm]
    exact fun _ => rfl
  | decctl b =>
    rw [List.mem_singleton.mp hm]
    exact decodeCtrl_ignoresStatus b
  | decflt b =>
    rw [List.mem_singleton.mp hm]
    exact decodeCfg_ignoresStatus b
  | rdctl =>
    rcases List.mem_pair.mp hm with rfl | rfl
    · exact memReadByte_ignoresStatus fun _ _ => rfl
    · intro s
      dsimp only
      split
      · exact decodeCtrl_ignoresStatus _ s
      · rfl
  | rdflt =>
    rcases List.mem_pair.mp hm with rfl | rfl
    · exact memReadByte_ignoresStatus fun _ _ => rfl
    · intro s
      dsimp only
      split
      · exact decodeCfg_ignoresStatus _ s
      · rfl

end

/-- A run of micro-steps that do not depend on `STATUS`, up to one that ends the command, overwrites it. -/
theorem runFrom_with_status {last : MicroStep} (hends : ∀ tmp s, (last tmp s).Ends) (cmd : Instr) (st : BitVec 4) :
    ∀ (init : List MicroStep) (i : Nat) (tmp : List Byte) (s : State),
      (∀ m ∈ init ++ [last], ∀ tmp, IgnoresStatus st (m tmp)) →
      runFrom cmd (init ++ [last]) i tmp { s with status := st } = runFrom cmd (init ++ [last]) i tmp s := by
  intro init
  induction init with
  | nil =>
    intro i tmp s hignore
    have hend := hends tmp s
    rw [List.nil_append, runFrom_singleton, runFrom_singleton, hignore last List.mem_cons_self tmp s]
    generalize last tmp s = out at hend ⊢
    cases out with
    | next tmp' u => exact hend.elim
    | raise e u => rfl
    | respond p u => rfl
  | cons m ms ih =>
    intro i tmp s hignore
    rw [List.cons_append, runFrom_cons, runFrom_cons, hignore m List.mem_cons_self tmp s]
    generalize m tmp s = out
    cases out with
    | next tmp' u =>
      exact ih (i + 1) tmp' { u with seq := .busy cmd (i + 1) tmp' } fun m' h => hignore m' (List.mem_cons_of_mem _ h)
    | raise e u => rfl
    | respond p u => rfl

/-- Settles O17: the micro-steps do not read `STATUS`, and the last of them overwrites it. -/
theorem noCommandReadsStatus : Obligations.NoCommandReadsStatus := by
  intro i s st hs
  obtain ⟨init, last, hl, hends⟩ := microSteps_last s.params i
  rw [exec_eq_run, exec_eq_run, runCommand_idle _ _ _ hs, runCommand_idle i _ { s with status := st } hs, hl]
  exact congrArg _ (runFrom_with_status hends i st init 0 [] (accept i s)
    fun m hm => microSteps_ignoreStatus s.params i (hl ▸ hm))

end Sys2Proof.Machine
end

section
/-! PROOF. `ACQ` against the commands it is composed of and against what was in the block before (R160): each ending of
its burst and of its pressure step, the same on both sides. -/

namespace Sys2Proof.Machine

/-- A burst gets a sample, or no six bytes (R45, R72). -/
theorem burst_cases (p : Params) (s : State) :
    (∃ bs r u, transport (.readBlock p.dataBase 6) s = (.ok bs, u) ∧ sampleOfBytes bs = some r) ∨
    ∃ reply u, transport (.readBlock p.dataBase 6) s = (reply, u) ∧ ∀ bs, reply = .ok bs → bs.length ≠ 6 := by
  rcases h : transport (.readBlock p.dataBase 6) s with ⟨_ | bs, u⟩
  · exact .inr ⟨.err, u, rfl, nofun⟩
  · by_cases hl : bs.length = 6
    · obtain ⟨r, hr⟩ := sampleOfBytes_six bs hl
      exact .inl ⟨bs, r, u, rfl, hr⟩
    · exact .inr ⟨.ok bs, u, rfl, by rintro _ ⟨⟩; exact hl⟩

/-! ### The composition -/

theorem outputs_afterBurst {p : Params} {reply : Reply} {s u : State}
    (hread : transport (.readBlock p.dataBase 6) s = (reply, u)) : u.outputs = s.outputs := by
  rw [← transport_outputs (.readBlock p.dataBase 6) s, hread]

/-- A command of one micro-step ends as that micro-step does, its outcome given (R30). -/
theorem exec_of_one_outcome {i : Instr} {s : State} {m : MicroStep} {out : Micro} (hs : s.seq = .idle)
    (hm : microSteps s.params i = [m]) (h : m [] (accept i s) = out) : exec i s = .next (settle i 0 out) :=
  h ▸ exec_of_one_microStep hs hm

/-- R142: `CMPT` with a calibration and a sample. -/
theorem exec_cmpt_of_sample {s : State} {c : Cal} {r : RawSample} (hs : s.seq = .idle) (hc : s.cal = some c)
    (hr : s.raw = some r) :
    exec .cmpt s = .next (respondOk
      (.temperature (compT r.adcT c.t1 c.t2 c.t3).1 (compT r.adcT c.t1 c.t2 c.t3).2)
      (commitTemp (compT r.adcT c.t1 c.t2 c.t3).1 (compT r.adcT c.t1 c.t2 c.t3).2 s)) :=
  (exec_of_one_outcome (i := .cmpt) hs rfl (tempStep_of_sample (s := accept .cmpt s) hc hr _) :)

/-- R145: `CMPP` where `comp_P` has a value. -/
theorem exec_cmpp_of_value {s : State} {c : Cal} {r : RawSample} {tf x : F64} (hs : s.seq = .idle)
    (hc : s.cal = some c) (hr : s.raw = some r) (hf : s.tFine = some tf) (hx : compP r.adcP tf c = some x) :
    exec .cmpp s = .next (respondOk (.pressure x) (commitPress x s)) :=
  (exec_of_one_outcome (i := .cmpp) hs rfl (pressStep_of_value (s := accept .cmpp s) hc hr hf hx _) :)

/-- R145, R147: `CMPP` where `comp_P` has no value. -/
theorem exec_cmpp_of_noValue {s : State} {c : Cal} {r : RawSample} {tf : F64} (hs : s.seq = .idle)
    (hc : s.cal = some c) (hr : s.raw = some r) (hf : s.tFine = some tf) (hx : compP r.adcP tf c = none) :
    exec .cmpp s = .next (raiseError .arithmeticError (dropPress s)) :=
  (exec_of_one_outcome (i := .cmpp) hs rfl (pressStep_of_noValue (s := accept .cmpp s) hc hr hf hx _) :)

/-- R160: with a calibration and a good burst the three commands end as `ACQ` does, but for the outputs. -/
theorem exec_acq_composed {s u t₁ t₂ t₃ : State} {c : Cal} {r : RawSample} {bs : List Byte} (hs : s.seq = .idle)
    (hc : s.cal = some c) (hread : transport (.readBlock s.params.dataBase 6) s = (.ok bs, u))
    (hr : sampleOfBytes bs = some r) (h₁ : exec .rdraw s = .next t₁) (h₂ : exec .cmpt t₁ = .next t₂)
    (h₃ : exec .cmpp t₂ = .next t₃) :
    t₁.status = 0 ∧ t₂.status = 0 ∧
    (t₃.status ≠ 0 → exec .acq s = .next { t₃ with outputs := .response t₃.status .none :: s.outputs }) ∧
    (t₃.status = 0 → ∃ x tc, t₃.press = some x ∧ t₃.tempC = some tc ∧
      exec .acq s = .next { t₃ with outputs := .response 0 (.reading x tc) :: s.outputs }) := by
  have hcu : u.cal = some c := cal_afterBurst hc hread
  have hout := outputs_afterBurst hread
  obtain rfl := exec_next_unique h₁ (exec_rdraw_of_some hs hread hr)
  obtain rfl := exec_next_unique h₂ (exec_cmpt_of_sample (r := r) rfl hcu rfl)
  refine ⟨rfl, rfl, ?_⟩
  cases hx : compP r.adcP (compT r.adcT c.t1 c.t2 c.t3).2 c with
  | none =>
    obtain rfl := exec_next_unique h₃ (exec_cmpp_of_noValue (r := r) rfl hcu rfl rfl hx)
    refine ⟨fun _ => ?_, fun h => absurd h (errCode_ne_zero .arithmeticError)⟩
    rw [exec_acq_of_noValue hs hc hread hr hx, ← hout]
    rfl
  | some x =>
    obtain rfl := exec_next_unique h₃ (exec_cmpp_of_value (r := r) rfl hcu rfl rfl hx)
    refine ⟨fun h => absurd rfl h, fun _ => ⟨x, _, rfl, rfl, ?_⟩⟩
    rw [exec_acq_of_value hs hc hread hr hx, ← hout]
    rfl

/-- Settles O47: a bad burst ends both sides alike, after a good one `exec_acq_composed`. -/
theorem acqIsTheThreeCommandsComposed : Obligations.AcqIsTheThreeCommandsComposed := by
  intro s t₁ t₂ t₃ hs hcal h₁ h₂ h₃
  obtain ⟨c, hc⟩ := Option.isSome_iff_exists.mp hcal
  rcases burst_cases s.params s with ⟨bs, r, u, hread, hr⟩ | ⟨reply, u, hread, hbad⟩
  · obtain ⟨h0₁, h0₂, herr, hok⟩ := exec_acq_composed hs hc hread hr h₁ h₂ h₃
    exact ⟨fun h => absurd h0₁ h, fun _ => h0₂, fun _ => herr, fun _ => hok⟩
  · obtain rfl := exec_next_unique h₁ (exec_rdraw_of_bad hs hread hbad)
    have h1 : (raiseError .transportError u).status ≠ 0 := errCode_ne_zero .transportError
    exact ⟨fun _ => exec_acq_of_bad hs hc hread hbad, fun h => absurd h h1, fun h => absurd h h1,
      fun h => absurd h h1⟩

/-! ### Freshness -/

/-- The registers of an earlier sample replaced. -/
def withSample (raw : Option RawSample) (tf tc p : Option F64) (s : State) : State :=
  { s with raw := raw, tFine := tf, tempC := tc, press := p }

/-- A request does not depend on the sample and the results, and leaves them as they were. -/
theorem transport_withSample (q : Request) (raw : Option RawSample) (tf tc p : Option F64) (s : State) :
    transport q (withSample raw tf tc p s) = ((transport q s).1, withSample raw tf tc p (transport q s).2) := by
  have hreply : replyTo (withSample raw tf tc p s) q (nextAnswer s) = replyTo s q (nextAnswer s) := by
    cases nextAnswer s <;> cases q <;> rfl
  simp only [transport, show nextAnswer (withSample raw tf tc p s) = nextAnswer s from rfl, hreply]
  rfl

/-- Settles O49, by the endings of `ACQ`: what they write is computed from the calibration and the new sample. -/
theorem acqUsesNoOldSample : Obligations.AcqUsesNoOldSample := by
  intro s t t' raw tf tc p hs ht ht'
  have hs' : (withSample raw tf tc p s).seq = .idle := hs
  cases hc : s.cal with
  | none =>
    obtain rfl := exec_next_unique ht (exec_acq_of_noCal hs hc)
    obtain rfl := exec_next_unique ht' (exec_acq_of_noCal hs' hc)
    exact ⟨rfl, rfl, fun h => by simp [errCode] at h⟩
  | some c =>
    rcases burst_cases s.params s with ⟨bs, r, u, hread, hr⟩ | ⟨reply, u, hread, hbad⟩
    all_goals
      have hread' := transport_withSample (.readBlock s.params.dataBase 6) raw tf tc p s
      rw [hread] at hread'
    · cases hx : compP r.adcP (compT r.adcT c.t1 c.t2 c.t3).2 c with
      | none =>
        obtain rfl := exec_next_unique ht (exec_acq_of_noValue hs hc hread hr hx)
        obtain rfl := exec_next_unique ht' (exec_acq_of_noValue hs' hc hread' hr hx)
        exact ⟨rfl, rfl, fun _ => ⟨rfl, rfl, rfl, rfl⟩⟩
      | some x =>
        obtain rfl := exec_next_unique ht (exec_acq_of_value hs hc hread hr hx)
        obtain rfl := exec_next_unique ht' (exec_acq_of_value hs' hc hread' hr hx)
        exact ⟨rfl, rfl, fun _ => ⟨rfl, rfl, rfl, rfl⟩⟩
    · obtain rfl := exec_next_unique ht (exec_acq_of_bad hs hc hread hbad)
      obtain rfl := exec_next_unique ht' (exec_acq_of_bad hs' hc hread' hbad)
      exact ⟨rfl, rfl, fun h => by simp [errCode] at h⟩

end Sys2Proof.Machine
end

section
/-! PROOF. The transport primitives answer by answer (R44 to R46), the device register space (R40), the sensor (R24), the
host's register reads (R32), and the addresses of the requests (R42). -/

namespace Sys2Proof.Machine

/-! ### The primitives (R44 to R46) -/

/-- The state after one request: its answer taken from the list, the request recorded, the device as given. -/
def afterRequest (q : Request) (reply : Reply) (m : Memory) (rest : List Answer) (s : State) : State :=
  { s with
    device := m
    answers := rest
    draws := s.draws + 1
    trace := { request := q, reply := reply } :: s.trace }

/-- A request answered from the head of the list of answers. -/
theorem transport_of_answer {s : State} {x : Answer} {rest : List Answer} (h : s.answers = x :: rest) (q : Request) :
    transport q s = (replyTo s q x, afterRequest q (replyTo s q x) (deviceAfter s.device q x) rest s) := by
  simp only [transport, nextAnswer, h, List.tail_cons]
  rfl

/-- R45: a burst from the device image is the known bytes from the address upwards. -/
theorem replyTo_device_block {s : State} {a : Addr} {n : Nat} {bs : Fin n → Byte}
    (h : ∀ i : Fin n, s.device.byteAt (a.toNat + i) = some (bs i)) :
    replyTo s (.readBlock a n) .device = .ok (List.ofFn bs) := by
  refine congrArg Reply.ok (List.ext_getElem (by simp) fun i h₁ h₂ => ?_)
  have hi : i < n := by simpa using h₂
  simp [deviceByte, h ⟨i, hi⟩]

/-- R44: a byte from the device image is the known byte at the address. -/
theorem replyTo_device_byte {s : State} {a : Addr} {b : Byte} (h : s.device.byteAt a.toNat = some b) :
    replyTo s (.readByte a) .device = .ok [b] := by
  simp [replyTo, deviceByte, h]

theorem memRead_of_ok {a : Addr} {n : Nat} {k : List Byte → State → Micro} {s u : State} {bs : List Byte}
    (h : transport (.readBlock a n) s = (.ok bs, u)) (hl : bs.length = n) : memRead a n k s = k bs u := by
  simp only [memRead, h, if_pos hl]

theorem memRead_of_bad {a : Addr} {n : Nat} {k : List Byte → State → Micro} {s u : State} {reply : Reply}
    (h : transport (.readBlock a n) s = (reply, u)) (hbad : ∀ bs, reply = .ok bs → bs.length ≠ n) :
    memRead a n k s = .raise .transportError u := by
  cases reply with
  | err => simp only [memRead, h]
  | ok bs => simp only [memRead, h, if_neg (hbad bs rfl)]

theorem memReadByte_of_ok {a : Addr} {k : Byte → State → Micro} {s u : State} {b : Byte}
    (h : transport (.readByte a) s = (.ok [b], u)) : memReadByte a k s = k b u := by
  simp only [memReadByte, h]

theorem memReadByte_of_err {a : Addr} {k : Byte → State → Micro} {s u : State}
    (h : transport (.readByte a) s = (.err, u)) : memReadByte a k s = .raise .transportError u := by
  simp only [memReadByte, h]

theorem memWrite_of_ok {a : Addr} {v : Byte} {k : State → Micro} {s u : State} {bs : List Byte}
    (h : transport (.writeByte a v) s = (.ok bs, u)) : memWrite a v k s = k u := by
  simp only [memWrite, h]

theorem memWrite_of_err {a : Addr} {v : Byte} {k : State → Micro} {s u : State}
    (h : transport (.writeByte a v) s = (.err, u)) : memWrite a v k s = .raise .transportError u := by
  simp only [memWrite, h]

/-- The device image after a write answered `Err` (A5). -/
theorem deviceAfter_write_err (m : Memory) (a : Addr) (v : Byte) (l : Bool) :
    deviceAfter m (.writeByte a v) (.err l) = if l then m.store a.toNat v else m := by
  cases l <;> rfl

/-- Settles O14: each primitive follows the reply `transport_of_answer` gives it, answer by answer. -/
theorem transportPrimitivesDeliverOrRaise : Obligations.TransportPrimitivesDeliverOrRaise := by
  intro s a v n x rest kRead kByte kWrite h after block byte write
  have request (q) := transport_of_answer h q
  refine ⟨?_, ?_, ?_⟩
  · rintro l rfl
    refine ⟨memRead_of_bad (request block) (by rintro _ ⟨⟩), memReadByte_of_err (request byte), ?_⟩
    rw [← deviceAfter_write_err]
    exact memWrite_of_err (request write)
  · rintro bs rfl
    refine ⟨memRead_of_ok (request block), fun hl => memRead_of_bad (request block) (by rintro _ ⟨⟩; exact hl), ?_,
      memWrite_of_ok (request write)⟩
    rintro b rfl
    exact memReadByte_of_ok (request byte)
  · rintro rfl
    refine ⟨fun bs hbs => ?_, fun b hb => ?_, memWrite_of_ok (request write)⟩
    · have hblock := request block
      rw [replyTo_device_block hbs] at hblock
      exact memRead_of_ok hblock (List.length_ofFn)
    · have hbyte := request byte
      rw [replyTo_device_byte hb] at hbyte
      exact memReadByte_of_ok hbyte

/-! ### The device register space and the sensor -/

/-- Settles O53, by the laws of a store. -/
theorem storeThenReadReturnsTheByte : Obligations.StoreThenReadReturnsTheByte := fun m a v =>
  ⟨m.byteAt_store_same _ v, fun _ hb => m.byteAt_store_other _ _ v hb, m.wf_store _ v (addr_lt a)⟩

/-- R24, R60: the step of a change of the sensor is that change, whatever the sequencer holds. -/
theorem step_sensor {s : State} {a : Addr} {v : Byte} {es : List Event} (he : s.events = .sensor a v :: es) :
    step s = .next (sensorChange a v { s with events := es }) := by
  cases hs : s.seq with
  | idle =>
    rw [step_idle s hs, idleStep, he]
    rw [hs]
  | busy c i tmp =>
    rw [step_busy s c i tmp hs, busyStep, he]
    rw [hs]

/-- Settles O54: the step is a store of one byte, idle or busy. -/
theorem sensorChangesOneDeviceByte : Obligations.SensorChangesOneDeviceByte := fun s _ v _ he =>
  ⟨_, step_sensor he, rfl, s.device.byteAt_store_same _ v, fun _ hb => s.device.byteAt_store_other _ _ v hb⟩

/-! ### The host's reads (R32) -/

theorem step_read_of_some {s : State} {r : BlockReg} {es : List Event} {b : BitVec 64} (hs : s.seq = .idle)
    (hb : regBits s r = some b) (he : s.events = .read r :: es) :
    step s = .next { s with events := es, outputs := .value r b :: s.outputs } := by
  rw [step_read hs he, hostRead, regBits_with_events, hb]

theorem step_read_of_none {s : State} {r : BlockReg} {es : List Event} (hs : s.seq = .idle)
    (hb : regBits s r = none) (he : s.events = .read r :: es) :
    step s = .next { s with events := es, outputs := .hostFault r :: s.outputs } := by
  rw [step_read hs he, hostRead, regBits_with_events, hb]

/-- A valid flag as 64 bits (R18). -/
theorem bit64_isSome {α : Type} [DecidableEq α] (o : Option α) : bit64 o.isSome = if o = none then 0 else 1 := by
  cases o <;> rfl

/-- `CAL[k]` is the register of index `k` in the order of the names (R11). -/
theorem calReg_eq_getElem (c : Cal) (k : Fin 12) (x : Pattern)
    (h : [c.t1, c.t2, c.t3, c.p1, c.p2, c.p3, c.p4, c.p5, c.p6, c.p7, c.p8, c.p9][k.val]? = some x) :
    calReg c k = x := by
  fin_cases k <;> exact Option.some.inj h

/-- Settles O52: register by register, its bits where its flag is 1 and the fault where it is 0. -/
theorem hostReadsAValueOrFaults : Obligations.HostReadsAValueOrFaults := by
  intro s es hs gives faults
  have value {r : BlockReg} {b : BitVec 64} (hb : regBits s r = some b) : gives r b := step_read_of_some hs hb
  have fault {r : BlockReg} (hb : regBits s r = none) : faults r := step_read_of_none hs hb
  have flag {α : Type} [DecidableEq α] {r : BlockReg} (o : Option α) (hb : regBits s r = some (bit64 o.isSome)) :
      gives r (if o = none then 0 else 1) := value (bit64_isSome o ▸ hb)
  refine ⟨fun c hc k x hx => value ?_, fun hc k => fault ?_, fun x hx => ⟨value ?_, value ?_⟩,
    fun hx => ⟨fault ?_, fault ?_⟩, fun x hx => value hx, fun hx => fault hx, fun x hx => value hx, fun hx => fault hx,
    fun x hx => value hx, fun hx => fault hx, value rfl, flag s.cal rfl, flag s.raw rfl, flag s.tFine rfl,
    flag s.tempC rfl, flag s.press rfl⟩
  · rw [regBits, hc, Option.map_some, calReg_eq_getElem c k x hx]
  · rw [regBits, hc, Option.map_none]
  · rw [regBits, hx, Option.map_some]
  · rw [regBits, hx, Option.map_some]
  · rw [regBits, hx, Option.map_none]
  · rw [regBits, hx, Option.map_none]

/-! ### The addresses (R42) -/

/-- R42: what the constraints on the addresses say of the calibration frame and of the burst, and that the two control
registers differ. -/
theorem addressesWf_bounds {p : Params} (h : p.wf = true) :
    p.calBase.toNat + 23 ≤ 255 ∧ p.dataBase.toNat + 5 ≤ 255 ∧ p.ctrlAddr.toNat ≠ p.configAddr.toNat := by
  simp only [Params.wf, Params.addressesWf, rangesApart, Bool.and_eq_true, Bool.or_eq_true, decide_eq_true_eq] at h
  omega

/-- R42: the addresses of the calibration reads do not wrap. -/
theorem calAddr_toNat {p : Params} (h : p.wf = true) {k : Nat} (hk : k < 12) :
    (p.calBase + BitVec.ofNat 8 (2 * k)).toNat = p.calBase.toNat + 2 * k := by
  have := (addressesWf_bounds h).1
  rw [BitVec.toNat_add, BitVec.toNat_ofNat]
  omega

/-- Settles O35: the block reads are those of `LDCAL` and the burst. -/
theorem addressesDoNotWrap : Obligations.AddressesDoNotWrap := by
  intro p i h
  obtain ⟨hcal, hdata, -⟩ := addressesWf_bounds h
  refine ⟨fun k hk => calAddr_toNat h hk, fun a n hmem => ?_⟩
  cases i with
  | ldcal =>
    obtain ⟨k, hk, e⟩ := List.mem_map.mp hmem
    rw [List.mem_range] at hk
    obtain ⟨rfl, rfl⟩ := Request.readBlock.inj e
    rw [calAddr_toNat h hk]
    omega
  | rdraw | acq =>
    obtain ⟨rfl, rfl⟩ := Request.readBlock.inj (List.mem_singleton.mp hmem)
    omega
  | config ot op m sb f w =>
    rw [requestsOf_config] at hmem
    simp [verifyRequests] at hmem
  | _ => simp [requestsOf] at hmem

end Sys2Proof.Machine
end

section
/-! PROOF. The verified writes answer by answer (R115 to R118): `APCTL`, `APFLT`, `CONFIG`, what a storing device reads
back (R122), and the first bad read of `LDCAL` (R100). -/

namespace Sys2Proof.Machine

/-! ### A verified write, answer by answer (R118) -/

/-- The device image after a write of `b` to `a` that was answered `x`, no `Err` (A5). -/
def storedOn (x : Answer) (a : Addr) (b : Byte) (m : Memory) : Memory :=
  if x = .device then m.store a.toNat b else m

/-- The state after a write of `b` to `a` that was answered `x`, no `Err`. -/
def afterWrite (x : Answer) (a : Addr) (b : Byte) (rest : List Answer) (s : State) : State :=
  afterRequest (.writeByte a b) (.ok []) (storedOn x a b s.device) rest s

/-- The state after a verified write that ends with `st`, its read-back answered. -/
def afterReadBack (st : BitVec 4) (x : Answer) (a : Addr) (b : Byte) (reply : Reply) (rest : List Answer)
    (s : State) : State :=
  { s with
    status := st
    device := storedOn x a b s.device
    answers := rest
    draws := s.draws + 2
    trace := { request := .readByte a, reply := reply } :: { request := .writeByte a b, reply := .ok [] } :: s.trace
    outputs := .response st .none :: s.outputs }

section VerifiedWrite

variable {s u v : State} {a : Addr} {b r : Byte} {x y : Answer} {reply : Reply} {rest : List Answer}

theorem transport_write_done (hx : ∀ l, x ≠ .err l) (h : s.answers = x :: rest) :
    transport (.writeByte a b) s = (.ok [], afterWrite x a b rest s) := by
  rw [transport_of_answer h]
  cases x with
  | err l => exact absurd rfl (hx l)
  | ok bs => rfl
  | device => rfl

theorem verifyEnd_of_byte (hw : transport (.writeByte a b) s = (.ok [], u))
    (hr : transport (.readByte a) u = (.ok [r], v)) :
    verifyEnd a b s = (if r = b then none else some .verificationFailed, v) := by
  simp only [verifyEnd, hw, hr]

theorem verifyEnd_of_bad (hw : transport (.writeByte a b) s = (.ok [], u)) (hr : transport (.readByte a) u = (reply, v))
    (hbad : ∀ bs, reply = .ok bs → bs.length ≠ 1) : verifyEnd a b s = (some .transportError, v) := by
  rcases reply with _ | ⟨_ | ⟨r, _ | _⟩⟩
  · simp only [verifyEnd, hw, hr]
  · simp only [verifyEnd, hw, hr]
  · exact absurd rfl (hbad _ rfl)
  · simp only [verifyEnd, hw, hr]

/-- The read-back of one byte decides between `OK` and `VerificationFailed`. -/
theorem verifiedWrite_of_byte (hs : s.seq = .idle) (hx : ∀ l, x ≠ .err l)
    (h : s.answers = x :: .ok [r] :: rest ∨
      s.answers = x :: .device :: rest ∧ (storedOn x a b s.device).byteAt a.toNat = some r) :
    verifiedWrite (a, b) s = afterReadBack (if r = b then 0 else 2) x a b (.ok [r]) rest s := by
  have hread : verifyEnd a b s =
      (if r = b then none else some .verificationFailed, afterRead a (.ok [r]) rest (afterWrite x a b [] s)) := by
    rcases h with h | ⟨h, hbyte⟩
    · exact verifyEnd_of_byte (transport_write_done hx h) (transport_readByte_answered (.inl rfl))
    · exact verifyEnd_of_byte (transport_write_done hx h) (transport_readByte_answered (.inr ⟨rfl, hbyte⟩))
  rw [verifiedWrite, hread]
  by_cases hb : r = b
  · rw [if_pos hb, if_pos hb]
    exact respondOk_of_idle (s := afterRead a (.ok [r]) rest (afterWrite x a b [] s)) hs _
  · rw [if_neg hb, if_neg hb]
    exact raiseError_of_idle (s := afterRead a (.ok [r]) rest (afterWrite x a b [] s)) hs _

/-- A read-back that fails or does not bring one byte is a `TransportError` (log entry 4). -/
theorem verifiedWrite_of_badRead (hs : s.seq = .idle) (hx : ∀ l, x ≠ .err l) (h : s.answers = x :: y :: rest)
    (hreply : replyTo (afterWrite x a b (y :: rest) s) (.readByte a) y = reply)
    (hbad : ∀ bs, reply = .ok bs → bs.length ≠ 1) :
    verifiedWrite (a, b) s = afterReadBack 1 x a b reply rest s := by
  have hread := transport_of_answer (s := afterWrite x a b (y :: rest) s) rfl (.readByte a)
  rw [hreply] at hread
  rw [verifiedWrite, verifyEnd_of_bad (transport_write_done hx h) hread hbad]
  exact (raiseError_of_idle (by exact hs) _).trans rfl

/-- A write that fails is a `TransportError`, and the register is not read back (A5, R118). -/
theorem verifiedWrite_of_badWrite {l : Bool} (hs : s.seq = .idle) (h : s.answers = .err l :: rest) :
    verifiedWrite (a, b) s = { s with
      status := 1
      device := if l then s.device.store a.toNat b else s.device
      answers := rest
      draws := s.draws + 1
      trace := { request := .writeByte a b, reply := .err } :: s.trace
      outputs := .response 1 .none :: s.outputs } := by
  have hend : verifyEnd a b s = (some .transportError,
      afterRequest (.writeByte a b) .err (if l then s.device.store a.toNat b else s.device) rest s) := by
    rw [← deviceAfter_write_err]
    simp only [verifyEnd, transport_of_answer h]
    rfl
  rw [verifiedWrite, hend]
  exact (raiseError_of_idle (by exact hs) _).trans rfl

end VerifiedWrite

/-- Settles O24: `APCTL` is one verified write, to `CTRL`. -/
theorem apctlWritesAndVerifies : Obligations.ApctlWritesAndVerifies := by
  intro s ot op m x rest hs a b wrote after
  rw [exec_apctl_eq ot op m hs]
  exact ⟨encode_opcode _, fun r hx h => congrArg _ (verifiedWrite_of_byte hs hx h),
    fun bs hl hx h => congrArg _ (verifiedWrite_of_badRead hs hx h rfl (by rintro _ ⟨⟩; exact hl)),
    fun l hx h => congrArg _ (verifiedWrite_of_badRead hs hx h rfl (by rintro _ ⟨⟩)),
    fun l h => congrArg _ (verifiedWrite_of_badWrite hs h)⟩

/-- Settles O25: `APFLT` is one verified write, to `CONFIG`. -/
theorem apfltWritesAndVerifies : Obligations.ApfltWritesAndVerifies := by
  intro s sb f w x rest hs a b wrote after
  rw [exec_apflt_eq sb f w hs]
  exact ⟨encode_opcode _, fun r hx h => congrArg _ (verifiedWrite_of_byte hs hx h),
    fun bs hl hx h => congrArg _ (verifiedWrite_of_badRead hs hx h rfl (by rintro _ ⟨⟩; exact hl)),
    fun l hx h => congrArg _ (verifiedWrite_of_badRead hs hx h rfl (by rintro _ ⟨⟩)),
    fun l h => congrArg _ (verifiedWrite_of_badWrite hs h)⟩

/-! ### `CONFIG` -/

/-- Settles O27: the first verified write by its read-back, then the second, if the first ended `OK`. -/
theorem configWritesBothRegisters : Obligations.ConfigWritesBothRegisters := by
  intro s ot op m sb f w rest hs horder a b a' b' write read
  have hwrites : configWrites s.params ot op m sb f w = ((a, b), (a', b')) := by rw [configWrites, horder]
  rw [exec_config_eq ot op m sb f w hs, hwrites]
  refine ⟨fun bs bs' r' h => ?_, fun bs r hr h => ?_⟩
  · rw [verifiedWrite_of_byte hs (fun _ => Answer.noConfusion) (.inl h), if_pos rfl]
    dsimp only
    rw [if_pos (by rfl), verifiedWrite_of_byte (by exact hs) (fun _ => Answer.noConfusion) (.inl rfl)]
    rfl
  · rw [verifiedWrite_of_byte hs (fun _ => Answer.noConfusion) (.inl h), if_neg hr]
    rfl

/-! ### A storing device (R122) -/

/-- A verified write that the device carries out, twice: it ends `OK` and the byte is in the device image. -/
theorem verifiedWrite_of_device {s : State} {w : Addr × Byte} {rest : List Answer} (hs : s.seq = .idle)
    (h : s.answers = .device :: .device :: rest) :
    verifiedWrite w s = afterReadBack 0 .device w.1 w.2 (.ok [w.2]) rest s := by
  rw [verifiedWrite_of_byte hs (fun _ => Answer.noConfusion) (.inr ⟨h, s.device.byteAt_store_same _ _⟩), if_pos rfl]

/-- `CONFIG` on a device that carries out its four requests ends `OK`, and the device holds both bytes. -/
theorem exec_config_of_device {s : State} (ot op : Osrs) (m : Mode) (sb : Standby) (f : Filter) (w : Bool)
    {rest : List Answer} (hs : s.seq = .idle) (hne : s.params.ctrlAddr.toNat ≠ s.params.configAddr.toNat)
    (h : s.answers = .device :: .device :: .device :: .device :: rest) :
    ∃ t, exec (.config ot op m sb f w) s = .next t ∧ t.status = 0 ∧ t.seq = .idle ∧ t.params = s.params ∧
      t.answers = rest ∧ t.device.byteAt s.params.ctrlAddr.toNat = some (packCtrl s.params ot op m) ∧
      t.device.byteAt s.params.configAddr.toNat = some (packCfg s.params sb f w) := by
  refine ⟨_, exec_config_eq ot op m sb f w hs, ?_⟩
  rw [verifiedWrite_of_device hs h]
  dsimp only
  rw [if_pos (by rfl), verifiedWrite_of_device (by exact hs) rfl]
  refine ⟨rfl, hs, rfl, rfl, ?_⟩
  dsimp only [afterReadBack, configWrites]
  cases s.params.order
  · exact ⟨(Memory.byteAt_store_other _ _ _ _ hne).trans (s.device.byteAt_store_same _ _),
      Memory.byteAt_store_same _ _ _⟩
  · exact ⟨Memory.byteAt_store_same _ _ _,
      (Memory.byteAt_store_other _ _ _ _ hne.symm).trans (s.device.byteAt_store_same _ _)⟩

/-- Settles O28: what the device holds after `CONFIG` is read by `RDCTL` and `RDFLT`, and decoding inverts packing. -/
theorem configurationReadsBackFromAStoringDevice : Obligations.ConfigurationReadsBackFromAStoringDevice := by
  intro s ot op m sb f w rest hs hwf h
  have hcodes : s.params.codesWf = true := ((Bool.and_eq_true _ _).mp hwf).2
  obtain ⟨t₁, hexec, hstatus, hidle, hparams, hanswers, hctrl, hconfig⟩ :=
    exec_config_of_device ot op m sb f w hs (addressesWf_bounds hwf).2.2 h
  rw [← hparams] at hcodes hctrl hconfig
  have hread₁ := transport_readByte_answered (.inr ⟨hanswers, hctrl⟩)
  have hexec₁ := exec_rdctl_of_some hidle hread₁ ((unpackCtrl_eq_some_iff hcodes).mpr rfl)
  exact ⟨t₁, _, _, hexec, hstatus, hexec₁, rfl, exec_rdflt_of_some
    (s := respondOk (.control ot op m) (afterRead t₁.params.ctrlAddr _ (.device :: rest) t₁)) rfl
    (transport_readByte_answered (.inr ⟨rfl, hconfig⟩)) ((unpackCfg_eq_some_iff hcodes).mpr rfl), rfl⟩

/-! ### A bad read of `LDCAL` -/

theorem microSteps_ldcal_split (p : Params) {j : Nat} (hj : j < 12) :
    ∃ ms, microSteps p .ldcal = (List.range' 0 j).map (ldcalRead p) ++ ldcalRead p j :: ms := by
  interval_cases j <;> exact ⟨_, rfl⟩

/-- A read of `LDCAL` that fails, or does not bring two bytes, raises `TransportError` (R45). -/
theorem ldcalRead_of_bad {p : Params} {k : Nat} {tmp : List Byte} {s : State} {bad : Answer} {rest : List Answer}
    (h : s.answers = bad :: rest) (hbad : (∃ l, bad = .err l) ∨ ∃ bs, bad = .ok bs ∧ bs.length ≠ 2) :
    ∃ q reply, ldcalRead p k tmp s = .raise .transportError (afterRequest q reply s.device rest s) := by
  refine ⟨_, _, memRead_of_bad (transport_of_answer h _) fun bs hbs => ?_⟩
  rcases hbad with ⟨l, rfl⟩ | ⟨bs', rfl, hl⟩
  · exact absurd hbs (by rintro ⟨⟩)
  · obtain rfl := Reply.ok.inj hbs
    exact hl

/-- Settles O34: `runFrom_goodReads` up to read `j`, which raises `TransportError`; the good reads changed only the
records of the bus. -/
theorem ldcalStopsAtTheFirstBadRead : Obligations.LdcalStopsAtTheFirstBadRead := by
  intro s j lo hi bad rest hs ha hbad
  obtain ⟨ms, hsteps⟩ := microSteps_ldcal_split s.params j.isLt
  let u := afterGoodReads s.params 0 lo hi [] (bad :: rest) (accept .ldcal s)
  obtain ⟨q, reply, hread⟩ := ldcalRead_of_bad (p := s.params) (k := j) (tmp := [] ++ gathered lo hi) (s := u) rfl hbad
  have hexec : exec .ldcal s = .next (raiseError .transportError (afterRequest q reply s.device rest u)) := by
    rw [exec_eq_run, runCommand_idle _ _ _ hs, hsteps,
      runFrom_goodReads s.params _ (bad :: rest) j 0 lo hi [] (accept .ldcal s) rfl ha, Nat.zero_add, runFrom_cons,
      hread]
    rfl
  exact ⟨_, hexec, rfl, rfl, rfl, rfl, rfl, rfl, rfl, rfl, rfl⟩

end Sys2Proof.Machine
end

section
/-! PROOF. The binary64 operations are the IEEE 754 ones (R141): rounding takes the nearest finite number, ties to even,
and overflows from half a unit above the largest one on; integer conversion is exact; equality is equality of values. -/

namespace Sys2Proof.Machine

/-! ### Rounding to the nearest -/

/-- Of the two magnitudes `x` and `y`, `x` is a nearest to `num / den`, and `even` holds where both are equally near. -/
def Nearest (num den x y : Nat) (even : Prop) : Prop :=
  |(x * den : Int) - num| ≤ |(y * den : Int) - num| ∧
  (|(x * den : Int) - num| = |(y * den : Int) - num| → y ≠ x → even)

theorem Nearest.scale {num den u x y : Nat} {even : Prop} (h : Nearest num (den * u) x y even) :
    Nearest num den (x * u) (y * u) even := by
  have hswap (z : Nat) : ((z * u : Nat) * den : Int) = z * (den * u : Nat) := by push_cast; ring
  unfold Nearest
  rw [hswap, hswap]
  exact ⟨h.1, fun e hne => h.2 e fun e' => hne (e' ▸ rfl)⟩

/-- Between the multiples of `den`, the rounded quotient gives a nearest one, and the even one of two. -/
theorem roundHalfEven_nearest (num den c : Nat) (hd : 0 < den) :
    Nearest num den (roundHalfEven num den) c (roundHalfEven num den % 2 = 0) := by
  have hmod : num % den < den := Nat.mod_lt _ hd
  have hnum : num / den * den + num % den = num := Nat.div_add_mod' num den
  have hsucc (q : Nat) : (q + 1) * den = q * den + den := Nat.succ_mul q den
  -- where `c * den` lies, seen from the multiple of `den` below `num`
  have hc : c + 1 ≤ num / den ∧ c * den + den ≤ num / den * den ∨ c = num / den ∧ c * den = num / den * den ∨
      c = num / den + 1 ∧ c * den = num / den * den + den ∨
      num / den + 2 ≤ c ∧ num / den * den + den + den ≤ c * den := by
    rcases Nat.lt_or_ge c (num / den) with h | h
    · exact .inl ⟨h, hsucc c ▸ Nat.mul_le_mul_right den h⟩
    · rcases Nat.lt_or_ge (num / den + 1) c with h' | h'
      · exact .inr (.inr (.inr ⟨h', hsucc _ ▸ hsucc _ ▸ Nat.mul_le_mul_right den h'⟩))
      · rcases Nat.eq_or_lt_of_le h with rfl | h''
        · exact .inr (.inl ⟨rfl, rfl⟩)
        · obtain rfl : c = num / den + 1 := by omega
          exact .inr (.inr (.inl ⟨rfl, hsucc _⟩))
  unfold Nearest roundHalfEven
  rw [← Nat.cast_mul, ← Nat.cast_mul]
  dsimp only
  split_ifs with hdown
  · rcases abs_cases (((num / den * den : Nat) : Int) - num) with ⟨e, _⟩ | ⟨e, _⟩ <;>
    rcases abs_cases (((c * den : Nat) : Int) - num) with ⟨e', _⟩ | ⟨e', _⟩ <;> rw [e, e'] <;> omega
  · rw [hsucc]
    rcases abs_cases (((num / den * den + den : Nat) : Int) - num) with ⟨e, _⟩ | ⟨e, _⟩ <;>
    rcases abs_cases (((c * den : Nat) : Int) - num) with ⟨e', _⟩ | ⟨e', _⟩ <;> rw [e, e'] <;> omega

/-- The magnitude of a finite number has at most 53 significant bits. -/
theorem rep_fMag (x : F64) : Rep (fMag x) := by
  have hfrac : fFrac x < 2 ^ 52 := Nat.mod_lt _ (by norm_num)
  unfold fMag
  split_ifs
  · exact ⟨fFrac x, 0, by omega, by omega⟩
  · exact ⟨2 ^ 52 + fFrac x, fExp x - 1, rfl, by omega⟩

/-- Among all representable magnitudes the rounded one is a nearest to `num / den`, with even significand if another is
equally near. -/
theorem roundVal_nearest (num den M : Nat) (hd : 0 < den) (hM : Rep M) :
    Nearest num den (roundVal num den) M (roundSig num den % 2 = 0) := by
  have below : (∃ c, M = c * 2 ^ roundShift num den) ∨ M < 2 ^ 52 * 2 ^ roundShift num den ∧
      2 ^ 52 * 2 ^ roundShift num den * den ≤ num := by
    rcases Nat.eq_zero_or_pos (roundShift num den) with hk | hk
    · exact .inl ⟨M, by rw [hk, pow_zero, Nat.mul_one]⟩
    · rw [← pow_add]
      rcases Nat.lt_or_ge M (2 ^ (52 + roundShift num den)) with h | h
      · exact .inr ⟨h, (Nat.le_div_iff_mul_le hd).mp (roundShift_bounds num den hk).1⟩
      · exact .inl (rep_multiple M _ hM h)
  rcases below with ⟨c, rfl⟩ | ⟨hlt, hle⟩
  · exact (roundHalfEven_nearest num _ c (by positivity)).scale
  · -- a magnitude below the binade is farther than the binade's lower end
    have hend := ((roundHalfEven_nearest num (den * 2 ^ roundShift num den) (2 ^ 52) (by positivity)).scale).1
    have hfar := Nat.mul_lt_mul_of_pos_right hlt hd
    have : |((2 ^ 52 * 2 ^ roundShift num den : Nat) * den : Int) - num| < |(M * den : Int) - num| := by
      rw [← Nat.cast_mul, ← Nat.cast_mul, abs_of_nonpos (by omega), abs_of_nonpos (by omega)]
      omega
    exact ⟨hend.trans this.le, fun e => absurd e (hend.trans_lt this).ne⟩

/-! ### Overflow -/

theorem roundHalfEven_le_of_lt_half {num den M : Nat} (h : 2 * num < (2 * M + 1) * den) :
    roundHalfEven num den ≤ M := by
  have hnum := Nat.div_add_mod' num den
  have hq : num / den ≤ M := by
    by_contra hlt
    have := Nat.mul_le_mul_right den (show M + 1 ≤ num / den by omega)
    rw [Nat.add_mul, Nat.one_mul] at this
    rw [Nat.add_mul, Nat.mul_assoc] at h
    omega
  unfold roundHalfEven
  dsimp only
  split_ifs with hdown
  · exact hq
  · rcases Nat.eq_or_lt_of_le hq with e | hlt
    · rw [Nat.add_mul, Nat.mul_assoc, ← e] at h
      omega
    · exact hlt

theorem lt_roundHalfEven_of_half_le {num den M : Nat} (hd : 0 < den) (hM : M % 2 = 1)
    (h : (2 * M + 1) * den ≤ 2 * num) : M < roundHalfEven num den := by
  have hnum := Nat.div_add_mod' num den
  rw [Nat.add_mul, Nat.mul_assoc] at h
  have hq : M ≤ num / den := (Nat.le_div_iff_mul_le hd).mpr (by omega)
  unfold roundHalfEven
  dsimp only
  rcases Nat.eq_or_lt_of_le hq with rfl | hlt
  · rw [if_neg (by omega)]
    exact Nat.lt_succ_self _
  · split_ifs <;> omega

/-- Half a unit above the largest finite number, whose significand is `2^53 - 1`. -/
theorem overflow_eq (den : Nat) : (2 * (2 ^ 53 - 1) + 1) * (den * 2 ^ 2045) = 2 * ((2 ^ 54 - 1) * 2 ^ 2044 * den) := by
  rw [show 2 ^ 2045 = 2 ^ 2044 * 2 from pow_succ 2 2044]
  generalize 2 ^ 2044 = u
  ring

theorem roundVal_lt_fLimit {num den : Nat} (hd : 0 < den) (h : num < (2 ^ 54 - 1) * 2 ^ 2044 * den) :
    roundVal num den < fLimit := by
  have hsig := (roundSig_bounds num den hd).2
  have hlimit : fLimit = 2 ^ 53 * 2 ^ 2045 := by rw [fLimit, ← pow_add]
  rw [roundVal, hlimit]
  rcases Nat.lt_or_ge (roundShift num den) 2045 with hk | hk
  · have hpow := Nat.pow_lt_pow_right (a := 2) (by norm_num) hk
    exact (Nat.mul_le_mul_right _ hsig).trans_lt (Nat.mul_lt_mul_of_pos_left hpow (by norm_num))
  · have hlow := (roundShift_bounds num den (by omega)).1
    have hhigh : num / den < 2 ^ 54 * 2 ^ 2044 := by
      refine ((Nat.div_lt_iff_lt_mul hd).mpr h).trans_le ?_
      exact Nat.mul_le_mul_right _ (show 2 ^ 54 - 1 ≤ 2 ^ 54 by norm_num)
    rw [← pow_add] at hhigh
    have hk' : roundShift num den = 2045 := by
      have := (Nat.pow_lt_pow_iff_right (by norm_num)).mp (hlow.trans_lt hhigh)
      omega
    have : roundSig num den ≤ 2 ^ 53 - 1 := by
      rw [roundSig, hk']
      refine roundHalfEven_le_of_lt_half ?_
      rw [overflow_eq]
      omega
    rw [hk']
    exact Nat.mul_lt_mul_of_pos_right (by omega) (Nat.two_pow_pos _)

theorem roundMag_eq_infPattern {num den : Nat} (hd : 0 < den) (h : (2 ^ 54 - 1) * 2 ^ 2044 * den ≤ num) :
    roundMag num den = infPattern := by
  rw [roundMag_eq]
  refine Nat.min_eq_right ?_
  have hq : (2 ^ 54 - 1) * 2 ^ 2044 ≤ num / den := (Nat.le_div_iff_mul_le hd).mpr h
  have hlog : 2097 ≤ Nat.log2 (num / den) := by
    have hpow : 2 ^ 2097 ≤ num / den := by
      refine le_trans ?_ hq
      rw [show 2 ^ 2097 = 2 ^ 53 * 2 ^ 2044 by rw [← pow_add]]
      exact Nat.mul_le_mul_right _ (by norm_num)
    have hpos := (Nat.two_pow_pos 2097).trans_le hpow
    exact (Nat.le_log2 hpos.ne').mpr hpow
  have hk : 2045 ≤ roundShift num den := by unfold roundShift; omega
  have hsig := (roundSig_bounds num den hd).1
  unfold infPattern
  rcases Nat.eq_or_lt_of_le hk with e | hlt
  · have : 2 ^ 53 - 1 < roundSig num den := by
      rw [roundSig, ← e]
      refine lt_roundHalfEven_of_half_le (by positivity) (by norm_num) ?_
      rw [overflow_eq]
      omega
    omega
  · omega

/-! ### The operations -/

/-- `CorrectlyRounded` by its two cases. -/
theorem correctlyRounded_iff (num den : Nat) (r : F64) :
    CorrectlyRounded num den r ↔
      (num < (2 ^ 54 - 1) * 2 ^ 2044 * den → isFinite r = true ∧ ∀ q : F64, isFinite q = true →
        Nearest num den (fMag r) (fMag q) (fFrac r % 2 = 0)) ∧
      (¬num < (2 ^ 54 - 1) * 2 ^ 2044 * den → isInf r = true) :=
  ite_prop_iff_and

/-- R141: the rounding of the operations is roundTiesToEven, with the given sign. -/
theorem roundUnits_correct (neg : Bool) (num den : Nat) (hd : 0 < den) :
    CorrectlyRounded num den (roundUnits neg num den) ∧ fSign (roundUnits neg num den) = neg := by
  rw [correctlyRounded_iff]
  refine ⟨⟨fun h => ?_, fun h => ?_⟩, fSign_roundUnits _ _ _⟩
  · have hlt := roundVal_lt_fLimit hd h
    obtain ⟨hfin, hmag⟩ := roundMag_of_lt num den hd hlt
    have hunits : fMag (roundUnits neg num den) = roundVal num den := by
      rw [roundUnits, fMag_fPack _ _ (roundMag_lt _ _), hmag]
    have hfrac : fFrac (roundUnits neg num den) % 2 = roundSig num den % 2 := by
      have hmin : roundMag num den = roundShift num den * 2 ^ 52 + roundSig num den := by
        rw [roundMag_eq] at hfin ⊢
        omega
      rw [roundUnits, fFrac_fPack _ _ (roundMag_lt _ _), hmin]
      omega
    rw [hunits, hfrac]
    exact ⟨isFinite_fPack _ _ hfin, fun q _ => roundVal_nearest num den (fMag q) hd (rep_fMag q)⟩
  · rw [roundUnits, roundMag_eq_infPattern hd (Nat.not_lt.mp h)]
    cases neg <;> decide

/-- The sum of two finite numbers is the exact one, rounded once, also where it is zero (log entry 18). -/
theorem fadd_eq_roundUnits {a b : F64} (ha : isFinite a = true) (hb : isFinite b = true) :
    fadd a b = roundUnits (if fUnits a + fUnits b = 0 then fSign a && fSign b else decide (fUnits a + fUnits b < 0))
      (fUnits a + fUnits b).natAbs 1 := by
  rw [fadd_finite a b ha hb]
  by_cases h : fUnits a + fUnits b = 0
  · simp only [h, if_pos]
    rfl
  · simp only [if_neg h]

theorem fadd_isSum {a b : F64} (ha : isFinite a = true) (hb : isFinite b = true) : IsSum a b (fadd a b) := by
  rw [fadd_eq_roundUnits ha hb]
  exact roundUnits_correct _ _ _ Nat.one_pos

theorem fsub_isDifference {a b : F64} (ha : isFinite a = true) (hb : isFinite b = true) :
    IsDifference a b (fsub a b) := by
  have h := fadd_isSum ha ((isFinite_fneg b).trans hb)
  rw [IsSum, fUnits_fneg, fSign_fneg, ← sub_eq_add_neg] at h
  exact h

theorem fmul_isProduct {a b : F64} (ha : isFinite a = true) (hb : isFinite b = true) : IsProduct a b (fmul a b) := by
  rw [fmul_finite a b ha hb]
  exact roundUnits_correct _ _ _ unitsPerOne_pos

theorem fMag_ne_zero {x : F64} (h : isZero x = false) : fMag x ≠ 0 := fun e => by
  rw [(isZero_iff_fMag x).mpr e] at h
  cases h

theorem fdiv_isQuotient {a b : F64} (ha : isFinite a = true) (hb : isFinite b = true) (h0 : isZero b = false) :
    IsQuotient a b (fdiv a b) := by
  rw [fdiv_finite a b ha hb (fMag_ne_zero h0)]
  exact roundUnits_correct _ _ _ (Nat.pos_of_ne_zero (fMag_ne_zero h0))

/-- Settles O38: each operation rounds its exact result once. -/
theorem operationsAreCorrectlyRounded : Obligations.OperationsAreCorrectlyRounded := fun _ _ ha hb =>
  ⟨fadd_isSum ha hb, fsub_isDifference ha hb, fmul_isProduct ha hb, fdiv_isQuotient ha hb⟩

/-- Settles O39: `i2f` is exact up to 2^53. -/
theorem integerConversionIsExact : Obligations.IntegerConversionIsExact := fun n h =>
  i2f_exact n (h.le.trans (by norm_num))

/-! ### Equality -/

theorem fFrac_lt (x : F64) : fFrac x < 2 ^ 52 := Nat.mod_lt _ (by norm_num)

/-- A nonzero exponent puts the magnitude into the binade of that exponent. -/
theorem fMag_binade {x : F64} (h : fExp x ≠ 0) : 2 ^ (51 + fExp x) ≤ fMag x ∧ fMag x < 2 ^ (51 + fExp x + 1) := by
  have hfrac := fFrac_lt x
  have hlow : 2 ^ (51 + fExp x) = 2 ^ 52 * 2 ^ (fExp x - 1) := by rw [← pow_add]; congr 1; omega
  rw [fMag, if_neg h, Nat.pow_succ (m := 51 + fExp x), hlow, Nat.mul_right_comm]
  exact ⟨Nat.mul_le_mul_right _ (by omega), Nat.mul_lt_mul_of_pos_right (by omega) (Nat.two_pow_pos _)⟩

theorem fMag_subnormal {x : F64} (h : fExp x = 0) : fMag x = fFrac x := if_pos h

/-- A magnitude determines the exponent: the binades of two exponents do not meet. -/
theorem fExp_le_of_fMag_eq {a b : F64} (h : fMag a = fMag b) : fExp a ≤ fExp b := by
  rcases Nat.eq_zero_or_pos (fExp a) with ha | ha
  · omega
  · have hlow := (fMag_binade ha.ne').1
    rcases Nat.eq_zero_or_pos (fExp b) with hb | hb
    · have := Nat.pow_le_pow_right (n := 2) (by norm_num) (show 52 ≤ 51 + fExp a by omega)
      have := fFrac_lt b
      rw [fMag_subnormal hb] at h
      omega
    · have := (Nat.pow_lt_pow_iff_right (by norm_num)).mp ((h ▸ hlow).trans_lt (fMag_binade hb.ne').2)
      omega

/-- A magnitude determines the fraction. -/
theorem fFrac_eq_of_fMag_eq {a b : F64} (h : fMag a = fMag b) : fFrac a = fFrac b := by
  have he : fExp a = fExp b := Nat.le_antisymm (fExp_le_of_fMag_eq h) (fExp_le_of_fMag_eq h.symm)
  rw [fMag, fMag, he] at h
  split_ifs at h
  · exact h
  · have := Nat.eq_of_mul_eq_mul_right (Nat.two_pow_pos _) h
    omega

/-- Sign and magnitude determine the pattern. -/
theorem eq_of_fSign_of_fMag {a b : F64} (hs : fSign a = fSign b) (hm : fMag a = fMag b) : a = b := by
  have he : fExp a = fExp b := Nat.le_antisymm (fExp_le_of_fMag_eq hm) (fExp_le_of_fMag_eq hm.symm)
  have hf := fFrac_eq_of_fMag_eq hm
  have ha := a.isLt
  have hb := b.isLt
  refine BitVec.eq_of_toNat_eq ?_
  rw [fSign, fSign, BitVec.msb_eq_decide, BitVec.msb_eq_decide, decide_eq_decide] at hs
  unfold fExp at he
  unfold fFrac at hf
  omega

/-- Finite numbers have equal values exactly when they are the same pattern or both are zeros. -/
theorem fUnits_eq_iff {a b : F64} : fUnits a = fUnits b ↔ a = b ∨ isZero a = true ∧ isZero b = true := by
  rw [isZero_iff_fMag, isZero_iff_fMag]
  refine ⟨fun h => ?_, ?_⟩
  · have hm : fMag a = fMag b := by rw [← fUnits_natAbs, ← fUnits_natAbs, h]
    by_cases h0 : fMag a = 0
    · exact .inr ⟨h0, hm ▸ h0⟩
    · refine .inl (eq_of_fSign_of_fMag ?_ hm)
      unfold fUnits at h
      rw [hm] at h h0
      cases ha : fSign a <;> cases hb : fSign b <;>
        simp only [ha, hb, if_true, Bool.false_eq_true, if_false] at h <;> grind
  · rintro (rfl | ⟨ha, hb⟩)
    · rfl
    · simp [fUnits, ha, hb]

/-- Settles O40: a NaN is excluded by the first two tests, and the third is equality of values. -/
theorem equalityIsIeeeEquality : Obligations.EqualityIsIeeeEquality := by
  refine ⟨by decide, fun a b => ⟨?_, fun ha hb => ?_⟩⟩
  · rintro (h | h) <;> simp [feq, h]
  · rw [fUnits_eq_iff]
    simp [feq, (isFinite_not a ha).1, (isFinite_not b hb).1]

end Sys2Proof.Machine
end

section
/-! PROOF. The fine temperature (R143, R144): up to the last product everything is exact, so two roundings remain, and
the bounds follow from those of the exact expression. -/

namespace Sys2Proof.Machine

/-! ### Exact values -/

theorem unitsPerOne_eq {k : Nat} (h : k ≤ 1074) : unitsPerOne = 2 ^ (1074 - k) * 2 ^ k := by
  rw [← pow_add, Nat.sub_add_cancel h, unitsPerOne]

theorem fLimit_pos : 0 < fLimit := by
  unfold fLimit
  exact Nat.two_pow_pos _

theorem rep_zero : Rep 0 := ⟨0, 0, rfl, by norm_num⟩

/-- Rounding depends on the ratio only. -/
theorem roundHalfEven_scale {c : Nat} (num den : Nat) (hc : 0 < c) :
    roundHalfEven (num * c) (den * c) = roundHalfEven num den := by
  unfold roundHalfEven
  have hcond : 2 * (num % den * c) < den * c ↔ 2 * (num % den) < den := by
    rw [← Nat.mul_assoc]; exact Nat.mul_lt_mul_right hc
  have hcond' : 2 * (num % den * c) = den * c ↔ 2 * (num % den) = den := by
    rw [← Nat.mul_assoc]; exact Nat.mul_left_inj hc.ne'
  simp only [Nat.mul_div_mul_right _ _ hc, Nat.mul_mod_mul_right, hcond, hcond']

theorem roundUnits_scale {c : Nat} (neg : Bool) (num den : Nat) (hc : 0 < c) :
    roundUnits neg (num * c) (den * c) = roundUnits neg num den := by
  have hmag : roundMag (num * c) (den * c) = roundMag num den := by
    unfold roundMag
    simp only [Nat.mul_div_mul_right _ _ hc, Nat.mul_right_comm den c, roundHalfEven_scale _ _ hc]
  rw [roundUnits, roundUnits, hmag]

theorem roundUnits_mul_units (neg : Bool) (m : Nat) :
    roundUnits neg (m * unitsPerOne) unitsPerOne = roundUnits neg m 1 := by
  have h := roundUnits_scale neg m 1 unitsPerOne_pos
  rwa [Nat.one_mul] at h

theorem natAbs_shift (z : Int) (j : Nat) : (z * 2 ^ j).natAbs = z.natAbs * 2 ^ j := by
  rw [Int.natAbs_mul, Int.natAbs_pow]
  rfl

/-- An integer of at most 53 bits over a power of two is a binary64. -/
theorem rep_shift {z : Int} {j : Nat} (hz : z.natAbs ≤ 2 ^ 53) : Rep (z * 2 ^ j).natAbs := by
  rw [natAbs_shift]
  exact rep_of_le _ _ hz

theorem shift_lt {z : Int} {j : Nat} (hz : z.natAbs ≤ 2 ^ 53) (hj : j < 2045) : (z * 2 ^ j).natAbs < fLimit := by
  rw [natAbs_shift, fLimit]
  refine (Nat.mul_le_mul_right _ hz).trans_lt ?_
  rw [← pow_add]
  exact Nat.pow_lt_pow_right (by norm_num) (by omega)

/-- Subtraction with an exact result. -/
theorem fsub_exact {a b : F64} (ha : isFinite a = true) (hb : isFinite b = true) (hM : Rep (fUnits a - fUnits b).natAbs)
    (hlt : (fUnits a - fUnits b).natAbs < fLimit) :
    isFinite (fsub a b) = true ∧ fUnits (fsub a b) = fUnits a - fUnits b := by
  rw [sub_eq_add_neg, ← fUnits_fneg] at hM hlt ⊢
  exact fadd_exact a (fneg b) ha ((isFinite_fneg b).trans hb) hM hlt

theorem i2f_pow (k : Nat) (h : k ≤ 53) : isFinite (i2f (2 ^ k)) = true ∧ fUnits (i2f (2 ^ k)) = 2 ^ k * unitsPerOne :=
  i2f_exact _ (by rw [Int.natAbs_pow]; exact Nat.pow_le_pow_right (by norm_num) h)

theorem fMag_i2f {n : Int} (h : n.natAbs ≤ 2 ^ 53) : fMag (i2f n) = n.natAbs * unitsPerOne := by
  rw [← fUnits_natAbs, (i2f_exact n h).2, Int.natAbs_mul, Int.natAbs_natCast]

theorem fSign_i2f (n : Int) : fSign (i2f n) = decide (n < 0) := fSign_roundUnits _ _ _

theorem fMag_ne_zero_of_fUnits {x : F64} (h : fUnits x ≠ 0) : fMag x ≠ 0 := by
  rw [← fUnits_natAbs]; exact Int.natAbs_ne_zero.mpr h

/-- Division of an integer by a power of two is exact. -/
theorem fdiv_pow_exact {m : Int} {k : Nat} (hm : m.natAbs ≤ 2 ^ 53) (hk : k ≤ 53) :
    isFinite (fdiv (i2f m) (i2f (2 ^ k))) = true ∧ fUnits (fdiv (i2f m) (i2f (2 ^ k))) = m * 2 ^ (1074 - k) := by
  obtain ⟨ha, ha'⟩ := i2f_exact m hm
  obtain ⟨hb, hb'⟩ := i2f_pow k hk
  have hu := unitsPerOne_eq (show k ≤ 1074 by omega)
  refine fdiv_exact _ _ _ ha hb (fMag_ne_zero_of_fUnits ?_) (rep_shift hm) (shift_lt hm (by omega)) ?_
  · rw [hb']
    exact_mod_cast (Nat.mul_pos (Nat.two_pow_pos k) unitsPerOne_pos).ne'
  · rw [ha', hb']
    nth_rewrite 1 [hu]
    push_cast
    ring

/-- The sign of such a quotient is that of the integer. -/
theorem fSign_fdiv_pow {m : Int} {k : Nat} (hm : m.natAbs ≤ 2 ^ 53) (hk : k ≤ 53) :
    fSign (fdiv (i2f m) (i2f (2 ^ k))) = decide (m < 0) := by
  obtain ⟨hb, hb'⟩ := i2f_pow k hk
  have hne : fUnits (i2f (2 ^ k)) ≠ 0 := by
    rw [hb']
    exact_mod_cast (Nat.mul_pos (Nat.two_pow_pos k) unitsPerOne_pos).ne'
  rw [fdiv_finite _ _ (i2f_exact m hm).1 hb (fMag_ne_zero_of_fUnits hne), fSign_roundUnits, fSign_i2f, fSign_i2f,
    decide_eq_false (pow_nonneg (by norm_num : (0 : Int) ≤ 2) k).not_gt, Bool.bne_false]

/-- The binary64 nearest to `x` units. -/
theorem ofRatio_units (x : Int) : ofRatio x unitsPerOne = roundUnits (decide (x < 0)) x.natAbs 1 :=
  roundUnits_mul_units _ _

/-! ### The difference that both lines of `comp_T` use -/

section Temperature

variable (adcT : Count) (T1 T2 T3 : Pattern)

/-- `n` of R144. -/
def tempDiff : Int := (adcT.toNat : Int) - 16 * T1.toNat

theorem tempDiff_natAbs_le : (tempDiff adcT T1).natAbs ≤ 2 ^ 20 := by
  have := adcT.isLt
  have := T1.isLt
  unfold tempDiff
  omega

/-- The difference of two quotients in `var1` and `var2`: `adc_t` over `16 c` less `T1` over `c`. -/
def scaledDiff (c : Int) : F64 := fsub (fdiv (i2f adcT.toNat) (i2f (16 * c))) (fdiv (i2f (u16 T1)) (i2f c))

/-- `var1` of `comp_T`. -/
def tempVar1 : F64 := fmul (scaledDiff adcT T1 (2 ^ 10)) (i2f (s16 T2))

/-- The square in `var2` of `comp_T`. -/
def tempSquare : F64 := fmul (scaledDiff adcT T1 (2 ^ 13)) (scaledDiff adcT T1 (2 ^ 13))

/-- `var2` of `comp_T`. -/
def tempVar2 : F64 := fmul (tempSquare adcT T1) (i2f (s16 T3))

theorem compT_snd : (compT adcT T1 T2 T3).2 = fadd (tempVar1 adcT T1 T2) (tempVar2 adcT T1 T3) := rfl

theorem compT_fst : (compT adcT T1 T2 T3).1 = fdiv (compT adcT T1 T2 T3).2 (i2f 5120) := rfl

/-- The two quotients are exact, and so is their difference; the first is no negative zero. -/
theorem scaledDiff_operands {k : Nat} (hk : k ≤ 49) :
    isFinite (fdiv (i2f adcT.toNat) (i2f (16 * 2 ^ k))) = true ∧ isFinite (fdiv (i2f (u16 T1)) (i2f (2 ^ k))) = true ∧
    fUnits (fdiv (i2f adcT.toNat) (i2f (16 * 2 ^ k))) - fUnits (fdiv (i2f (u16 T1)) (i2f (2 ^ k))) =
      tempDiff adcT T1 * 2 ^ (1070 - k) ∧
    fSign (fdiv (i2f adcT.toNat) (i2f (16 * 2 ^ k))) = false := by
  have hadc := adcT.isLt
  have hT1 := T1.isLt
  rw [show (16 * 2 ^ k : Int) = 2 ^ (k + 4) by rw [pow_add]; ring]
  obtain ⟨ha, ha'⟩ := fdiv_pow_exact (m := adcT.toNat) (k := k + 4) (by omega) (by omega)
  obtain ⟨hb, hb'⟩ := fdiv_pow_exact (m := u16 T1) (k := k) (by unfold u16; omega) (by omega)
  refine ⟨ha, hb, ?_, ?_⟩
  · rw [ha', hb', show 1074 - k = 1070 - k + 4 by omega, show 1074 - (k + 4) = 1070 - k by omega, pow_add]
    unfold tempDiff u16
    ring
  · rw [fSign_fdiv_pow (by omega) (by omega), decide_eq_false (by omega)]

theorem scaledDiff_exact {k : Nat} (hk : k ≤ 49) :
    isFinite (scaledDiff adcT T1 (2 ^ k)) = true ∧
      fUnits (scaledDiff adcT T1 (2 ^ k)) = tempDiff adcT T1 * 2 ^ (1070 - k) := by
  obtain ⟨ha, hb, hdiff, -⟩ := scaledDiff_operands adcT T1 hk
  have hle : (tempDiff adcT T1).natAbs ≤ 2 ^ 53 := (tempDiff_natAbs_le adcT T1).trans (by norm_num)
  rw [scaledDiff, ← hdiff]
  exact fsub_exact ha hb (hdiff ▸ rep_shift hle) (hdiff ▸ shift_lt hle (by omega))

/-- The difference is `+0.0` where it is zero. -/
theorem fSign_scaledDiff {k : Nat} (hk : k ≤ 49) (hn : tempDiff adcT T1 = 0) :
    fSign (scaledDiff adcT T1 (2 ^ k)) = false := by
  obtain ⟨ha, hb, hdiff, hsign⟩ := scaledDiff_operands adcT T1 hk
  rw [hn, zero_mul] at hdiff
  rw [scaledDiff, (fsub_isDifference ha hb).2, hdiff, if_pos rfl, hsign, Bool.false_and]

/-! ### The two products -/

/-- `var1` of `comp_T`: exact. -/
theorem var1_exact : isFinite (tempVar1 adcT T1 T2) = true ∧
    fUnits (tempVar1 adcT T1 T2) = tempDiff adcT T1 * s16 T2 * 2 ^ 1060 := by
  have hT2 := s16_bounds T2
  have hle : (tempDiff adcT T1 * s16 T2).natAbs ≤ 2 ^ 53 := by
    rw [Int.natAbs_mul]
    exact (Nat.mul_le_mul (tempDiff_natAbs_le adcT T1) (show (s16 T2).natAbs ≤ 2 ^ 15 by omega)).trans (by norm_num)
  obtain ⟨hd, hd'⟩ := scaledDiff_exact adcT T1 (k := 10) (by norm_num)
  obtain ⟨ht, ht'⟩ := i2f_exact (s16 T2) (by omega)
  refine fmul_exact _ _ _ hd ht (rep_shift hle) (shift_lt hle (by norm_num)) ?_
  rw [hd', ht']
  generalize (2 : Int) ^ (1070 - 10) = e
  ring

/-- The square in `var2`: exact, and no negative zero. -/
theorem square_exact :
    isFinite (tempSquare adcT T1) = true ∧
    fUnits (tempSquare adcT T1) = tempDiff adcT T1 ^ 2 * 2 ^ 1040 ∧
    fSign (tempSquare adcT T1) = false := by
  have hle : (tempDiff adcT T1 ^ 2).natAbs ≤ 2 ^ 53 := by
    rw [Int.natAbs_pow]
    exact (Nat.pow_le_pow_left (tempDiff_natAbs_le adcT T1) 2).trans (by norm_num)
  obtain ⟨hd, hd'⟩ := scaledDiff_exact adcT T1 (k := 13) (by norm_num)
  have hsquare := fmul_exact _ _ (tempDiff adcT T1 ^ 2 * 2 ^ 1040) hd hd (rep_shift hle)
    (shift_lt hle (by norm_num)) <| by
    have hpow : (2 : Int) ^ (1070 - 13) * 2 ^ (1070 - 13) = 2 ^ 1040 * unitsPerOne := by
      rw [unitsPerOne, Nat.cast_pow, ← pow_add, Nat.cast_ofNat, ← pow_add]
    rw [hd', mul_assoc (_ ^ 2), ← hpow]
    ring
  refine ⟨hsquare.1, hsquare.2, ?_⟩
  rw [tempSquare, fmul_finite _ _ hd hd, fSign_roundUnits]
  exact bne_self_eq_false _

/-- `var2` of `comp_T`: the exact `n^2 * T3 / 2^34`, rounded once. -/
theorem var2_eq : tempVar2 adcT T1 T3 =
    roundUnits (decide (s16 T3 < 0)) ((tempDiff adcT T1 ^ 2 * s16 T3).natAbs * 2 ^ 1040) 1 := by
  have hT3 := s16_bounds T3
  obtain ⟨hs, hs', hsign⟩ := square_exact adcT T1
  obtain ⟨ht, ht'⟩ := i2f_exact (s16 T3) (by omega)
  have hmag : fMag (tempSquare adcT T1) * fMag (i2f (s16 T3)) =
      (tempDiff adcT T1 ^ 2 * s16 T3).natAbs * 2 ^ 1040 * unitsPerOne := by
    rw [← fUnits_natAbs, ← fUnits_natAbs, hs', ht']
    rw [natAbs_shift, Int.natAbs_mul (s16 T3), Int.natAbs_natCast, Int.natAbs_mul]
    generalize (2 : Nat) ^ 1040 = e
    generalize unitsPerOne = u
    ring
  rw [tempVar2, fmul_finite _ _ hs ht, hsign, fSign_i2f, hmag, roundUnits_mul_units, Bool.false_bne]

theorem natAbs_sq_mul_le : (tempDiff adcT T1 ^ 2 * s16 T3).natAbs ≤ 2 ^ 55 := by
  have hT3 := s16_bounds T3
  rw [Int.natAbs_mul, Int.natAbs_pow]
  exact (Nat.mul_le_mul (Nat.pow_le_pow_left (tempDiff_natAbs_le adcT T1) 2)
    (show (s16 T3).natAbs ≤ 2 ^ 15 by omega)).trans (by norm_num)

/-- The bound of both products (R144). -/
theorem shift_units : 2 ^ 55 * 2 ^ 1040 = 2 ^ 21 * unitsPerOne := by
  rw [unitsPerOne, ← pow_add, ← pow_add]

theorem var1_le : magAtMost (tempVar1 adcT T1 T2) 21 := by
  have hT2 := s16_bounds T2
  obtain ⟨hfin, hval⟩ := var1_exact adcT T1 T2
  refine ⟨hfin, ?_⟩
  have hpow : 2 ^ 21 * unitsPerOne = 2 ^ 35 * 2 ^ 1060 := by rw [unitsPerOne, ← pow_add, ← pow_add]
  have hle : (tempDiff adcT T1).natAbs * (s16 T2).natAbs ≤ 2 ^ 35 :=
    (Nat.mul_le_mul (tempDiff_natAbs_le adcT T1) (show (s16 T2).natAbs ≤ 2 ^ 15 by omega)).trans (by norm_num)
  rw [← fUnits_natAbs, hval, natAbs_shift, Int.natAbs_mul, hpow]
  exact Nat.mul_le_mul_right _ hle

theorem var2_le : magAtMost (tempVar2 adcT T1 T3) 21 := by
  rw [var2_eq]
  refine roundUnits_le _ _ _ _ Nat.one_pos (rep_pow_units 21) (pow_units_lt 21 (by norm_num)) ?_
  rw [Nat.mul_one, ← shift_units]
  exact Nat.mul_le_mul_right _ (natAbs_sq_mul_le adcT T1 T3)

/-- `var2` does not underflow: below zero it has a value below zero. -/
theorem var2_neg (hn : tempDiff adcT T1 ≠ 0) (hT3 : s16 T3 < 0) :
    fUnits (tempVar2 adcT T1 T3) < 0 := by
  have hone : 1 ≤ (tempDiff adcT T1 ^ 2 * s16 T3).natAbs :=
    Int.natAbs_pos.mpr (mul_ne_zero (pow_ne_zero 2 hn) hT3.ne)
  have hmag := le_roundUnits (decide (s16 T3 < 0)) ((tempDiff adcT T1 ^ 2 * s16 T3).natAbs * 2 ^ 1040) 1 (2 ^ 1040)
    (2 ^ 21 * unitsPerOne) Nat.one_pos (rep_pow _) (rep_pow_units 21) (pow_units_lt 21 (by norm_num))
    (by rw [Nat.mul_one, ← shift_units]; exact Nat.mul_le_mul_right _ (natAbs_sq_mul_le adcT T1 T3))
    (by rw [Nat.mul_one]; exact Nat.le_mul_of_pos_left _ hone)
  have hpos := (Nat.two_pow_pos 1040).trans_le hmag
  rw [var2_eq, fUnits, fSign_roundUnits, decide_eq_true hT3, if_pos rfl]
  rw [decide_eq_true hT3] at hpos
  omega

/-! ### The fine temperature -/

theorem fUnits_nonpos_of_fSign {x : F64} (h : fSign x = true) : fUnits x ≤ 0 := by
  rw [fUnits, if_pos h]
  omega

/-- The nearest binary64 to the exact `var2`. -/
theorem ofRatio_var2 (hn : tempDiff adcT T1 ≠ 0) :
    ofRatio (tempDiff adcT T1 ^ 2 * s16 T3) (2 ^ 34) = tempVar2 adcT T1 T3 := by
  have hsq : 0 < tempDiff adcT T1 ^ 2 := by positivity
  have hsign : tempDiff adcT T1 ^ 2 * s16 T3 < 0 ↔ s16 T3 < 0 := by
    rw [mul_neg_iff]
    constructor
    · rintro (h | h) <;> omega
    · exact fun h => .inl ⟨hsq, h⟩
  have hscale := roundUnits_scale (decide (s16 T3 < 0)) ((tempDiff adcT T1 ^ 2 * s16 T3).natAbs * 2 ^ 1040) 1
    (Nat.two_pow_pos 34)
  rw [var2_eq, ofRatio, decide_eq_decide.mpr hsign, ← hscale, Nat.one_mul, Nat.mul_assoc,
    ← unitsPerOne_eq (show 34 ≤ 1074 by norm_num)]

/-- R144: the fine temperature where `n` is not 0. -/
theorem fine_of_ne (hn : tempDiff adcT T1 ≠ 0) : (compT adcT T1 T2 T3).2 =
    ofRatio (tempDiff adcT T1 * s16 T2 * 2 ^ 1060 + fUnits (ofRatio (tempDiff adcT T1 ^ 2 * s16 T3) (2 ^ 34)))
      unitsPerOne := by
  obtain ⟨hfin, hval⟩ := var1_exact adcT T1 T2
  rw [compT_snd, fadd_eq_roundUnits hfin (var2_le adcT T1 T3).1, ofRatio_var2 adcT T1 T3 hn, ofRatio_units, ← hval]
  congr 1
  split_ifs with hzero
  · -- a sum of zero has no two negative addends, since a negative `var2` has a value below zero
    rw [hzero]
    by_contra hneg
    have hneg : (fSign (tempVar1 adcT T1 T2) && fSign (tempVar2 adcT T1 T3)) = true := by simpa using hneg
    obtain ⟨h1, h2⟩ := Bool.and_eq_true_iff.mp hneg
    rw [var2_eq, fSign_roundUnits, decide_eq_true_eq] at h2
    have := var2_neg adcT T1 T3 hn h2
    have := fUnits_nonpos_of_fSign h1
    omega
  · rfl

/-- R142: the fine temperature where `n` is 0. -/
theorem fine_of_eq (hn : tempDiff adcT T1 = 0) : (compT adcT T1 T2 T3).2 =
    if s16 T2 < 0 ∧ s16 T3 < 0 then 0x8000000000000000 else 0x0000000000000000 := by
  have hT2 := s16_bounds T2
  obtain ⟨hfin, hval⟩ := var1_exact adcT T1 T2
  have hzero : fUnits (tempVar1 adcT T1 T2) + fUnits (tempVar2 adcT T1 T3) = 0 := by
    have hmag : fMag (tempVar2 adcT T1 T3) ≤ 0 := by
      rw [var2_eq, hn]
      exact (roundUnits_le _ _ 1 0 Nat.one_pos rep_zero fLimit_pos (by simp)).2
    rw [← fUnits_natAbs] at hmag
    rw [hval, hn, zero_mul, zero_mul]
    omega
  have h1 : fSign (tempVar1 adcT T1 T2) = decide (s16 T2 < 0) := by
    rw [tempVar1, fmul_finite _ _ (scaledDiff_exact adcT T1 (by norm_num)).1 (i2f_exact _ (by omega)).1,
      fSign_roundUnits, fSign_scaledDiff adcT T1 (by norm_num) hn, fSign_i2f, Bool.false_bne]
  have h2 : fSign (tempVar2 adcT T1 T3) = decide (s16 T3 < 0) := by rw [var2_eq, fSign_roundUnits]
  rw [compT_snd, fadd_finite _ _ hfin (var2_le adcT T1 T3).1, if_pos hzero, h1, h2, ← Bool.decide_and]
  split_ifs with h
  · rw [decide_eq_true h]; rfl
  · rw [decide_eq_false h]; rfl

/-- Settles O41: where `n` is not 0 the last two operations round, and where it is 0 both addends are zeros. -/
theorem fineTemperatureIsTwoRoundings : Obligations.FineTemperatureIsTwoRoundings := fun adcT T1 T2 T3 =>
  ⟨fine_of_ne adcT T1 T2 T3, fine_of_eq adcT T1 T2 T3, rfl⟩

/-! ### The bounds -/

theorem fine_le : magAtMost (compT adcT T1 T2 T3).2 22 := by
  obtain ⟨hfin1, hmag1⟩ := var1_le adcT T1 T2
  obtain ⟨hfin2, hmag2⟩ := var2_le adcT T1 T3
  rw [compT_snd]
  refine fadd_le _ _ _ hfin1 hfin2 (rep_pow_units 22) (pow_units_lt 22 (by norm_num)) ?_
  rw [← fUnits_natAbs] at hmag1 hmag2
  omega

/-- 819.25 is above the quotient of 2^22 by 5120. -/
theorem celsius_le : isFinite (compT adcT T1 T2 T3).1 = true ∧
    fMag (compT adcT T1 T2 T3).1 ≤ 3277 * 2 ^ (1074 - 2) := by
  obtain ⟨hfin, hmag⟩ := fine_le adcT T1 T2 T3
  have hdiv : fMag (i2f 5120) = 5120 * unitsPerOne := by
    rw [fMag_i2f (by norm_num), show (5120 : Int).natAbs = 5120 from rfl]
  have hne := Nat.mul_pos (show 0 < 5120 by norm_num) unitsPerOne_pos
  have hunits := unitsPerOne_eq (show 2 ≤ 1074 by norm_num)
  have hlt := pow_units_lt 10 (by norm_num)
  rw [compT_fst]
  refine fdiv_le _ _ _ hfin (i2f_exact 5120 (by norm_num)).1 (hdiv ▸ hne.ne') (rep_of_le 3277 _ (by norm_num)) ?_ ?_
  · omega
  · rw [hdiv, ← Nat.mul_assoc]
    refine Nat.mul_le_mul_right _ (hmag.trans ?_)
    omega

/-- Settles O42: the bounds of the two products, then of their sum, then of its quotient. -/
theorem temperatureIsBounded : Obligations.TemperatureIsBounded := fun adcT T1 T2 T3 => by
  obtain ⟨hfin, hmag⟩ := celsius_le adcT T1 T2 T3
  have hunits := unitsPerOne_eq (show 2 ≤ 1074 by norm_num)
  have hpos := Nat.two_pow_pos (1074 - 2)
  refine ⟨fine_le adcT T1 T2 T3, hfin, hmag.trans_lt ?_⟩
  omega

end Temperature
end Sys2Proof.Machine
end

section
/-! PROOF. The pressure (R146 to R148): bounds of the operations, what the divisor `v1c` can be, and `comp_P` line by
line, each line as the operations R146 lists and the bound of its value. -/

namespace Sys2Proof.Machine

/-! ### Bounds of the operations -/

section Bounds

variable {a b : F64} {i j : Nat}

theorem i2f_le {n : Int} (j : Nat) (h : n.natAbs ≤ 2 ^ j) (hj : j ≤ 53 := by norm_num) : magAtMost (i2f n) j := by
  have hle : n.natAbs ≤ 2 ^ 53 := h.trans (Nat.pow_le_pow_right (by norm_num) hj)
  rw [magAtMost, fMag_i2f hle]
  exact ⟨(i2f_exact n hle).1, Nat.mul_le_mul_right _ h⟩

/-- The exact product of two bounded numbers. -/
theorem fMag_mul_le (n : Nat) (ha : magAtMost a i) (hb : magAtMost b j) (h : i + j ≤ n) :
    fMag a * fMag b ≤ 2 ^ n * unitsPerOne * unitsPerOne :=
  calc fMag a * fMag b ≤ 2 ^ i * unitsPerOne * (2 ^ j * unitsPerOne) := Nat.mul_le_mul ha.2 hb.2
    _ = 2 ^ (i + j) * unitsPerOne * unitsPerOne := by rw [pow_add]; ring
    _ ≤ 2 ^ n * unitsPerOne * unitsPerOne :=
      Nat.mul_le_mul_right _ (Nat.mul_le_mul_right _ (Nat.pow_le_pow_right (by norm_num) h))

theorem product_le (n : Nat) (ha : magAtMost a i) (hb : magAtMost b j) (h : i + j ≤ n ∧ n < 1024 := by norm_num) :
    magAtMost (fmul a b) n ∧ IsProduct a b (fmul a b) :=
  ⟨fmul_le _ _ _ ha.1 hb.1 (rep_pow_units n) (pow_units_lt n h.2) (fMag_mul_le n ha hb h.1), fmul_isProduct ha.1 hb.1⟩

theorem product_ge (n : Nat) {M : Nat} (ha : magAtMost a i) (hb : magAtMost b j) (hM : Rep M)
    (hlow : M * unitsPerOne ≤ fMag a * fMag b) (h : i + j ≤ n ∧ n < 1024 := by norm_num) : M ≤ fMag (fmul a b) := by
  rw [fmul_finite _ _ ha.1 hb.1]
  exact le_roundUnits _ _ _ M _ unitsPerOne_pos hM (rep_pow_units n) (pow_units_lt n h.2) (fMag_mul_le n ha hb h.1) hlow

theorem fMag_fmul_of_zero (ha : isFinite a = true) (hb : isFinite b = true) (h : fMag a = 0 ∨ fMag b = 0) :
    fMag (fmul a b) = 0 :=
  Nat.le_zero.mp (fmul_le a b 0 ha hb rep_zero fLimit_pos
    ((Nat.mul_eq_zero.mpr h).trans_le (Nat.zero_le _))).2

/-- The exact sum of two bounded numbers. -/
theorem natAbs_add_le (n : Nat) (ha : magAtMost a i) (hb : magAtMost b j) (h : i < n ∧ j < n) :
    (fUnits a + fUnits b).natAbs ≤ 2 ^ n * unitsPerOne := by
  have hdouble : 2 ^ (n - 1) * unitsPerOne + 2 ^ (n - 1) * unitsPerOne = 2 ^ n * unitsPerOne := by
    rw [← Nat.two_mul, ← Nat.mul_assoc, ← Nat.pow_succ', Nat.succ_eq_add_one, Nat.sub_add_cancel (by omega)]
  have hpow {k : Nat} (hk : k < n) : 2 ^ k * unitsPerOne ≤ 2 ^ (n - 1) * unitsPerOne :=
    Nat.mul_le_mul_right _ (Nat.pow_le_pow_right (by norm_num) (by omega))
  have hmagA := ha.2.trans (hpow h.1)
  have hmagB := hb.2.trans (hpow h.2)
  rw [← fUnits_natAbs] at hmagA hmagB
  omega

theorem sum_le (n : Nat) (ha : magAtMost a i) (hb : magAtMost b j) (h : (i < n ∧ j < n) ∧ n < 1024 := by norm_num) :
    magAtMost (fadd a b) n ∧ IsSum a b (fadd a b) :=
  ⟨fadd_le _ _ _ ha.1 hb.1 (rep_pow_units n) (pow_units_lt n h.2) (natAbs_add_le n ha hb h.1), fadd_isSum ha.1 hb.1⟩

theorem difference_le (n : Nat) (ha : magAtMost a i) (hb : magAtMost b j)
    (h : (i < n ∧ j < n) ∧ n < 1024 := by norm_num) :
    magAtMost (fsub a b) n ∧ IsDifference a b (fsub a b) := by
  have hneg : magAtMost (fneg b) j := by rwa [magAtMost, isFinite_fneg, fMag_fneg]
  exact ⟨(sum_le n ha hneg h).1, fsub_isDifference ha.1 hb.1⟩

/-- A quotient by a divisor of at least `2^-d`. -/
theorem quotient_le (n d : Nat) (ha : magAtMost a i) (hb : isFinite b = true) (hlow : unitsPerOne ≤ fMag b * 2 ^ d)
    (h : i + d ≤ n ∧ n < 1024 := by norm_num) : magAtMost (fdiv a b) n ∧ IsQuotient a b (fdiv a b) := by
  have h0 : fMag b ≠ 0 := fun e => by
    have := unitsPerOne_pos
    rw [e] at hlow
    omega
  refine ⟨fdiv_le _ _ _ ha.1 hb h0 (rep_pow_units n) (pow_units_lt n h.2) ?_, fdiv_isQuotient ha.1 hb ?_⟩
  · calc fMag a * unitsPerOne ≤ 2 ^ i * unitsPerOne * (fMag b * 2 ^ d) := Nat.mul_le_mul ha.2 hlow
      _ = 2 ^ (i + d) * unitsPerOne * fMag b := by rw [pow_add]; ring
      _ ≤ 2 ^ n * unitsPerOne * fMag b :=
        Nat.mul_le_mul_right _ (Nat.mul_le_mul_right _ (Nat.pow_le_pow_right (by norm_num) h.1))
  · rw [Bool.eq_false_iff]
    exact fun e => h0 ((isZero_iff_fMag b).mp e)

/-- A quotient by a positive integer. -/
theorem quotient_i2f_le {n : Int} (ha : magAtMost a i) (hn : 1 ≤ n ∧ n ≤ 2 ^ 53 := by norm_num)
    (hi : i < 1024 := by norm_num) : magAtMost (fdiv a (i2f n)) i ∧ IsQuotient a (i2f n) (fdiv a (i2f n)) := by
  refine quotient_le i 0 ha (i2f_exact n (by omega)).1 ?_ ⟨Nat.le_refl i, hi⟩
  rw [fMag_i2f (by omega), pow_zero, Nat.mul_one]
  exact Nat.le_mul_of_pos_left _ (by omega)

end Bounds

/-! ### The divisor -/

/-- R147: of the numbers a division by 32768 takes to `-1`, `-32768` is the only one. -/
theorem fUnits_fdiv_eq_neg_one_iff {x : F64} (hx : magAtMost x 62) :
    fUnits (fdiv x (i2f 32768)) = -unitsPerOne ↔ fUnits x = -32768 * unitsPerOne := by
  obtain ⟨hb, hb'⟩ := i2f_exact 32768 (by norm_num)
  have hmagB : fMag (i2f 32768) = 32768 * unitsPerOne := by
    rw [fMag_i2f (by norm_num), show (32768 : Int).natAbs = 32768 from rfl]
  have hpos := unitsPerOne_pos
  have hne : fMag (i2f 32768) ≠ 0 := by omega
  constructor
  · have hquot : fdiv x (i2f 32768) = roundUnits (fSign x) (fMag x) 32768 := by
      rw [fdiv_finite _ _ hx.1 hb hne, hmagB, roundUnits_scale _ _ _ hpos, fSign_i2f,
        decide_eq_false (by norm_num), Bool.bne_false]
    intro h
    have hmag : fMag (roundUnits (fSign x) (fMag x) 32768) = unitsPerOne := by
      rw [← hquot, ← fUnits_natAbs, h, Int.natAbs_neg, Int.natAbs_natCast]
    have hsign : fSign x = true := by
      by_contra hs
      rw [hquot, fUnits, fSign_roundUnits, if_neg hs] at h
      omega
    obtain ⟨c, j, hc, hc53⟩ := rep_fMag x
    rcases Nat.lt_or_ge j 15 with hj | hj
    · -- so small a number has no quotient near 1
      have hsmall : fMag x ≤ 2 ^ 68 := by
        rw [hc]
        exact (Nat.mul_le_mul hc53 (Nat.pow_le_pow_right (by norm_num) hj.le)).trans (by norm_num)
      have hle := (roundUnits_le (fSign x) (fMag x) 32768 (2 ^ 68) (by norm_num) (rep_pow 68)
        (Nat.pow_lt_pow_right (by norm_num) (by norm_num)) (by omega)).2
      have hlt : 2 ^ 68 < unitsPerOne := Nat.pow_lt_pow_right (by norm_num) (by norm_num)
      omega
    · -- the quotient is exact
      have hexact : fMag x = c * 2 ^ (j - 15) * 32768 := by
        rw [hc, show 32768 = 2 ^ 15 from rfl, Nat.mul_assoc, ← pow_add, Nat.sub_add_cancel hj]
      have hlt := pow_units_lt 62 (by norm_num)
      have := hx.2
      have hq := (roundUnits_exact (fSign x) (fMag x) 32768 _ (by norm_num) (rep_of_le c (j - 15) hc53) (by omega)
        hexact).2
      rw [fUnits, hsign, if_pos rfl]
      omega
  · intro h
    have hrep := rep_pow_units 0
    have hlt := pow_units_lt 0 (by norm_num)
    have habs : (-(unitsPerOne : Int)).natAbs = 2 ^ 0 * unitsPerOne := by omega
    refine (fdiv_exact x _ (-(unitsPerOne : Int)) hx.1 hb hne (habs ▸ hrep) (habs ▸ hlt) ?_).2
    rw [h, hb']
    ring

theorem fMag_one_add_of_eq {r : F64} (hr : isFinite r = true) (h : fUnits r = -unitsPerOne) :
    fMag (fadd (i2f 1) r) = 0 := by
  obtain ⟨hfin, hone⟩ := i2f_exact 1 (by norm_num)
  have hsum : fUnits (i2f 1) + fUnits r = 0 := by rw [hone, h, Int.one_mul, Int.add_right_neg]
  have hexact := (fadd_exact (i2f 1) r hfin hr (hsum ▸ rep_zero) (hsum ▸ fLimit_pos)).2
  rw [← fUnits_natAbs, hexact, hsum]
  rfl

/-- R146: `1.0 + r` is a zero only at `r = -1`, and else at least 2^-53. -/
theorem one_add_low {r : F64} (hr : magAtMost r 62) (hne : fUnits r ≠ -unitsPerOne) :
    unitsPerOne ≤ fMag (fadd (i2f 1) r) * 2 ^ 53 := by
  have hone : fUnits (i2f 1) = unitsPerOne := by rw [(i2f_exact 1 (by norm_num)).2, Int.one_mul]
  have hunits := unitsPerOne_eq (show 53 ≤ 1074 by norm_num)
  have hfin := (i2f_le (n := 1) 0 (by norm_num)).1
  have hhigh := natAbs_add_le 63 (i2f_le (n := 1) 0 (by norm_num)) hr (by norm_num)
  -- `1 + r` is a nonzero multiple of 2^-53, or `r` is below one half
  have hlow : 2 ^ (1074 - 53) ≤ (fUnits (i2f 1) + fUnits r).natAbs := by
    have habs := fUnits_natAbs r
    rw [hone]
    rcases Nat.lt_or_ge (fMag r) (2 ^ (52 + (1074 - 53))) with h | h
    · rw [pow_add] at h
      omega
    · obtain ⟨c, hc⟩ := rep_multiple _ _ (rep_fMag r) h
      have hmul : ∃ z : Int, fUnits r = z * 2 ^ (1074 - 53) := by
        rcases Int.natAbs_eq (fUnits r) with e | e
        · exact ⟨c, by rw [e, habs, hc]; rw [Nat.cast_mul, Nat.cast_pow]; rfl⟩
        · exact ⟨-c, by rw [e, habs, hc]; push_cast; ring⟩
      obtain ⟨z, hz⟩ := hmul
      have hsum : (unitsPerOne : Int) + fUnits r = (2 ^ 53 + z) * 2 ^ (1074 - 53) := by
        rw [hz, hunits]; push_cast; ring
      have hz0 : 2 ^ 53 + z ≠ 0 := fun e => by
        rw [e, Int.zero_mul] at hsum
        omega
      rw [hsum, natAbs_shift]
      exact Nat.le_mul_of_pos_left _ (Int.natAbs_pos.mpr hz0)
  have hne0 : fUnits (i2f 1) + fUnits r ≠ 0 := by omega
  have hrep := rep_pow (1074 - 53)
  rw [fadd_finite _ _ hfin hr.1, if_neg hne0]
  generalize 2 ^ (1074 - 53) = e at *
  have hround := le_roundUnits (decide (fUnits (i2f 1) + fUnits r < 0)) (fUnits (i2f 1) + fUnits r).natAbs 1 e _
    Nat.one_pos hrep (rep_pow_units 63) (pow_units_lt 63 (by norm_num)) (hhigh.trans_eq (Nat.mul_one _).symm)
    ((Nat.mul_one e).trans_le hlow)
  omega

/-! ### The lines of `comp_P` (R146) -/

section Pressure

variable {tf : F64} (c : Cal)

theorem s16_natAbs_le (r : Pattern) : (s16 r).natAbs ≤ 2 ^ 15 := by
  have := s16_bounds r
  omega

/-- A coefficient as a binary64. -/
theorem i2f_s16_le (r : Pattern) : magAtMost (i2f (s16 r)) 15 := i2f_le 15 (s16_natAbs_le r)

/-- Line 1: `v1`. -/
theorem line1 (htf : magAtMost tf 22) : magAtMost (compPLines1to3 tf c).1 23 ∧
    ∃ h, IsQuotient tf (i2f 2) h ∧ IsDifference h (i2f 64000) (compPLines1to3 tf c).1 := by
  obtain ⟨hh, isH⟩ := quotient_i2f_le (n := 2) htf
  obtain ⟨hv1, isV1⟩ := difference_le 23 hh (i2f_le (n := 64000) 16 (by norm_num))
  exact ⟨hv1, _, isH, isV1⟩

/-- Lines 2 and 3: `v2b`. -/
theorem lines2and3 (htf : magAtMost tf 22) : magAtMost (compPLines1to3 tf c).2 63 ∧
    ∃ m1 m2 m3 m4 m5 v2 m6 m7, IsProduct (compPLines1to3 tf c).1 (compPLines1to3 tf c).1 m1 ∧
      IsProduct m1 (i2f (s16 c.p6)) m2 ∧ IsQuotient m2 (i2f 32768) m3 ∧
      IsProduct (compPLines1to3 tf c).1 (i2f (s16 c.p5)) m4 ∧ IsProduct m4 (i2f 2) m5 ∧ IsSum m3 m5 v2 ∧
      IsQuotient v2 (i2f 4) m6 ∧ IsProduct (i2f (s16 c.p4)) (i2f 65536) m7 ∧
      IsSum m6 m7 (compPLines1to3 tf c).2 := by
  obtain ⟨hv1, -⟩ := line1 c htf
  obtain ⟨hm1, isM1⟩ := product_le 46 hv1 hv1
  obtain ⟨hm2, isM2⟩ := product_le 61 hm1 (i2f_s16_le c.p6)
  obtain ⟨hm3, isM3⟩ := quotient_i2f_le (n := 32768) hm2
  obtain ⟨hm4, isM4⟩ := product_le 38 hv1 (i2f_s16_le c.p5)
  obtain ⟨hm5, isM5⟩ := product_le 39 hm4 (i2f_le (n := 2) 1 (by norm_num))
  obtain ⟨hv2, isV2⟩ := sum_le 62 hm3 hm5
  obtain ⟨hm6, isM6⟩ := quotient_i2f_le (n := 4) hv2
  obtain ⟨hm7, isM7⟩ := product_le 31 (i2f_s16_le c.p4) (i2f_le (n := 65536) 16 (by norm_num))
  obtain ⟨hv2b, isV2b⟩ := sum_le 63 hm6 hm7
  exact ⟨hv2b, _, _, _, _, _, _, _, _, isM1, isM2, isM3, isM4, isM5, isV2, isM6, isM7, isV2b⟩

/-- Line 4: `v1b`. -/
theorem line4 (htf : magAtMost tf 22) : magAtMost (compPV1b tf c) 62 ∧
    ∃ n1 n2 n3 n4 n5, IsProduct (i2f (s16 c.p3)) (compPLines1to3 tf c).1 n1 ∧
      IsProduct n1 (compPLines1to3 tf c).1 n2 ∧ IsQuotient n2 (i2f 524288) n3 ∧
      IsProduct (i2f (s16 c.p2)) (compPLines1to3 tf c).1 n4 ∧ IsSum n3 n4 n5 ∧
      IsQuotient n5 (i2f 524288) (compPV1b tf c) := by
  obtain ⟨hv1, -⟩ := line1 c htf
  obtain ⟨hn1, isN1⟩ := product_le 38 (i2f_s16_le c.p3) hv1
  obtain ⟨hn2, isN2⟩ := product_le 61 hn1 hv1
  obtain ⟨hn3, isN3⟩ := quotient_i2f_le (n := 524288) hn2
  obtain ⟨hn4, isN4⟩ := product_le 38 (i2f_s16_le c.p2) hv1
  obtain ⟨hn5, isN5⟩ := sum_le 62 hn3 hn4
  obtain ⟨hv1b, isV1b⟩ := quotient_i2f_le (n := 524288) hn5
  exact ⟨hv1b, _, _, _, _, _, isN1, isN2, isN3, isN4, isN5, isV1b⟩

/-- `P1` as a binary64. -/
theorem i2f_p1_le : magAtMost (i2f c.p1.toNat) 16 := i2f_le 16 (by have := c.p1.isLt; omega)

theorem fMag_p1 : fMag (i2f c.p1.toNat) = c.p1.toNat * unitsPerOne := fMag_i2f (by have := c.p1.isLt; omega)

/-- `1.0 + r1` of line 5. -/
theorem line5_sum (htf : magAtMost tf 22) : magAtMost (fadd (i2f 1) (fdiv (compPV1b tf c) (i2f 32768))) 63 ∧
    ∃ r1, IsQuotient (compPV1b tf c) (i2f 32768) r1 ∧
      IsSum (i2f 1) r1 (fadd (i2f 1) (fdiv (compPV1b tf c) (i2f 32768))) := by
  obtain ⟨hr1, isR1⟩ := quotient_i2f_le (n := 32768) (line4 c htf).1
  obtain ⟨hr2, isR2⟩ := sum_le 63 (i2f_le (n := 1) 0 (by norm_num)) hr1
  exact ⟨hr2, _, isR1, isR2⟩

/-- Line 5: the divisor `v1c`. -/
theorem line5 (htf : magAtMost tf 22) : magAtMost (compPDivisor tf c) 79 ∧
    ∃ r1 r2, IsQuotient (compPV1b tf c) (i2f 32768) r1 ∧ IsSum (i2f 1) r1 r2 ∧
      IsProduct r2 (i2f c.p1.toNat) (compPDivisor tf c) := by
  obtain ⟨hr2, r1, isR1, isR2⟩ := line5_sum c htf
  obtain ⟨hv1c, isV1c⟩ := product_le 79 hr2 (i2f_p1_le c)
  exact ⟨hv1c, _, _, isR1, isR2, isV1c⟩

/-- R147: `P1` no zero and `v1b` not -32768 keep the divisor away from zero. -/
theorem divisor_low (htf : magAtMost tf 22) (hp1 : c.p1 ≠ 0) (hv1b : fUnits (compPV1b tf c) ≠ -32768 * unitsPerOne) :
    unitsPerOne ≤ fMag (compPDivisor tf c) * 2 ^ 53 := by
  have hr1 := (quotient_i2f_le (n := 32768) (line4 c htf).1).1
  have hr2 := one_add_low hr1 fun e => hv1b ((fUnits_fdiv_eq_neg_one_iff (line4 c htf).1).mp e)
  have hunits := unitsPerOne_eq (show 53 ≤ 1074 by norm_num)
  have hp1pos : 0 < c.p1.toNat := Nat.pos_of_ne_zero fun e => hp1 (BitVec.eq_of_toNat_eq e)
  have hle : 2 ^ (1074 - 53) ≤ fMag (fadd (i2f 1) (fdiv (compPV1b tf c) (i2f 32768))) := by
    generalize 2 ^ (1074 - 53) = e at *
    omega
  have hlow := product_ge 79 (line5_sum c htf).1 (i2f_p1_le c) (rep_pow (1074 - 53)) <| by
    rw [fMag_p1]
    exact Nat.mul_le_mul hle (Nat.le_mul_of_pos_left _ hp1pos)
  rw [hunits]
  exact Nat.mul_le_mul_right _ hlow

/-- R147: the divisor is a zero exactly when a factor is. -/
theorem divisor_isZero_iff (htf : magAtMost tf 22) : isZero (compPDivisor tf c) = true ↔
    c.p1 = 0 ∨ fUnits (compPV1b tf c) = -32768 * unitsPerOne := by
  rw [isZero_iff_fMag]
  constructor
  · intro hzero
    by_contra hne
    obtain ⟨hp1, hv1b⟩ := not_or.mp hne
    have hlow := divisor_low c htf hp1 hv1b
    have := unitsPerOne_pos
    rw [hzero] at hlow
    omega
  · intro h
    refine fMag_fmul_of_zero (line5_sum c htf).1.1 (i2f_p1_le c).1 ?_
    rcases h with h | h
    · have hzero : c.p1.toNat = 0 := congrArg BitVec.toNat h
      exact .inr ((fMag_p1 c).trans (by rw [hzero, Nat.zero_mul]))
    · exact .inl (fMag_one_add_of_eq (quotient_i2f_le (line4 c htf).1).1.1
        ((fUnits_fdiv_eq_neg_one_iff (line4 c htf).1).mpr h))

theorem compP_eq_none_iff (adcP : Count) (htf : magAtMost tf 22) :
    compP adcP tf c = none ↔ isZero (compPDivisor tf c) = true := by
  have hzero : feq (compPDivisor tf c) (i2f 0) = true ↔ isZero (compPDivisor tf c) = true := by
    rw [(equalityIsIeeeEquality.2 _ _).2 (line5 c htf).1.1 (i2f_exact 0 (by norm_num)).1,
      (i2f_exact 0 (by norm_num)).2, isZero_iff_fMag, ← fUnits_natAbs, Int.zero_mul, Int.natAbs_eq_zero]
  rw [← hzero, compP]
  split_ifs with h <;> simp [h]

/-- Settles O45: `comp_P` tests the divisor for a zero, and the divisor is one exactly when a factor is. -/
theorem arithmeticErrorExactlyOnZeroDivisor : Obligations.ArithmeticErrorExactlyOnZeroDivisor := fun adcP _ c htf =>
  ⟨compP_eq_none_iff c adcP htf, (compP_eq_none_iff c adcP htf).trans (divisor_isZero_iff c htf)⟩

/-- Lines 6 to 10: the pressure, by a divisor that is no zero. -/
theorem lines6to10 (adcP : Count) {v2b v1c : F64} (hv2b : magAtMost v2b 63) (hv1c : isFinite v1c = true)
    (hlow : unitsPerOne ≤ fMag v1c * 2 ^ 53) :
    ∃ pa k1 k2 k3 p w1 w2 v1d w3 v2c s1 s2 s3 s4 : F64,
      IsDifference (i2f 1048576) (i2f adcP.toNat) pa ∧ IsQuotient v2b (i2f 4096) k1 ∧ IsDifference pa k1 k2 ∧
      IsProduct k2 (i2f 6250) k3 ∧ IsQuotient k3 v1c p ∧ IsProduct (i2f (s16 c.p9)) p w1 ∧ IsProduct w1 p w2 ∧
      IsQuotient w2 (i2f 2147483648) v1d ∧ IsProduct p (i2f (s16 c.p8)) w3 ∧ IsQuotient w3 (i2f 32768) v2c ∧
      IsSum v1d v2c s1 ∧ IsSum s1 (i2f (s16 c.p7)) s2 ∧ IsQuotient s2 (i2f 16) s3 ∧ IsSum p s3 s4 ∧
      IsQuotient s4 (i2f 100) (compPLines6to10 adcP v2b v1c c) ∧
      isFinite (compPLines6to10 adcP v2b v1c c) = true := by
  have hadc : magAtMost (i2f adcP.toNat) 20 := i2f_le 20 (by have := adcP.isLt; omega)
  obtain ⟨hpa, isPa⟩ := difference_le 21 (i2f_le (n := 1048576) 20 (by norm_num)) hadc
  obtain ⟨hk1, isK1⟩ := quotient_i2f_le (n := 4096) hv2b
  obtain ⟨hk2, isK2⟩ := difference_le 64 hpa hk1
  obtain ⟨hk3, isK3⟩ := product_le 77 hk2 (i2f_le (n := 6250) 13 (by norm_num))
  obtain ⟨hp, isP⟩ := quotient_le 130 53 hk3 hv1c hlow
  obtain ⟨hw1, isW1⟩ := product_le 145 (i2f_s16_le c.p9) hp
  obtain ⟨hw2, isW2⟩ := product_le 275 hw1 hp
  obtain ⟨hv1d, isV1d⟩ := quotient_i2f_le (n := 2147483648) hw2
  obtain ⟨hw3, isW3⟩ := product_le 145 hp (i2f_s16_le c.p8)
  obtain ⟨hv2c, isV2c⟩ := quotient_i2f_le (n := 32768) hw3
  obtain ⟨hs1, isS1⟩ := sum_le 276 hv1d hv2c
  obtain ⟨hs2, isS2⟩ := sum_le 277 hs1 (i2f_s16_le c.p7)
  obtain ⟨hs3, isS3⟩ := quotient_i2f_le (n := 16) hs2
  obtain ⟨hs4, isS4⟩ := sum_le 278 hp hs3
  obtain ⟨hhpa, isHpa⟩ := quotient_i2f_le (n := 100) hs4
  exact ⟨_, _, _, _, _, _, _, _, _, _, _, _, _, _, isPa, isK1, isK2, isK3, isP, isW1, isW2, isV1d, isW3, isV2c,
    isS1, isS2, isS3, isS4, isHpa, hhpa.1⟩

/-- R147: a divisor that is no zero is at least 2^-53. -/
theorem divisor_low_of_not_zero (htf : magAtMost tf 22) (h : isZero (compPDivisor tf c) = false) :
    unitsPerOne ≤ fMag (compPDivisor tf c) * 2 ^ 53 := by
  obtain ⟨hp1, hv1b⟩ := not_or.mp ((divisor_isZero_iff c htf).not.mp (Bool.eq_false_iff.mp h))
  exact divisor_low c htf hp1 hv1b

theorem compP_of_not_zero (adcP : Count) (htf : magAtMost tf 22) (h : isZero (compPDivisor tf c) = false) :
    compP adcP tf c = some (compPLines6to10 adcP (compPLines1to3 tf c).2 (compPDivisor tf c) c) := by
  have hne := (compP_eq_none_iff c adcP htf).not.mpr (Bool.eq_false_iff.mp h)
  unfold compP at hne ⊢
  split_ifs at hne ⊢
  · exact absurd rfl hne
  · rfl

/-- Settles O60: the lines one after the other, each as its operations. -/
theorem pressureIsTheListedOperations : Obligations.PressureIsTheListedOperations := by
  intro adcP tf c htf
  obtain ⟨-, h, isH, isV1⟩ := line1 c htf
  obtain ⟨hv2b, m1, m2, m3, m4, m5, v2, m6, m7, isM1, isM2, isM3, isM4, isM5, isV2, isM6, isM7, isV2b⟩ :=
    lines2and3 c htf
  obtain ⟨-, n1, n2, n3, n4, n5, isN1, isN2, isN3, isN4, isN5, isV1b⟩ := line4 c htf
  obtain ⟨hv1c, r1, r2, isR1, isR2, isV1c⟩ := line5 c htf
  refine ⟨h, _, m1, m2, m3, m4, m5, v2, m6, m7, _, n1, n2, n3, n4, n5, _, r1, r2, _, isH, isV1, isM1, isM2, isM3, isM4,
    isM5, isV2, isM6, isM7, isV2b, isN1, isN2, isN3, isN4, isN5, isV1b, isR1, isR2, isV1c,
    (compP_eq_none_iff c adcP htf).mpr, fun hzero => ?_⟩
  obtain ⟨pa, k1, k2, k3, p, w1, w2, v1d, w3, v2c, s1, s2, s3, s4, isPa, isK1, isK2, isK3, isP, isW1, isW2, isV1d, isW3,
    isV2c, isS1, isS2, isS3, isS4, isHpa, hfin⟩ := lines6to10 c adcP hv2b hv1c.1 (divisor_low_of_not_zero c htf hzero)
  exact ⟨pa, k1, k2, k3, p, w1, w2, v1d, w3, v2c, s1, s2, s3, s4, _, isPa, isK1, isK2, isK3, isP, isW1, isW2, isV1d,
    isW3, isV2c, isS1, isS2, isS3, isS4, isHpa, hfin, compP_of_not_zero c adcP htf hzero⟩

/-- Settles O46: a value is the last of the listed operations. -/
theorem pressureIsFinite : Obligations.PressureIsFinite := by
  intro adcP tf c x htf hx
  have hzero : isZero (compPDivisor tf c) = false := by
    rw [Bool.eq_false_iff]
    intro h
    rw [(compP_eq_none_iff c adcP htf).mpr h] at hx
    cases hx
  rw [compP_of_not_zero c adcP htf hzero] at hx
  obtain rfl := Option.some.inj hx
  obtain ⟨_, _, _, _, _, _, _, _, _, _, _, _, _, _, _, _, _, _, _, _, _, _, _, _, _, _, _, _, _, hfin⟩ :=
    lines6to10 c adcP (lines2and3 c htf).1 (line5 c htf).1.1 (divisor_low_of_not_zero c htf hzero)
  exact hfin

end Pressure

end Sys2Proof.Machine
end

section
/-! PROOF. Every step keeps the flag chain and the bounds of the floating-point registers (R33): the commits write the
values of R143 and R146, which are bounded, and each in a state in which its inputs are valid. -/

namespace Sys2Proof.Machine

variable {s : State}

/-- The rows of `LDCAL` and `RDRAW` in R18 and a reset: without results there is nothing to keep. -/
theorem RegistersOk.of_noResults (hfine : s.tFine = none) (htemp : s.tempC = none) (hpress : s.press = none) :
    RegistersOk s := by
  refine ⟨⟨?_, ?_, ?_⟩, ?_, ?_, ?_⟩ <;> simp [fineValid, tempValid, pressValid, hfine, htemp, hpress]

/-- The row of `CMPT`: both results of `comp_T` (R144), from a calibration and a sample. -/
theorem RegistersOk.commitTemp (c : Cal) (r : RawSample) (hcal : s.cal = some c) (hraw : s.raw = some r) :
    RegistersOk (commitTemp (compT r.adcT c.t1 c.t2 c.t3).1 (compT r.adcT c.t1 c.t2 c.t3).2 s) := by
  obtain ⟨hfine, hcelsius, -⟩ := temperatureIsBounded r.adcT c.t1 c.t2 c.t3
  refine ⟨⟨?_, ?_, ?_⟩, ?_, ?_, ?_⟩
  · simp [tempValid, rawValid, calValid, hcal, hraw]
  · simp [fineValid]
  · simp [pressValid]
  · rintro x ⟨⟩
    exact hfine
  · rintro x ⟨⟩
    exact hcelsius
  · simp

/-- The row of `CMPP`: a pressure (R148), from a fine temperature. -/
theorem RegistersOk.commitPress (h : RegistersOk s) (c : Cal) (r : RawSample) (tf x : F64) (hfine : s.tFine = some tf)
    (hx : compP r.adcP tf c = some x) : RegistersOk (commitPress x s) := by
  obtain ⟨⟨hchain, htemp, -⟩, hbound, hcelsius, -⟩ := h
  refine ⟨⟨hchain, htemp, ?_⟩, hbound, hcelsius, ?_⟩
  · simp [fineValid, hfine]
  · rintro y ⟨⟩
    exact pressureIsFinite r.adcP tf c x (hbound tf hfine) hx

/-- The row of `CMPP` that ends with `ArithmeticError`. -/
theorem RegistersOk.dropPress (h : RegistersOk s) : RegistersOk (dropPress s) := by
  obtain ⟨⟨hchain, htemp, -⟩, hbound, hcelsius, -⟩ := h
  refine ⟨⟨hchain, htemp, ?_⟩, hbound, hcelsius, ?_⟩
  · simp [pressValid]
  · simp

/-- What the operations of the block do to the registers: the rows of R18, and a reset. -/
theorem keptByBlock_registersOk : KeptByBlock RegistersOk where
  transport _ _ h := ⟨h.chain, h.floats⟩
  commitCal _ _ _ := .of_noResults rfl rfl rfl
  commitRaw _ _ _ := .of_noResults rfl rfl rfl
  commitTemp _ c r hcal hraw _ := .commitTemp c r hcal hraw
  commitPress _ c r tf x _ _ hfine hx h := h.commitPress c r tf x hfine hx
  dropPress _ h := h.dropPress
  port _ _ _ _ h := ⟨h.chain, h.floats⟩
  events _ _ h := ⟨h.chain, h.floats⟩
  reset _ _ := .of_noResults rfl rfl rfl
  sensor _ _ _ h := ⟨h.chain, h.floats⟩

/-- Settles O56, by the induction step of the block's invariants. -/
theorem everyStepKeepsTheRegistersOk : Obligations.EveryStepKeepsTheRegistersOk := fun _ _ h hstep =>
  step_keeps keptByBlock_registersOk hstep h

end Sys2Proof.Machine
end
